-- ==== Sys2Proof/Word.lean ====
section
/-! DEFINITION. The bit-vector types of the block (spec/00_scope.md R7: unsigned values of a stated width). -/

namespace Sys2Proof

/-- A byte of the packet memory, of a descriptor or of a packet. -/
abbrev Byte := BitVec 8

/-- A 16-bit register or packet-memory word. -/
abbrev Word := BitVec 16

end Sys2Proof
end

