-- ==== Sys2Proof/Config.lean ====
section
/-! DEFINITION. The parameters of spec/00_scope.md R6, the enumerations of spec/10_state.md R29, and the free values
(`draw(T)` of spec/00_scope.md R10) as opaque constants. -/

namespace Sys2Proof

/-- Endpoint types, R29. -/
inductive EpType where
  | bulk | control | isochronous | interrupt
  deriving DecidableEq, Repr

/-- The value of `REC[n].handler`, R22. -/
inductive Handler where
  | none | control | data
  deriving DecidableEq, Repr

/-- The receive and transmit states of an endpoint, R29. -/
inductive Stat where
  | disabled | stall | nak | valid
  deriving DecidableEq, Repr

/-- The descriptor store `DESC`, seven read-only byte strings (R46, R285). -/
structure DescStore where
  device : List Byte
  configuration : List Byte
  stringLanguage : List Byte
  stringManufacturer : List Byte
  stringProduct : List Byte
  stringSerial : List Byte
  deviceQualifier : List Byte
  deriving DecidableEq, Repr

/-- Which `DATA_HANDLER` the endpoints 1..N-1 have (R287): the default the rule gives, or any handler within the rule's
contract, whose every action is then free (log 17). -/
inductive DataHandler where
  | passthrough | unspecified
  deriving DecidableEq, Repr

/-- The OPEN parameters of R6. They are fixed for a machine; `State.cfg` carries them so that every claim is about all of
them (log 1). -/
structure Params where
  /-- `N`, the number of endpoints. -/
  numEp : Nat
  /-- `PMA_SIZE`. -/
  pmaSize : Nat
  /-- `WAIT_BUDGET`. -/
  waitBudget : Nat
  /-- `REENTRANT`. -/
  reentrant : Bool
  /-- `DESC`. -/
  desc : DescStore
  /-- `IDX_MANUFACTURER`. -/
  idxManufacturer : Byte
  /-- `IDX_PRODUCT`. -/
  idxProduct : Byte
  /-- `IDX_SERIAL`. -/
  idxSerial : Byte
  /-- `VENDOR_READ_BYTE`. -/
  vendorReadByte : Byte
  /-- `DATA_HANDLER`. -/
  dataHandler : DataHandler
  deriving DecidableEq, Repr

/-- The limits R6 and R105 put on the parameters. -/
abbrev Params.wf (c : Params) : Prop :=
  1 ≤ c.numEp ∧ c.numEp ≤ 8 ∧ c.pmaSize % 2 = 0 ∧ 192 ≤ c.pmaSize ∧
  c.idxManufacturer ≠ 0 ∧ c.idxProduct ≠ 0 ∧ c.idxSerial ≠ 0 ∧
  c.idxManufacturer ≠ c.idxProduct ∧ c.idxManufacturer ≠ c.idxSerial ∧ c.idxProduct ≠ c.idxSerial

namespace Config

/-- `MAX_PACKET`, R6. -/
def maxPacket : Nat := 64

/-- `RX_CAPACITY`, R6. -/
def rxCapacity : Nat := 64

/-- `EP0_TX_OFFSET`, R6. -/
def ep0TxOffset : Word := 64

/-- `EP0_RX_OFFSET`, R6. -/
def ep0RxOffset : Word := 128

/-- `BTABLE_BASE`, R6. -/
def btableBase : Nat := 0

/-- The sample descriptor store of spec/95_test_vectors.md; the spec's own test data (log 2). -/
def sampleDesc : DescStore where
  device := [0x12, 0x01, 0x00, 0x02, 0x02, 0x00, 0x00, 0x40, 0x83, 0x04, 0x40, 0x57, 0x00, 0x02, 0x01, 0x02, 0x03, 0x01]
  configuration := [0x09, 0x02, 0x20, 0x00, 0x01, 0x01, 0x00, 0x80, 0x32] ++
    [0x09, 0x04, 0x00, 0x00, 0x02, 0x0A, 0x00, 0x00, 0x00] ++
    [0x07, 0x05, 0x81, 0x02, 0x40, 0x00, 0x00] ++ [0x07, 0x05, 0x01, 0x02, 0x40, 0x00, 0x00]
  stringLanguage := [0x04, 0x03, 0x09, 0x04]
  stringManufacturer := [0x06, 0x03, 0x4B, 0x00, 0x79, 0x00]
  stringProduct := [0x08, 0x03, 0x43, 0x00, 0x44, 0x00, 0x43, 0x00]
  stringSerial := [0x04, 0x03, 0x31, 0x00]
  deviceQualifier := [0x0A, 0x06, 0x00, 0x02, 0x02, 0x00, 0x00, 0x40, 0x01, 0x00]

/-- The parameter values `State.reset` takes: R6's suggestions where it makes one. DESIGN CHOICE (log 2); no claim rests on
them. -/
def suggested : Params where
  numEp := 8
  pmaSize := 512
  waitBudget := 3
  reentrant := true
  desc := sampleDesc
  idxManufacturer := 1
  idxProduct := 2
  idxSerial := 3
  vendorReadByte := 0x5A
  dataHandler := .passthrough

/-- `draw(byte)`: the padding byte of an odd-length copy (R75). Free value; the argument is `State.draws` (log 4). -/
opaque drawByte : Nat → Byte

/-- `draw(byte)` taken at power-up for the packet-memory byte at this offset (R45). Free value (log 5). -/
opaque pmaPowerUp : Nat → Byte

/-- The choice R34 leaves open, which of several pending endpoints `ISTR.EP_ID` reports, and its value with none pending.
Free value; the argument is `State.draws` (log 6). -/
opaque drawChoice : Nat → Nat

/-- Which of two enabled engine steps the engine takes by itself (log 20). Free value; the argument is `State.draws`. -/
opaque drawDispatchFirst : Nat → Bool

end Config

/-- What a handler within R287's contract is called with: the endpoint, its record after the snapshot (the three flags are bits
of `status`), and the count of draws, which tells one call from the next (log 17). -/
structure HandlerCall where
  endpoint : Nat
  txOff : Word
  rxOff : Word
  rxCount : BitVec 10
  status : Word
  draws : Nat
  deriving DecidableEq, Repr

/-- What a handler may do before it returns, R287: `ep_read`, `ep_write`, an event of its own. -/
inductive HandlerAct where
  | read
  | write (bytes : List Byte)
  | emit (bytes : List Byte)
  deriving DecidableEq, Repr

/-- What a handler returns, R287: the arguments of its `mk_status` and the two reset requests. -/
structure HandlerReply where
  rx : Option Stat
  tx : Option Stat
  clearRx : Bool
  clearTx : Bool
  resetRx : Bool
  resetTx : Bool
  deriving DecidableEq, Repr, Inhabited

/-- A bound on the actions of a handler's call. Free value (log 17). -/
opaque Config.handlerBound : HandlerCall → Nat

/-- A handler's next action, after actions that gave these bytes (none for a write or an event); `none` when it returns. Free
value (log 17). -/
opaque Config.handlerAct : HandlerCall → List (List Byte) → Option HandlerAct

/-- What a handler returns after actions that gave these bytes. Free value (log 17). -/
opaque Config.handlerReply : HandlerCall → List (List Byte) → HandlerReply

end Sys2Proof
end

