-- ==== Sys2Proof/Syntax.lean ====
section
/-! DEFINITION. The operations of UDCE, one constructor per row of spec/opcode_table.json, with the operands R100 to R110 give
each. The fields of a SETUP packet a row does not fix are its operands, the ignored ones included. -/

namespace Sys2Proof

/-- The 35 operations. -/
inductive Instr where
  -- SETUP rows 1 to 15, standard requests (spec/43_standard_requests.md)
  | getDescriptorDevice (wIndex wLength : Word)
  | getDescriptorConfiguration (wIndex wLength : Word)
  | getDescriptorStringLanguage (wIndex wLength : Word)
  | getDescriptorStringManufacturer (wIndex wLength : Word)
  | getDescriptorStringProduct (wIndex wLength : Word)
  | getDescriptorStringSerial (wIndex wLength : Word)
  | getDescriptorDeviceQualifier (wIndex wLength : Word)
  | getDescriptorUnknown (wValue wIndex wLength : Word)
  | getStatus (wValue wIndex wLength : Word)
  | stdD2hUnknown (bRequest : Byte) (wValue wIndex wLength : Word)
  | setAddress (wValue wIndex wLength : Word)
  | setConfiguration (wValue wIndex wLength : Word)
  | stdH2dUnknown (bRequest : Byte) (wValue wIndex wLength : Word)
  | clearFeatureEndpoint (wValue wIndex wLength : Word)
  | stdEpH2dUnknown (bRequest : Byte) (wValue wIndex wLength : Word)
  -- SETUP rows 16 to 22, vendor channel and CDC class (spec/44_class_vendor_requests.md)
  | vendorRead (recipient : BitVec 5) (bRequest : Byte) (wValue wIndex wLength : Word)
  | vendorWrite (recipient : BitVec 5) (bRequest : Byte) (wValue wIndex wLength : Word)
  | getLineCoding (toHost : Bool) (wValue wIndex wLength : Word)
  | setLineCoding (toHost : Bool) (wValue wIndex wLength : Word)
  | setControlLineState (toHost : Bool) (wValue wIndex wLength : Word)
  | sendBreak (toHost : Bool) (wValue wIndex wLength : Word)
  | classUnknown (toHost : Bool) (bRequest : Byte) (wValue wIndex wLength : Word)
  -- SETUP row 23
  | unknown (bmRequestType bRequest : Byte) (wValue wIndex wLength : Word)
  -- FLAGS rows (spec/42_control_engine.md)
  | ep0Setup
  | ep0Out
  | ep0In
  -- ISTR rows (spec/41_interrupt_dispatcher.md)
  | irqReset
  | irqCtr (epId : BitVec 4)
  -- BOP rows (spec/40_register_bridge.md)
  | configureEndpoint (id : Nat) (type : EpType) (txOffset rxOffset : Word) (handler : Handler)
  | write (n : Nat) (bytes : List Byte)
  | writeCommit (n : Nat) (bytes : List Byte)
  | read (n : Nat)
  | blockingRead (n : Nat)
  | waitTick
  | waitFinish
  deriving DecidableEq, Repr

end Sys2Proof
end

