-- ==== Sys2Proof/WellFormed.lean ====
section
/-! DEFINITION. Which operations an encoding can stand for: the catch-all rows of spec/30_encoding.md R109 exclude what an
earlier row takes, `EP_ID` names an endpoint (R34), and operand bytes fit their bytes (log 14). -/

namespace Sys2Proof

/-- The seven descriptor selectors of R105. -/
def descriptorSelectors (c : Params) : List Word :=
  [0x0100, 0x0200, 0x0300, 0x0300 + c.idxManufacturer.zeroExtend 16, 0x0300 + c.idxProduct.zeroExtend 16,
   0x0300 + c.idxSerial.zeroExtend 16, 0x0600]

/-- Whether rows 1 to 22 of R109 take a packet with this `bmRequestType`. -/
def knownRequestType (bm : Byte) : Bool :=
  bm == 0x80 || bm == 0x00 || bm == 0x02 || (bm &&& 0x60) == 0x40 || (bm &&& 0x7F) == 0x21

/-- The well-formed operations under parameters `c`. -/
def wellFormed (c : Params) (i : Instr) : Bool :=
  match i with
  | .getDescriptorDevice _ _ => true
  | .getDescriptorConfiguration _ _ => true
  | .getDescriptorStringLanguage _ _ => true
  | .getDescriptorStringManufacturer _ _ => true
  | .getDescriptorStringProduct _ _ => true
  | .getDescriptorStringSerial _ _ => true
  | .getDescriptorDeviceQualifier _ _ => true
  | .getDescriptorUnknown wValue _ _ => !(descriptorSelectors c).contains wValue
  | .getStatus _ _ _ => true
  | .stdD2hUnknown bRequest _ _ _ => bRequest != 0x00 && bRequest != 0x06
  | .setAddress _ _ _ => true
  | .setConfiguration _ _ _ => true
  | .stdH2dUnknown bRequest _ _ _ => bRequest != 0x05 && bRequest != 0x09
  | .clearFeatureEndpoint _ _ _ => true
  | .stdEpH2dUnknown bRequest _ _ _ => bRequest != 0x01
  | .vendorRead _ _ _ _ _ => true
  | .vendorWrite _ _ _ _ _ => true
  | .getLineCoding _ _ _ _ => true
  | .setLineCoding _ _ _ _ => true
  | .setControlLineState _ _ _ _ => true
  | .sendBreak _ _ _ _ => true
  | .classUnknown _ bRequest _ _ _ => bRequest != 0x20 && bRequest != 0x21 && bRequest != 0x22 && bRequest != 0x23
  | .unknown bmRequestType _ _ _ _ => !knownRequestType bmRequestType
  | .ep0Setup => true
  | .ep0Out => true
  | .ep0In => true
  | .irqReset => true
  | .irqCtr epId => decide (epId.toNat < c.numEp)
  | .configureEndpoint id _ _ _ _ => decide (id < 256)
  | .write n bytes => decide (n < 256) && decide (bytes.length < 256)
  | .writeCommit n bytes => decide (n < 256) && decide (bytes.length < 256)
  | .read n => decide (n < 256)
  | .blockingRead n => decide (n < 256)
  | .waitTick => true
  | .waitFinish => true

end Sys2Proof
end

