-- ==== Sys2Proof/Decode.lean ====
section
/-! DEFINITION. Encodings: the SETUP packet (spec/30_encoding.md R100 to R105), the three decode tables (R107 to R109) and the
Register Bridge selectors (R110), with an encoder written from the same tables. -/

namespace Sys2Proof

/-- Bits 7:0 of a word, the byte at the lower offset (spec/20_memory.md R72). -/
def lowByte (w : Word) : Byte := w.extractLsb' 0 8

/-- Bits 15:8 of a word, the byte at the higher offset (R72). -/
def highByte (w : Word) : Byte := w.extractLsb' 8 8

/-- `lo + 256 * hi` (R72, R73, R103). -/
def wordOf (lo hi : Byte) : Word := hi ++ lo

/-- The five fields of a SETUP packet, R100. -/
structure Setup where
  bmRequestType : Byte
  bRequest : Byte
  wValue : Word
  wIndex : Word
  wLength : Word
  deriving DecidableEq, Repr

/-- Assembly of the fields from the packet's bytes, R100 and R103. Bytes beyond the eighth are not read (R112). -/
def Setup.ofBytes (b : List Byte) : Setup where
  bmRequestType := b.getD 0 0
  bRequest := b.getD 1 0
  wValue := wordOf (b.getD 2 0) (b.getD 3 0)
  wIndex := wordOf (b.getD 4 0) (b.getD 5 0)
  wLength := wordOf (b.getD 6 0) (b.getD 7 0)

/-- The eight bytes of a packet, R100. -/
def Setup.toBytes (p : Setup) : List Byte :=
  [p.bmRequestType, p.bRequest, lowByte p.wValue, highByte p.wValue, lowByte p.wIndex, highByte p.wIndex,
   lowByte p.wLength, highByte p.wLength]

/-- The 64-bit packet word `P` of R100, byte k in bits 8k+7 : 8k. -/
def Setup.word (p : Setup) : BitVec 64 := p.wLength ++ p.wIndex ++ p.wValue ++ p.bRequest ++ p.bmRequestType

/-- The descriptor selector of a string, `0x0300 + IDX` (R105). -/
def stringSelector (idx : Byte) : Word := 0x0300 + idx.zeroExtend 16

/-- Rows 1 to 8 of R109. -/
def decodeDescriptor (c : Params) (p : Setup) : Instr :=
  if p.wValue = 0x0100 then .getDescriptorDevice p.wIndex p.wLength
  else if p.wValue = 0x0200 then .getDescriptorConfiguration p.wIndex p.wLength
  else if p.wValue = 0x0300 then .getDescriptorStringLanguage p.wIndex p.wLength
  else if p.wValue = stringSelector c.idxManufacturer then .getDescriptorStringManufacturer p.wIndex p.wLength
  else if p.wValue = stringSelector c.idxProduct then .getDescriptorStringProduct p.wIndex p.wLength
  else if p.wValue = stringSelector c.idxSerial then .getDescriptorStringSerial p.wIndex p.wLength
  else if p.wValue = 0x0600 then .getDescriptorDeviceQualifier p.wIndex p.wLength
  else .getDescriptorUnknown p.wValue p.wIndex p.wLength

/-- Rows 18 to 22 of R109; bit 7 of `bmRequestType`, the direction, is an operand. -/
def decodeClass (p : Setup) : Instr :=
  let toHost := p.bmRequestType.getLsbD 7
  if p.bRequest = 0x21 then .getLineCoding toHost p.wValue p.wIndex p.wLength
  else if p.bRequest = 0x20 then .setLineCoding toHost p.wValue p.wIndex p.wLength
  else if p.bRequest = 0x22 then .setControlLineState toHost p.wValue p.wIndex p.wLength
  else if p.bRequest = 0x23 then .sendBreak toHost p.wValue p.wIndex p.wLength
  else .classUnknown toHost p.bRequest p.wValue p.wIndex p.wLength

/-- The SETUP packet decode, R109: first matching row. Every packet selects one operation (R111). -/
def decodeSetup (c : Params) (p : Setup) : Instr :=
  if p.bmRequestType = 0x80 then
    if p.bRequest = 0x06 then decodeDescriptor c p
    else if p.bRequest = 0x00 then .getStatus p.wValue p.wIndex p.wLength
    else .stdD2hUnknown p.bRequest p.wValue p.wIndex p.wLength
  else if p.bmRequestType = 0x00 then
    if p.bRequest = 0x05 then .setAddress p.wValue p.wIndex p.wLength
    else if p.bRequest = 0x09 then .setConfiguration p.wValue p.wIndex p.wLength
    else .stdH2dUnknown p.bRequest p.wValue p.wIndex p.wLength
  else if p.bmRequestType = 0x02 then
    if p.bRequest = 0x01 then .clearFeatureEndpoint p.wValue p.wIndex p.wLength
    else .stdEpH2dUnknown p.bRequest p.wValue p.wIndex p.wLength
  else if p.bmRequestType &&& 0xE0 = 0xC0 then
    .vendorRead (p.bmRequestType.extractLsb' 0 5) p.bRequest p.wValue p.wIndex p.wLength
  else if p.bmRequestType &&& 0xE0 = 0x40 then
    .vendorWrite (p.bmRequestType.extractLsb' 0 5) p.bRequest p.wValue p.wIndex p.wLength
  else if p.bmRequestType &&& 0x7F = 0x21 then decodeClass p
  else .unknown p.bmRequestType p.bRequest p.wValue p.wIndex p.wLength

/-- The flag-vector decode, R108; `f` is `setup_pending ++ tx_pending ++ rx_pending`. -/
def decodeFlags (f : BitVec 3) : Option Instr :=
  if f = 0b101 then some .ep0Setup
  else if f = 0b001 then some .ep0Out
  else if f = 0b010 then some .ep0In
  else none

/-- The interrupt-status decode, R107: the row tried first is the bus reset. -/
def decodeIstr (w : Word) : Option Instr :=
  if w &&& 0x0400 = 0x0400 then some .irqReset
  else if w &&& 0x8000 = 0x8000 then some (.irqCtr (w.extractLsb' 0 4))
  else none

/-- The four decode spaces of spec/opcode_table.json. -/
inductive Format where
  | setup | flags | istr | bop
  deriving DecidableEq, Repr

/-- Why bytes are no operation. -/
inductive Reject where
  /-- Fewer bytes than the format has. -/
  | tooShort
  /-- A flag vector with no row (R108: the handler faults `FlagInvariant` on it). -/
  | flagVector
  /-- An interrupt status with neither cause (R171). -/
  | noCause
  /-- A bookkeeping selector with no row (R110). -/
  | selector
  /-- An operand byte with no value (log 14). -/
  | operand
  deriving DecidableEq, Repr

/-- `EP_TYPE` codes, R29. -/
def EpType.ofCode (b : Byte) : Option EpType :=
  if b = 0 then some .bulk else if b = 1 then some .control else if b = 2 then some .isochronous
  else if b = 3 then some .interrupt else none

/-- `EP_TYPE` codes, R29. -/
def EpType.code (t : EpType) : BitVec 2 :=
  match t with
  | .bulk => 0
  | .control => 1
  | .isochronous => 2
  | .interrupt => 3

/-- The handler operand byte of `CONFIGURE_ENDPOINT` (log 14). -/
def Handler.ofCode (b : Byte) : Option Handler :=
  if b = 0 then some .control else if b = 1 then some .data else if b = 2 then some .none else none

/-- The handler operand byte of `CONFIGURE_ENDPOINT` (log 14). -/
def Handler.code (h : Handler) : Byte :=
  match h with
  | .control => 0
  | .data => 1
  | .none => 2

/-- `CONFIGURE_ENDPOINT`'s operand bytes (log 14). -/
def decodeConfigure (b : List Byte) : Except Reject (Instr × List Byte) :=
  match b with
  | id :: ty :: txLo :: txHi :: rxLo :: rxHi :: h :: rest =>
    match EpType.ofCode ty, Handler.ofCode h with
    | some ty, some h => .ok (.configureEndpoint id.toNat ty (wordOf txLo txHi) (wordOf rxLo rxHi) h, rest)
    | _, _ => .error .operand
  | _ => .error .tooShort

/-- An endpoint id, a length and that many bytes (log 14). -/
def decodeBytes (mk : Nat → List Byte → Instr) (b : List Byte) : Except Reject (Instr × List Byte) :=
  match b with
  | n :: len :: rest =>
    if rest.length < len.toNat then .error .tooShort
    else .ok (mk n.toNat (rest.take len.toNat), rest.drop len.toNat)
  | _ => .error .tooShort

/-- An endpoint id (log 14). -/
def decodeId (mk : Nat → Instr) (b : List Byte) : Except Reject (Instr × List Byte) :=
  match b with
  | n :: rest => .ok (mk n.toNat, rest)
  | _ => .error .tooShort

/-- The Register Bridge selectors, R110, each followed by its operand bytes (log 14). -/
def decodeBop (b : List Byte) : Except Reject (Instr × List Byte) :=
  match b with
  | [] => .error .tooShort
  | sel :: rest =>
    if sel = 0 then decodeConfigure rest
    else if sel = 1 then decodeBytes .write rest
    else if sel = 2 then decodeBytes .writeCommit rest
    else if sel = 3 then decodeId .read rest
    else if sel = 4 then decodeId .blockingRead rest
    else if sel = 5 then .ok (.waitTick, rest)
    else if sel = 6 then .ok (.waitFinish, rest)
    else .error .selector

/-- The decoder, total on any bytes: the operation and the bytes after it. -/
def decode (f : Format) (c : Params) (b : List Byte) : Except Reject (Instr × List Byte) :=
  match f with
  | .setup =>
    match b with
    | b0 :: b1 :: b2 :: b3 :: b4 :: b5 :: b6 :: b7 :: rest =>
      .ok (decodeSetup c (Setup.ofBytes [b0, b1, b2, b3, b4, b5, b6, b7]), rest)
    | _ => .error .tooShort
  | .flags =>
    match b with
    | [] => .error .tooShort
    | f :: rest =>
      if f.toNat < 8 then
        match decodeFlags (f.extractLsb' 0 3) with
        | some i => .ok (i, rest)
        | none => .error .flagVector
      else .error .flagVector
  | .istr =>
    match b with
    | lo :: hi :: rest =>
      match decodeIstr (wordOf lo hi) with
      | some i => .ok (i, rest)
      | none => .error .noCause
    | _ => .error .tooShort
  | .bop => decodeBop b

/-- `bmRequestType` of the class rows, R109. -/
def classType (toHost : Bool) : Byte := if toHost then 0xA1 else 0x21

/-- The packet of a SETUP operation; none for an operation of another format. -/
def encodeSetup (c : Params) (i : Instr) : Option Setup :=
  match i with
  | .getDescriptorDevice wIndex wLength => some ⟨0x80, 0x06, 0x0100, wIndex, wLength⟩
  | .getDescriptorConfiguration wIndex wLength => some ⟨0x80, 0x06, 0x0200, wIndex, wLength⟩
  | .getDescriptorStringLanguage wIndex wLength => some ⟨0x80, 0x06, 0x0300, wIndex, wLength⟩
  | .getDescriptorStringManufacturer wIndex wLength => some ⟨0x80, 0x06, stringSelector c.idxManufacturer, wIndex, wLength⟩
  | .getDescriptorStringProduct wIndex wLength => some ⟨0x80, 0x06, stringSelector c.idxProduct, wIndex, wLength⟩
  | .getDescriptorStringSerial wIndex wLength => some ⟨0x80, 0x06, stringSelector c.idxSerial, wIndex, wLength⟩
  | .getDescriptorDeviceQualifier wIndex wLength => some ⟨0x80, 0x06, 0x0600, wIndex, wLength⟩
  | .getDescriptorUnknown wValue wIndex wLength => some ⟨0x80, 0x06, wValue, wIndex, wLength⟩
  | .getStatus wValue wIndex wLength => some ⟨0x80, 0x00, wValue, wIndex, wLength⟩
  | .stdD2hUnknown bRequest wValue wIndex wLength => some ⟨0x80, bRequest, wValue, wIndex, wLength⟩
  | .setAddress wValue wIndex wLength => some ⟨0x00, 0x05, wValue, wIndex, wLength⟩
  | .setConfiguration wValue wIndex wLength => some ⟨0x00, 0x09, wValue, wIndex, wLength⟩
  | .stdH2dUnknown bRequest wValue wIndex wLength => some ⟨0x00, bRequest, wValue, wIndex, wLength⟩
  | .clearFeatureEndpoint wValue wIndex wLength => some ⟨0x02, 0x01, wValue, wIndex, wLength⟩
  | .stdEpH2dUnknown bRequest wValue wIndex wLength => some ⟨0x02, bRequest, wValue, wIndex, wLength⟩
  | .vendorRead recipient bRequest wValue wIndex wLength => some ⟨0b110#3 ++ recipient, bRequest, wValue, wIndex, wLength⟩
  | .vendorWrite recipient bRequest wValue wIndex wLength => some ⟨0b010#3 ++ recipient, bRequest, wValue, wIndex, wLength⟩
  | .getLineCoding toHost wValue wIndex wLength => some ⟨classType toHost, 0x21, wValue, wIndex, wLength⟩
  | .setLineCoding toHost wValue wIndex wLength => some ⟨classType toHost, 0x20, wValue, wIndex, wLength⟩
  | .setControlLineState toHost wValue wIndex wLength => some ⟨classType toHost, 0x22, wValue, wIndex, wLength⟩
  | .sendBreak toHost wValue wIndex wLength => some ⟨classType toHost, 0x23, wValue, wIndex, wLength⟩
  | .classUnknown toHost bRequest wValue wIndex wLength => some ⟨classType toHost, bRequest, wValue, wIndex, wLength⟩
  | .unknown bmRequestType bRequest wValue wIndex wLength => some ⟨bmRequestType, bRequest, wValue, wIndex, wLength⟩
  | .ep0Setup => none
  | .ep0Out => none
  | .ep0In => none
  | .irqReset => none
  | .irqCtr _ => none
  | .configureEndpoint _ _ _ _ _ => none
  | .write _ _ => none
  | .writeCommit _ _ => none
  | .read _ => none
  | .blockingRead _ => none
  | .waitTick => none
  | .waitFinish => none

/-- The bytes of an operation that is no SETUP packet. -/
def encodeOther (i : Instr) : List Byte :=
  match i with
  | .ep0Setup => [0b101]
  | .ep0Out => [0b001]
  | .ep0In => [0b010]
  | .irqReset => [0x00, 0x04]
  | .irqCtr epId => [epId.zeroExtend 8, 0x80]
  | .configureEndpoint id ty tx rx h =>
    [0, BitVec.ofNat 8 id, ty.code.zeroExtend 8, lowByte tx, highByte tx, lowByte rx, highByte rx, h.code]
  | .write n bytes => 1 :: BitVec.ofNat 8 n :: BitVec.ofNat 8 bytes.length :: bytes
  | .writeCommit n bytes => 2 :: BitVec.ofNat 8 n :: BitVec.ofNat 8 bytes.length :: bytes
  | .read n => [3, BitVec.ofNat 8 n]
  | .blockingRead n => [4, BitVec.ofNat 8 n]
  | .waitTick => [5]
  | .waitFinish => [6]
  | .getDescriptorDevice _ _ => []
  | .getDescriptorConfiguration _ _ => []
  | .getDescriptorStringLanguage _ _ => []
  | .getDescriptorStringManufacturer _ _ => []
  | .getDescriptorStringProduct _ _ => []
  | .getDescriptorStringSerial _ _ => []
  | .getDescriptorDeviceQualifier _ _ => []
  | .getDescriptorUnknown _ _ _ => []
  | .getStatus _ _ _ => []
  | .stdD2hUnknown _ _ _ _ => []
  | .setAddress _ _ _ => []
  | .setConfiguration _ _ _ => []
  | .stdH2dUnknown _ _ _ _ => []
  | .clearFeatureEndpoint _ _ _ => []
  | .stdEpH2dUnknown _ _ _ _ => []
  | .vendorRead _ _ _ _ _ => []
  | .vendorWrite _ _ _ _ _ => []
  | .getLineCoding _ _ _ _ => []
  | .setLineCoding _ _ _ _ => []
  | .setControlLineState _ _ _ _ => []
  | .sendBreak _ _ _ _ => []
  | .classUnknown _ _ _ _ _ => []
  | .unknown _ _ _ _ _ => []

/-- The encoder. -/
def encode (c : Params) (i : Instr) : List Byte :=
  match encodeSetup c i with
  | some p => p.toBytes
  | none => encodeOther i

/-- The format an operation is encoded in. -/
def Instr.format (i : Instr) : Format :=
  match i with
  | .ep0Setup => .flags
  | .ep0Out => .flags
  | .ep0In => .flags
  | .irqReset => .istr
  | .irqCtr _ => .istr
  | .configureEndpoint _ _ _ _ _ => .bop
  | .write _ _ => .bop
  | .writeCommit _ _ => .bop
  | .read _ => .bop
  | .blockingRead _ => .bop
  | .waitTick => .bop
  | .waitFinish => .bop
  | .getDescriptorDevice _ _ => .setup
  | .getDescriptorConfiguration _ _ => .setup
  | .getDescriptorStringLanguage _ _ => .setup
  | .getDescriptorStringManufacturer _ _ => .setup
  | .getDescriptorStringProduct _ _ => .setup
  | .getDescriptorStringSerial _ _ => .setup
  | .getDescriptorDeviceQualifier _ _ => .setup
  | .getDescriptorUnknown _ _ _ => .setup
  | .getStatus _ _ _ => .setup
  | .stdD2hUnknown _ _ _ _ => .setup
  | .setAddress _ _ _ => .setup
  | .setConfiguration _ _ _ => .setup
  | .stdH2dUnknown _ _ _ _ => .setup
  | .clearFeatureEndpoint _ _ _ => .setup
  | .stdEpH2dUnknown _ _ _ _ => .setup
  | .vendorRead _ _ _ _ _ => .setup
  | .vendorWrite _ _ _ _ _ => .setup
  | .getLineCoding _ _ _ _ => .setup
  | .setLineCoding _ _ _ _ => .setup
  | .setControlLineState _ _ _ _ => .setup
  | .sendBreak _ _ _ _ => .setup
  | .classUnknown _ _ _ _ _ => .setup
  | .unknown _ _ _ _ _ => .setup

/-- The rows of R109 as mask and match, for checking `decodeSetup` against them; the third number is the row's. -/
def setupRows (c : Params) : List (BitVec 64 × BitVec 64 × Nat) :=
  let selector (v : Word) : BitVec 64 := 0x680 ||| (v.zeroExtend 64 <<< 16)
  [(0xFFFFFFFF, 0x01000680, 1), (0xFFFFFFFF, 0x02000680, 2), (0xFFFFFFFF, 0x03000680, 3),
   (0xFFFFFFFF, selector (stringSelector c.idxManufacturer), 4), (0xFFFFFFFF, selector (stringSelector c.idxProduct), 5),
   (0xFFFFFFFF, selector (stringSelector c.idxSerial), 6), (0xFFFFFFFF, 0x06000680, 7), (0xFFFF, 0x0680, 8)] ++
  [(0xFFFF, 0x0080, 9), (0xFF, 0x0080, 10), (0xFFFF, 0x0500, 11), (0xFFFF, 0x0900, 12), (0xFF, 0x0000, 13),
   (0xFFFF, 0x0102, 14), (0xFF, 0x0002, 15), (0xE0, 0x00C0, 16), (0xE0, 0x0040, 17)] ++
  [(0xFF7F, 0x2121, 18), (0xFF7F, 0x2021, 19), (0xFF7F, 0x2221, 20), (0xFF7F, 0x2321, 21), (0x7F, 0x0021, 22), (0, 0, 23)]

/-- The number of the first row of R109 that matches. -/
def firstSetupRow (c : Params) (p : BitVec 64) : Option Nat :=
  ((setupRows c).find? fun r => p &&& r.1 == r.2.1).map fun r => r.2.2

/-- The row of R109 an operation stands in; 0 for an operation of another format. -/
def Instr.setupRow (i : Instr) : Nat :=
  match i with
  | .getDescriptorDevice _ _ => 1
  | .getDescriptorConfiguration _ _ => 2
  | .getDescriptorStringLanguage _ _ => 3
  | .getDescriptorStringManufacturer _ _ => 4
  | .getDescriptorStringProduct _ _ => 5
  | .getDescriptorStringSerial _ _ => 6
  | .getDescriptorDeviceQualifier _ _ => 7
  | .getDescriptorUnknown _ _ _ => 8
  | .getStatus _ _ _ => 9
  | .stdD2hUnknown _ _ _ _ => 10
  | .setAddress _ _ _ => 11
  | .setConfiguration _ _ _ => 12
  | .stdH2dUnknown _ _ _ _ => 13
  | .clearFeatureEndpoint _ _ _ => 14
  | .stdEpH2dUnknown _ _ _ _ => 15
  | .vendorRead _ _ _ _ _ => 16
  | .vendorWrite _ _ _ _ _ => 17
  | .getLineCoding _ _ _ _ => 18
  | .setLineCoding _ _ _ _ => 19
  | .setControlLineState _ _ _ _ => 20
  | .sendBreak _ _ _ _ => 21
  | .classUnknown _ _ _ _ _ => 22
  | .unknown _ _ _ _ _ => 23
  | .ep0Setup => 0
  | .ep0Out => 0
  | .ep0In => 0
  | .irqReset => 0
  | .irqCtr _ => 0
  | .configureEndpoint _ _ _ _ _ => 0
  | .write _ _ => 0
  | .writeCommit _ _ => 0
  | .read _ => 0
  | .blockingRead _ => 0
  | .waitTick => 0
  | .waitFinish => 0

/-- The longest encoding, a `WRITE` of 255 bytes. -/
def longestInstr : Nat := 258

/-- The bytes of an instruction word whose first byte is in bits 7:0 and which has `nbits` bits, then zeros for the longest
instruction. -/
def tableBytes (nbits w : Nat) : List Byte :=
  ((List.range ((nbits + 7) / 8)).map fun k => BitVec.ofNat 8 ((w % 2 ^ nbits) >>> (8 * k))) ++ List.replicate longestInstr 0

/-- The operation alone of a decode. -/
def decodedInstr (r : Except Reject (Instr × List Byte)) : Option Instr :=
  match r with
  | .ok (i, _) => some i
  | .error _ => none

/-- The format a word of spec/opcode_table.json is read in, which the word's size alone does not say (log 15). One byte is a flag
vector where that has a row, else a Register Bridge selector where that has one, else the first byte of a SETUP packet; two
bytes are an interrupt status where they have a cause and no bit R33 reads as 0, else the first two of a packet; more are a
packet, of at most eight bytes. -/
def tableFormat (nbits w : Nat) : Option Format :=
  let b := tableBytes nbits w
  if nbits ≤ 8 then
    if (decodeFlags ((b.getD 0 0).extractLsb' 0 3)).isSome && decide ((b.getD 0 0).toNat < 8) then some .flags
    else if (b.getD 0 0).toNat < 7 then some .bop
    else some .setup
  else if nbits ≤ 16 then
    if (decodeIstr (wordOf (b.getD 0 0) (b.getD 1 0))).isSome && wordOf (b.getD 0 0) (b.getD 1 0) &&& 0x7BF0 == 0 then some .istr
    else some .setup
  else if nbits ≤ 64 then some .setup
  else none

/-- The decoder on a word of spec/opcode_table.json, in the format of `tableFormat`; the bits of a packet above `nbits` are 0.
Parameters: the values of log 2. -/
def decodeTableWord (nbits w : Nat) : Option Instr :=
  match tableFormat nbits w with
  | some f => decodedInstr (decode f Config.suggested (tableBytes nbits w))
  | none => none

end Sys2Proof
end

