-- ==== Sys2Proof/Machine/State.lean ====
section
/-! DEFINITION. The state of the machine (spec/10_state.md R20) as plain data, the outcomes' reasons, and the power-up state
(R57). -/

namespace Sys2Proof.Machine

/-- The enumeration phase `DEV.phase`, R41 and R260. -/
inductive Phase where
  | default | addressed | configured
  deriving DecidableEq, Repr

/-- The Device State `DEV`, R40 and R41. -/
structure DevState where
  address : BitVec 7
  phase : Phase
  deriving DecidableEq, Repr

/-- The Line Coding `LC`, R42 and R43: seven bytes in this order. -/
structure LineCoding where
  rate : BitVec 32
  stopBits : Byte
  parity : Byte
  dataBits : Byte
  deriving DecidableEq, Repr

/-- The sequencer `seq`, R50 and R51. -/
inductive Seq where
  | idle
  | wait (n budget : Nat)
  deriving DecidableEq, Repr

/-- An Endpoint Record `REC[n]`, R21 to R26. -/
structure Record where
  handler : Handler
  txOff : Word
  rxOff : Word
  rxCount : BitVec 10
  rxPending : Bool
  txPending : Bool
  setupPending : Bool
  status : Word
  deriving DecidableEq, Repr

/-- The record of an endpoint at power-up, R57. -/
def Record.powerUp : Record where
  handler := .none
  txOff := 0
  rxOff := 0
  rxCount := 0
  rxPending := false
  txPending := false
  setupPending := false
  status := 0

/-- The events of `OUT`, R56; `handlerEvent` is an event of a handler's own (spec/46_external_agents.md R287). -/
inductive Event where
  | onLineCodingChanged (record : List Byte)
  | onControlLineState (value : Word)
  | onBreak
  | wire (n : Nat) (pid : Bool) (bytes : List Byte)
  | wireStall (n : Nat)
  | dataRx (n : Nat) (bytes : List Byte)
  | dataTxDone (n : Nat)
  | handlerEvent (n : Nat) (bytes : List Byte)
  deriving DecidableEq, Repr

/-- The triple a handler returns, spec/41_interrupt_dispatcher.md R176. -/
structure HandlerResult where
  status : Word
  resetRx : Bool
  resetTx : Bool
  deriving DecidableEq, Repr

/-- What a handler has returned to the dispatcher inside a step: nothing yet, `suspended` (R177), or its triple. The model's own
(log 12). -/
inductive HandlerRet where
  | none
  | suspended
  | done (r : HandlerResult)
  deriving DecidableEq, Repr

/-- The moves of a script, spec/30_encoding.md R115. `bench` is the model's own: it runs one Register Bridge operation alone,
given by its selector and operand bytes (log 16). -/
inductive Move where
  | dispatch
  | waitTick
  | waitFinish
  | busReset
  | busSetup (addr : BitVec 7) (packet : Setup)
  | busOut (n : Nat) (addr : BitVec 7) (pid : Bool) (data : List Byte)
  | busIn (n : Nat) (addr : BitVec 7)
  | appConfigure (id : Nat) (type : EpType) (txOff rxOff : Word)
  | appWrite (id : Nat) (data : List Byte)
  | appRead (id : Nat)
  | bench (code : List Byte)
  deriving DecidableEq, Repr

/-- The faults. The first six are complete for the spec (spec/60_exceptions.md R311). All are safe: nothing is proved by reaching
one. -/
inductive Fault where
  /-- Raised by `IRQ_CTR` when the reported endpoint is outside the table or has no handler (R173). Safe. -/
  | noHandler
  /-- Raised by the handler of a dispatch in which not exactly one of rx/tx is pending: the control engine (R191, R311), and the
  handler of a data endpoint (R25, R174; log 25). Safe. -/
  | flagInvariant
  /-- Raised by `write` of more than 64 bytes (R147). Safe. -/
  | writeTooLong
  /-- Raised by `read` with a count above 64 (R149). Safe. -/
  | readTooLong
  /-- Raised by the `blocking_read` start while a wait is open (R150). Safe. -/
  | nestedWait
  /-- Raised by `configure_endpoint` on arguments it does not accept (R145). Safe. -/
  | badConfigure
  /-- Raised by an access to packet memory that spec/20_memory.md R74 and R79 say does not exist: outside `PMA_SIZE`, or a
  two-byte access at an odd offset. The model's own (log 10). Safe. -/
  | pmaBadAccess
  deriving DecidableEq, Repr

/-- The refusals. All are safe. -/
inductive Refusal where
  /-- Raised by an arm of `exec` whose operation has no meaning yet. Safe. -/
  | notModelled (mnemonic : String)
  /-- Raised by `WAIT_TICK` and `WAIT_FINISH` in a state that does not enable them (spec/60_exceptions.md R318: "not enabled
  (refused: it does not occur)"). Safe. -/
  | notEnabled
  /-- Raised by `write`, `write_commit`, `read` and `blocking_read` for an endpoint without handler: outside the operands of
  spec/40_register_bridge.md R146 (log 11). Safe. -/
  | unconfiguredEndpoint
  /-- Raised by `runRequest` for an operation that is no SETUP request; the SETUP decoder gives none. Safe. -/
  | noRequest
  /-- Raised by a bench move whose bytes are no operation (log 16). Safe. -/
  | undecodable (why : Reject)
  deriving DecidableEq, Repr

/-- The machine's state, R20, with the parameters it carries (log 1) and four fields of the model's own. -/
@[ext]
structure State where
  /-- The parameters and `DESC`; no step writes them. -/
  cfg : Params
  /-- `REC[0..N-1]`. -/
  recs : List Record
  /-- `DEV`. -/
  dev : DevState
  /-- `LC`. -/
  lc : LineCoding
  /-- `seq`. -/
  seq : Seq
  /-- `SCRATCH`, 64 bytes. -/
  scratch : List Byte
  /-- `fault`. -/
  fault : Option Fault
  /-- `EPR[0..N-1]`. -/
  epr : List Word
  /-- `ISTR.RESET`. -/
  istrReset : Bool
  /-- `DADDR`. -/
  daddr : Byte
  /-- `PMA`, the bytes written since power-up by offset, offsets rising (log 5). -/
  pma : List Host.Cell
  /-- `OUT`, oldest first. -/
  out : List Event
  /-- How many free values have been drawn (log 4). -/
  draws : Nat
  /-- The moves to come, next first (log 7). -/
  script : List Move
  /-- The value a handler returned within the step (log 12). -/
  handlerRet : HandlerRet
  /-- The storage the last `READ` filled (log 13). -/
  appBuf : List Byte
  deriving DecidableEq, Repr

/-- `LC_DEFAULT`: 115200 baud, 1 stop bit, no parity, 8 data bits (R43). -/
def LineCoding.default : LineCoding where
  rate := 115200
  stopBits := 0
  parity := 0
  dataBits := 8

/-- The state after power-up under parameters `c`, R57 and R340 (a). -/
def State.powerUp (c : Params) : State where
  cfg := c
  recs := List.replicate c.numEp Record.powerUp
  dev := ⟨0, .default⟩
  lc := LineCoding.default
  seq := .idle
  scratch := List.replicate 64 0
  fault := none
  epr := List.replicate c.numEp 0
  istrReset := false
  daddr := 0
  pma := []
  out := []
  draws := 0
  script := []
  handlerRet := .none
  appBuf := []

/-- The machine right after power-up, at the parameter values of log 2. -/
def State.reset : State := State.powerUp Config.suggested

end Sys2Proof.Machine
end

