-- ==== Sys2Proof/Machine/Flags.lean ====
section
/-! DEFINITION. The fields of the hardware registers, the effect of a register write (spec/10_state.md R28 to R38), the
status-word helper (spec/40_register_bridge.md R141), and the bus side's changes of an endpoint register
(spec/46_external_agents.md R273 to R275). -/

namespace Sys2Proof.Machine

/-- `M_TOGGLE`, R28. -/
def mToggle : Word := 0x7070

/-- `M_RCW0`, R28. -/
def mRcw0 : Word := 0x8080

/-- `M_RW`, R28. -/
def mRw : Word := 0x070F

/-- `M_RO`, R28. -/
def mRo : Word := 0x0800

/-- `RX_CAP_64`, R37. -/
def rxCap64 : Word := 0x8400

/-- `STAT` encodings, R29. -/
def statCode (st : Stat) : BitVec 2 :=
  match st with
  | .disabled => 0
  | .stall => 1
  | .nak => 2
  | .valid => 3

/-- `EPR.CTR_RX`, bit 15. -/
def ctrRx (e : Word) : Bool := e.getLsbD 15

/-- `EPR.DTOG_RX`, bit 14. -/
def dtogRx (e : Word) : Bool := e.getLsbD 14

/-- `EPR.STAT_RX`, bits 13:12. -/
def statRx (e : Word) : BitVec 2 := e.extractLsb' 12 2

/-- `EPR.SETUP`, bit 11. -/
def setupBit (e : Word) : Bool := e.getLsbD 11

/-- `EPR.EP_TYPE`, bits 10:9. -/
def epType (e : Word) : BitVec 2 := e.extractLsb' 9 2

/-- `EPR.EP_KIND`, bit 8. -/
def epKind (e : Word) : Bool := e.getLsbD 8

/-- `EPR.CTR_TX`, bit 7. -/
def ctrTx (e : Word) : Bool := e.getLsbD 7

/-- `EPR.DTOG_TX`, bit 6. -/
def dtogTx (e : Word) : Bool := e.getLsbD 6

/-- `EPR.STAT_TX`, bits 5:4. -/
def statTx (e : Word) : BitVec 2 := e.extractLsb' 4 2

/-- `EPR.EA`, bits 3:0. -/
def epAddr (e : Word) : BitVec 4 := e.extractLsb' 0 4

/-- `pending(n)` of R34, as a function of `EPR[n]`. -/
def pendingWord (e : Word) : Bool := ctrRx e || ctrTx e

/-- `RegWrite`, R31: the register after a write of `w` to a register that holds `cur`. -/
def regWrite (cur w : Word) : Word :=
  (cur &&& mRo) ||| (w &&& mRw) ||| ((cur ^^^ w) &&& mToggle) ||| ((cur &&& w) &&& mRcw0)

/-- The `STAT_RX` write bits that bring a register holding `s` to `st`. -/
def statRxWrite (s : Word) (st : Stat) : Word := ((statRx s ^^^ statCode st).zeroExtend 16) <<< 12

/-- The `STAT_TX` write bits that bring a register holding `s` to `st`. -/
def statTxWrite (s : Word) (st : Stat) : Word := ((statTx s ^^^ statCode st).zeroExtend 16) <<< 4

/-- `mk_status`, R141; `none` stands for `keep`. -/
def mkStatus (s : Word) (rx tx : Option Stat) (rrx rtx : Bool) : Word :=
  (s &&& 0x8F8F) |||
  (match rx with | none => 0 | some st => statRxWrite s st) |||
  (match tx with | none => 0 | some st => statTxWrite s st) |||
  (if rrx then s &&& 0x4000 else 0) |||
  (if rtx then s &&& 0x0040 else 0)

/-- The word `configure_endpoint` writes to a register that holds `cur`, R144. -/
def configureWord (id : Nat) (type : EpType) (cur : Word) : Word :=
  (type.code.zeroExtend 16 <<< 9) ||| (BitVec.ofNat 16 id &&& 0x000F) ||| statRxWrite cur .valid ||| statTxWrite cur .nak |||
  (cur &&& 0x4000) ||| (cur &&& 0x0040)

/-- The word `write_commit` writes to a register that holds `cur`, R148. -/
def writeCommitWord (cur : Word) : Word := mkStatus cur (some .nak) (some .valid) false false ||| 0x8080

/-- The word the `blocking_read` start writes from the shadow `s`, R150. -/
def rearmWord (s : Word) : Word := mkStatus s (some .valid) (some .nak) false false &&& 0x7F7F

/-- The word `commit` writes for a handler's result, spec/41_interrupt_dispatcher.md R176. -/
def commitWord (r : HandlerResult) : Word :=
  (r.status &&& 0x3F3F) |||
  (if r.resetRx then r.status &&& 0x4000 else 0) |||
  (if r.resetTx then r.status &&& 0x0040 else 0)

/-- `EPR[0]` after a SETUP transaction, spec/46_external_agents.md R273: `CTR_RX` and `SETUP` set, both `STAT` NAK, both `DTOG` 1,
the rest as it was. -/
def afterSetup (e : Word) : Word := (e &&& 0x078F) ||| 0xE860

/-- `EPR[n]` after a reception, R274: `CTR_RX` set, `SETUP` clear, `STAT_RX` NAK, `DTOG_RX` inverted. -/
def afterOut (e : Word) : Word := ((e &&& 0x47FF) ^^^ 0x4000) ||| 0xA000

/-- `EPR[n]` after a transmission, R275: `CTR_TX` set, `STAT_TX` NAK, `DTOG_TX` inverted. -/
def afterIn (e : Word) : Word := ((e &&& 0xFFCF) ^^^ 0x0040) ||| 0x00A0

/-- The flag vector `setup_pending ++ tx_pending ++ rx_pending`, spec/30_encoding.md R108. -/
def flagVector (r : Record) : BitVec 3 :=
  BitVec.ofBool r.setupPending ++ BitVec.ofBool r.txPending ++ BitVec.ofBool r.rxPending

/-- The count of a `COUNT_RX` or `COUNT_TX` word, bits 9:0 (R37, R38). -/
def countField (w : Word) : BitVec 10 := w.extractLsb' 0 10

/-- A `COUNT_RX` word with its count replaced, its capacity bits kept (R37, R273, R274). -/
def withCount (w : Word) (n : Nat) : Word := (w &&& 0xFC00) ||| (BitVec.ofNat 16 n &&& 0x03FF)

/-- `DADDR.ADD`, bits 6:0 (R35). -/
def daddrAdd (d : Byte) : BitVec 7 := d.extractLsb' 0 7

/-- `DADDR.EF`, bit 7 (R35). -/
def daddrEf (d : Byte) : Bool := d.getLsbD 7

/-- `0x80 or address`: enabled, at this address (spec/42_control_engine.md R196). -/
def daddrOf (address : BitVec 7) : Byte := 0x80 ||| address.zeroExtend 8

end Sys2Proof.Machine
end

