-- ==== Sys2Proof/Machine/Operands.lean ====
section
/-! DEFINITION. Operand forms: the fields derived from a SETUP packet (spec/30_encoding.md R103), the byte layout of the Line
Coding (spec/10_state.md R43), clamped and padded byte strings (R106, spec/20_memory.md R75), the slots of a buffer descriptor
entry (spec/10_state.md R36). -/

namespace Sys2Proof.Machine

/-- `ceil2`, the number of 16-bit words that hold `n` bytes (spec/00_scope.md R7, R106). -/
def ceil2 (n : Nat) : Nat := (n + 1) / 2

/-- The new bus address of SET_ADDRESS, `wValue[6:0]` (R103). -/
def addressOf (wValue : Word) : BitVec 7 := wValue.extractLsb' 0 7

/-- The reply to GET_DESCRIPTOR: the first `min(wLength, len(d))` bytes of `d` (spec/43_standard_requests.md R210). -/
def clampReply (d : List Byte) (wLength : Word) : List Byte := d.take (min wLength.toNat d.length)

/-- The seven bytes of the Line Coding, R43. -/
def LineCoding.toBytes (l : LineCoding) : List Byte :=
  [l.rate.extractLsb' 0 8, l.rate.extractLsb' 8 8, l.rate.extractLsb' 16 8, l.rate.extractLsb' 24 8,
   l.stopBits, l.parity, l.dataBits]

/-- The Line Coding whose seven bytes are the first seven of `b`, R43. -/
def LineCoding.ofBytes (b : List Byte) : LineCoding where
  rate := b.getD 3 0 ++ b.getD 2 0 ++ b.getD 1 0 ++ b.getD 0 0
  stopBits := b.getD 4 0
  parity := b.getD 5 0
  dataBits := b.getD 6 0

/-- The four words of a buffer descriptor entry, R36. -/
inductive BtSlot where
  | addrTx | countTx | addrRx | countRx
  deriving DecidableEq, Repr

/-- The offset of a word within its entry, R36. -/
def BtSlot.offset (k : BtSlot) : Nat :=
  match k with
  | .addrTx => 0
  | .countTx => 2
  | .addrRx => 4
  | .countRx => 6

/-- The packet-memory offset of `BT[n]`'s word, R36. -/
def btAddr (n : Nat) (k : BtSlot) : Nat := Config.btableBase + 8 * n + k.offset

end Sys2Proof.Machine
end

