-- ==== Sys2Proof/Machine/Ops.lean ====
section
/-! DEFINITION. The named operations over state and packet memory that every meaning is written with: accessors and updates,
`MemRead`/`MemWrite` (spec/20_memory.md), the Register Bridge primitives (spec/40_register_bridge.md), interrupt entry and
return (spec/41_interrupt_dispatcher.md R174, R176) and the recording of a fault (spec/60_exceptions.md R310). -/

namespace Sys2Proof.Machine

/-- The outcome of an operation that computes an `α`. -/
abbrev Res (α : Type) := Host.Outcome α Fault Refusal

/-- Sequencing: a fault or a refusal ends the step and drops what came before it (R310). -/
def andThen {α β : Type} (o : Res α) (f : α → Res β) : Res β :=
  match o with
  | .next a => f a
  | .fault x => .fault x
  | .refused r => .refused r

/-! ### Packet memory as data -/

/-- The byte written at an offset; none where nothing has been written since power-up. -/
def Memory.lookup (m : List Host.Cell) (a : Nat) : Option Byte :=
  match m with
  | [] => none
  | (b, v) :: rest => if a = b then some v else if a < b then none else Memory.lookup rest a

/-- Write a byte, keeping the offsets rising. -/
def Memory.store (m : List Host.Cell) (a : Nat) (v : Byte) : List Host.Cell :=
  match m with
  | [] => [(a, v)]
  | (b, w) :: rest =>
    if a < b then (a, v) :: (b, w) :: rest
    else if a = b then (a, v) :: rest
    else (b, w) :: Memory.store rest a v

/-- The canonical form: offsets strictly rising. An unlisted offset holds no written value, so no entry can equal it (log 5). -/
abbrev Memory.wf (m : List Host.Cell) : Prop := (m.map Prod.fst).Pairwise (· < ·)

/-! ### Accessors -/

/-- `REC[n]`. -/
def State.recAt (s : State) (n : Nat) : Record := s.recs.getD n Record.powerUp

/-- `EPR[n]`. -/
def State.eprAt (s : State) (n : Nat) : Word := s.epr.getD n 0

/-- `MemRead(a, 1)`: what was last written, or the power-up draw (R45). -/
def State.pmaByte (s : State) (a : Nat) : Byte := (Memory.lookup s.pma a).getD (Config.pmaPowerUp a)

/-- `MemRead(a, 2)`, R72. -/
def State.pmaWord (s : State) (a : Nat) : Word := wordOf (s.pmaByte a) (s.pmaByte (a + 1))

/-- The `c` bytes from offset `a`, read one by one. -/
def State.pmaBytes (s : State) (a c : Nat) : List Byte := (List.range c).map fun i => s.pmaByte (a + i)

/-- `BT[n].X`, R36. -/
def State.bt (s : State) (n : Nat) (k : BtSlot) : Word := s.pmaWord (btAddr n k)

/-- Whether the words that hold `len` bytes from `a` exist (R74, R79); a copy of no bytes forms no access. -/
def State.wordsExist (s : State) (a len : Nat) : Bool :=
  len == 0 || (a % 2 == 0 && decide (a + 2 * ceil2 len ≤ s.cfg.pmaSize))

/-- Whether the `len` bytes from `a` exist (R74, R79). -/
def State.bytesExist (s : State) (a len : Nat) : Bool := len == 0 || decide (a + len ≤ s.cfg.pmaSize)

/-- An endpoint of the table with a handler bound: the operand condition of R146. -/
def State.configured (s : State) (n : Nat) : Bool :=
  decide (n < s.cfg.numEp) && decide ((s.recAt n).handler ≠ .none)

/-! ### Updates, one field each -/

/-- Replace `REC[n]`. -/
def State.setRec (s : State) (n : Nat) (r : Record) : State := { s with recs := s.recs.set n r }

/-- Assign `EPR[n]`; used by the engine only through `State.regWriteEpr` (R8). -/
def State.setEpr (s : State) (n : Nat) (e : Word) : State := { s with epr := s.epr.set n e }

/-- Assign every `EPR[n]` zero (spec/46_external_agents.md R271). -/
def State.clearEprs (s : State) : State := { s with epr := s.epr.map fun _ => 0 }

/-- `DEV.address <- a`. -/
def State.setAddress (s : State) (a : BitVec 7) : State := { s with dev := { s.dev with address := a } }

/-- `DEV.phase <- p`. -/
def State.setPhase (s : State) (p : Phase) : State := { s with dev := { s.dev with phase := p } }

/-- `LC <- l`. -/
def State.setLc (s : State) (l : LineCoding) : State := { s with lc := l }

/-- `seq <- q`. -/
def State.setSeq (s : State) (q : Seq) : State := { s with seq := q }

/-- `SCRATCH <- b`. -/
def State.setScratch (s : State) (b : List Byte) : State := { s with scratch := b }

/-- `fault <- x`. -/
def State.setFault (s : State) (x : Fault) : State := { s with fault := some x }

/-- `ISTR.RESET <- b`. -/
def State.setIstrReset (s : State) (b : Bool) : State := { s with istrReset := b }

/-- `DADDR <- d`. -/
def State.setDaddr (s : State) (d : Byte) : State := { s with daddr := d }

/-- `emit(e)`, R10 and R56. -/
def State.emit (s : State) (e : Event) : State := { s with out := s.out ++ [e] }

/-- One more free value drawn (log 4). -/
def State.bumpDraws (s : State) : State := { s with draws := s.draws + 1 }

/-- Replace the moves to come (log 7). -/
def State.setScript (s : State) (m : List Move) : State := { s with script := m }

/-- The value a handler returns to the dispatcher (log 12). -/
def State.setHandlerRet (s : State) (r : HandlerRet) : State := { s with handlerRet := r }

/-- Fill the caller-supplied storage of a `read` (log 13). -/
def State.setAppBuf (s : State) (b : List Byte) : State := { s with appBuf := b }

/-- Write one byte of a packet-memory word. -/
def State.setPmaByte (s : State) (a : Nat) (v : Byte) : State := { s with pma := Memory.store s.pma a v }

/-- Write the packet-memory word whose bytes are `lo`, at the lower offset, and `hi` (R72). -/
def State.setPmaPair (s : State) (a : Nat) (lo hi : Byte) : State := (s.setPmaByte a lo).setPmaByte (a + 1) hi

/-- `MemWrite(a, 2, w)`, R72. -/
def State.setPmaWord (s : State) (a : Nat) (w : Word) : State := s.setPmaPair a (lowByte w) (highByte w)

/-- `BT[n].X <- w`, R36. -/
def State.setBt (s : State) (n : Nat) (k : BtSlot) (w : Word) : State := s.setPmaWord (btAddr n k) w

/-- Copy a byte string into packet memory in whole words; the high byte of the last word of an odd-length copy is a draw (R75). -/
def State.copyWords (s : State) (a : Nat) (b : List Byte) : State :=
  match b with
  | [] => s
  | [lo] => (s.setPmaPair a lo (Config.drawByte s.draws)).bumpDraws
  | lo :: hi :: rest => (s.setPmaPair a lo hi).copyWords (a + 2) rest

/-! ### Faults -/

/-- R310: the state after a step that raises is the state before it with `fault` set, if it was `none` (R55). -/
def State.recordFault (s : State) (x : Fault) : State :=
  match s.fault with
  | none => s.setFault x
  | some _ => s

/-! ### Register Bridge -/

/-- `RegWrite(EPR[n], w)`, R31. -/
def State.regWriteEpr (s : State) (n : Nat) (w : Word) : State := s.setEpr n (regWrite (s.eprAt n) w)

/-- The arguments `configure_endpoint` accepts for an endpoint of the table, R145. -/
def acceptable (c : Params) (id : Nat) (type : EpType) (tx rx : Word) (h : Handler) : Bool :=
  decide (type ≠ .isochronous) && tx.toNat % 2 == 0 && rx.toNat % 2 == 0 &&
  decide (tx.toNat + Config.maxPacket ≤ c.pmaSize) && decide (rx.toNat + Config.rxCapacity ≤ c.pmaSize) &&
  (if id = 0 then decide (h = .control) else decide (h = .data))

/-- The state an accepted `configure_endpoint` leaves, R144. -/
def State.configure (s : State) (id : Nat) (type : EpType) (tx rx : Word) (h : Handler) : State :=
  let s1 := s.regWriteEpr id (configureWord id type (s.eprAt id))
  let s2 := (((s1.setBt id .addrTx tx).setBt id .countTx 0).setBt id .addrRx rx).setBt id .countRx rxCap64
  s2.setRec id { s2.recAt id with handler := h, txOff := tx, rxOff := rx }

/-- `configure_endpoint`, R144 and R145. -/
def configureEndpoint (id : Nat) (type : EpType) (tx rx : Word) (h : Handler) (s : State) : Res State :=
  if s.cfg.numEp ≤ id then .next s
  else if acceptable s.cfg id type tx rx h then .next (s.configure id type tx rx h)
  else .fault .badConfigure

/-- `ep_write`, R146 and R147. -/
def epWrite (n : Nat) (b : List Byte) (s : State) : Res State :=
  if Config.maxPacket < b.length then .fault .writeTooLong
  else if s.wordsExist (s.recAt n).txOff.toNat b.length then
    .next ((s.copyWords (s.recAt n).txOff.toNat b).setBt n .countTx (BitVec.ofNat 16 b.length))
  else .fault .pmaBadAccess

/-- `write_commit`, R148. -/
def writeCommit (n : Nat) (b : List Byte) (s : State) : Res State :=
  andThen (epWrite n b s) fun s1 => .next (s1.regWriteEpr n (writeCommitWord (s1.eprAt n)))

/-- `ep_read`, R149. -/
def epRead (n : Nat) (s : State) : Res (List Byte) :=
  let c := (s.recAt n).rxCount.toNat
  if Config.rxCapacity < c then .fault .readTooLong
  else if s.bytesExist (s.recAt n).rxOff.toNat c then .next (s.pmaBytes (s.recAt n).rxOff.toNat c)
  else .fault .pmaBadAccess

/-- The `blocking_read` start, R150. -/
def blockingReadStart (n : Nat) (s : State) : Res State :=
  match s.seq with
  | .wait _ _ => .fault .nestedWait
  | .idle =>
    let s1 := s.setRec n { s.recAt n with rxPending := false }
    let s2 := s1.setScratch (List.replicate 64 0)
    let s3 := s2.regWriteEpr n (rearmWord (s2.recAt n).status)
    .next (s3.setSeq (.wait n s.cfg.waitBudget))

/-! ### Requests -/

/-- `reply_descriptor`, spec/43_standard_requests.md R210. -/
def replyDescriptor (d : List Byte) (wLength : Word) (s : State) : Res State := epWrite 0 (clampReply d wLength) s

/-- `ack`, R211. -/
def ack (s : State) : Res State := epWrite 0 [] s

/-- `set_line_coding_finish`, spec/44_class_vendor_requests.md R245. -/
def setLineCodingFinish (s : State) : Res State :=
  let l := LineCoding.ofBytes s.scratch
  ack ((s.setLc l).emit (.onLineCodingChanged l.toBytes))

/-! ### Interrupt entry, the handler's result, interrupt return -/

/-- The record after the snapshot of a register value and a count word, R174. -/
def Record.snapshot (r : Record) (e countRx : Word) : Record :=
  { r with
    rxCount := countField countRx
    status := e
    rxPending := ctrRx e
    txPending := ctrTx e
    setupPending := setupBit e && ctrRx e }

/-- Interrupt entry: the Endpoint State Table update, R174 and R305. -/
def snapshot (n : Nat) (s : State) : State :=
  s.setRec n ((s.recAt n).snapshot (s.eprAt n) (s.bt n .countRx))

/-- The SETUP epilogue's result, spec/42_control_engine.md R193. -/
def setupEpilogue (status : Word) : HandlerResult := ⟨mkStatus status (some .nak) (some .valid) false false, false, false⟩

/-- Interrupt return: the commit of a handler's result, R176 and R306. -/
def commit (n : Nat) (r : HandlerResult) (s : State) : State := s.regWriteEpr n (commitWord r)

/-! ### Interrupt status -/

/-- The endpoints with `pending(n)`, R34. -/
def State.pendingEps (s : State) : List Nat := (List.range s.epr.length).filter fun n => pendingWord (s.eprAt n)

/-- `ISTR.CTR`, R34. -/
def State.istrCtr (s : State) : Bool := s.epr.any pendingWord

/-- `ISTR.EP_ID`, R34: the pending endpoint, one of them if there are several, and any value if there is none (log 6). -/
def State.epIdField (s : State) : BitVec 4 :=
  match s.pendingEps with
  | [] => BitVec.ofNat 4 (Config.drawChoice s.draws)
  | [n] => BitVec.ofNat 4 n
  | ns => BitVec.ofNat 4 (ns.getD (Config.drawChoice s.draws % ns.length) 0)

/-- The interrupt status register, R33: bits 15, 10 and 3:0; all others read 0. -/
def State.istr (s : State) : Word :=
  (if s.istrCtr then 0x8000 else 0) ||| (if s.istrReset then 0x0400 else 0) ||| s.epIdField.zeroExtend 16

end Sys2Proof.Machine
end

