-- ==== Sys2Proof/Machine/ClassRequests.lean ====
section
/-! DEFINITION. The vendor channel and the CDC class requests (spec/44_class_vendor_requests.md). -/

namespace Sys2Proof.Machine

/-- `VENDOR_READ`, R241: the placeholder byte, whatever `wLength`. -/
def execVendorRead (_recipient : BitVec 5) (_bRequest : Byte) (_wValue _wIndex _wLength : Word) (s : State) :
    Host.Outcome State Fault Refusal :=
  epWrite 0 [s.cfg.vendorReadByte] s

/-- `VENDOR_WRITE`, R242: acknowledged. -/
def execVendorWrite (_recipient : BitVec 5) (_bRequest : Byte) (_wValue _wIndex _wLength : Word) (s : State) :
    Host.Outcome State Fault Refusal :=
  ack s

/-- `GET_LINE_CODING`, R243: the seven bytes of `LC`, whatever `wLength`. -/
def execGetLineCoding (_toHost : Bool) (_wValue _wIndex _wLength : Word) (s : State) : Host.Outcome State Fault Refusal :=
  epWrite 0 s.lc.toBytes s

/-- `SET_LINE_CODING`, first phase, R244: start the wait for the record on endpoint 0 and return `suspended`. -/
def execSetLineCoding (_toHost : Bool) (_wValue _wIndex _wLength : Word) (s : State) : Host.Outcome State Fault Refusal :=
  andThen (blockingReadStart 0 s) fun s1 => .next (s1.setHandlerRet .suspended)

/-- `SET_CONTROL_LINE_STATE`, R246: all of `wValue` goes to the application. -/
def execSetControlLineState (_toHost : Bool) (wValue _wIndex _wLength : Word) (s : State) :
    Host.Outcome State Fault Refusal :=
  ack (s.emit (.onControlLineState wValue))

/-- `SEND_BREAK`, R247: the duration is dropped. -/
def execSendBreak (_toHost : Bool) (_wValue _wIndex _wLength : Word) (s : State) : Host.Outcome State Fault Refusal :=
  ack (s.emit .onBreak)

/-- An unknown class request, R248: acknowledged. -/
def execClassUnknown (_toHost : Bool) (_bRequest : Byte) (_wValue _wIndex _wLength : Word) (s : State) :
    Host.Outcome State Fault Refusal :=
  ack s

end Sys2Proof.Machine
end

