-- ==== Sys2Proof/Machine/StandardRequests.lean ====
section
/-! DEFINITION. Standard device requests and unrecognized requests (spec/43_standard_requests.md). Each meaning is the row's
operation inside the SETUP path; the epilogue and the commit follow it (spec/42_control_engine.md R192, R193). Operands the
rule ignores are passed and not read. -/

namespace Sys2Proof.Machine

/-- `GET_DESCRIPTOR` of the device descriptor, R212. -/
def execGetDescriptorDevice (_wIndex wLength : Word) (s : State) : Host.Outcome State Fault Refusal :=
  replyDescriptor s.cfg.desc.device wLength s

/-- `GET_DESCRIPTOR` of the configuration descriptor, R213. -/
def execGetDescriptorConfiguration (_wIndex wLength : Word) (s : State) : Host.Outcome State Fault Refusal :=
  replyDescriptor s.cfg.desc.configuration wLength s

/-- `GET_DESCRIPTOR` of the string-language descriptor, R214. -/
def execGetDescriptorStringLanguage (_wIndex wLength : Word) (s : State) : Host.Outcome State Fault Refusal :=
  replyDescriptor s.cfg.desc.stringLanguage wLength s

/-- `GET_DESCRIPTOR` of the string-manufacturer descriptor, R215. -/
def execGetDescriptorStringManufacturer (_wIndex wLength : Word) (s : State) : Host.Outcome State Fault Refusal :=
  replyDescriptor s.cfg.desc.stringManufacturer wLength s

/-- `GET_DESCRIPTOR` of the string-product descriptor, R216. -/
def execGetDescriptorStringProduct (_wIndex wLength : Word) (s : State) : Host.Outcome State Fault Refusal :=
  replyDescriptor s.cfg.desc.stringProduct wLength s

/-- `GET_DESCRIPTOR` of the string-serial descriptor, R217. -/
def execGetDescriptorStringSerial (_wIndex wLength : Word) (s : State) : Host.Outcome State Fault Refusal :=
  replyDescriptor s.cfg.desc.stringSerial wLength s

/-- `GET_DESCRIPTOR` of the device-qualifier descriptor, R218. -/
def execGetDescriptorDeviceQualifier (_wIndex wLength : Word) (s : State) : Host.Outcome State Fault Refusal :=
  replyDescriptor s.cfg.desc.deviceQualifier wLength s

/-- `GET_DESCRIPTOR` of an unknown descriptor, R219: acknowledged. -/
def execGetDescriptorUnknown (_wValue _wIndex _wLength : Word) (s : State) : Host.Outcome State Fault Refusal := ack s

/-- `GET_STATUS`, R220: two zero bytes, not clamped. -/
def execGetStatus (_wValue _wIndex _wLength : Word) (s : State) : Host.Outcome State Fault Refusal := epWrite 0 [0x00, 0x00] s

/-- An unknown device-to-host standard request, R221: acknowledged. -/
def execStdD2hUnknown (_bRequest : Byte) (_wValue _wIndex _wLength : Word) (s : State) : Host.Outcome State Fault Refusal :=
  ack s

/-- `SET_ADDRESS`, R222: the address is latched, `DADDR` is not written here. -/
def execSetAddress (wValue _wIndex _wLength : Word) (s : State) : Host.Outcome State Fault Refusal :=
  ack (s.setAddress (addressOf wValue))

/-- `SET_CONFIGURATION`, R223: always to `Configured`. -/
def execSetConfiguration (_wValue _wIndex _wLength : Word) (s : State) : Host.Outcome State Fault Refusal :=
  ack (s.setPhase .configured)

/-- An unknown host-to-device standard request, R224: acknowledged. -/
def execStdH2dUnknown (_bRequest : Byte) (_wValue _wIndex _wLength : Word) (s : State) : Host.Outcome State Fault Refusal :=
  ack s

/-- `CLEAR_FEATURE` to an endpoint, R225: acknowledged, no endpoint register touched. -/
def execClearFeatureEndpoint (_wValue _wIndex _wLength : Word) (s : State) : Host.Outcome State Fault Refusal := ack s

/-- An unknown standard request to an endpoint, R226: acknowledged. -/
def execStdEpH2dUnknown (_bRequest : Byte) (_wValue _wIndex _wLength : Word) (s : State) : Host.Outcome State Fault Refusal :=
  ack s

/-- Any other packet, R227: acknowledged. -/
def execUnknown (_bmRequestType _bRequest : Byte) (_wValue _wIndex _wLength : Word) (s : State) :
    Host.Outcome State Fault Refusal :=
  ack s

end Sys2Proof.Machine
end

