-- ==== Sys2Proof/Machine/ControlEngine.lean ====
section
/-! DEFINITION. The Control Transfer Engine: the endpoint 0 handler's three paths (spec/42_control_engine.md). -/

namespace Sys2Proof.Machine

/-- The operation of a decoded SETUP packet, R192. -/
def runRequest (i : Instr) (s : State) : Res State :=
  match i with
  | .getDescriptorDevice wIndex wLength => execGetDescriptorDevice wIndex wLength s
  | .getDescriptorConfiguration wIndex wLength => execGetDescriptorConfiguration wIndex wLength s
  | .getDescriptorStringLanguage wIndex wLength => execGetDescriptorStringLanguage wIndex wLength s
  | .getDescriptorStringManufacturer wIndex wLength => execGetDescriptorStringManufacturer wIndex wLength s
  | .getDescriptorStringProduct wIndex wLength => execGetDescriptorStringProduct wIndex wLength s
  | .getDescriptorStringSerial wIndex wLength => execGetDescriptorStringSerial wIndex wLength s
  | .getDescriptorDeviceQualifier wIndex wLength => execGetDescriptorDeviceQualifier wIndex wLength s
  | .getDescriptorUnknown wValue wIndex wLength => execGetDescriptorUnknown wValue wIndex wLength s
  | .getStatus wValue wIndex wLength => execGetStatus wValue wIndex wLength s
  | .stdD2hUnknown bRequest wValue wIndex wLength => execStdD2hUnknown bRequest wValue wIndex wLength s
  | .setAddress wValue wIndex wLength => execSetAddress wValue wIndex wLength s
  | .setConfiguration wValue wIndex wLength => execSetConfiguration wValue wIndex wLength s
  | .stdH2dUnknown bRequest wValue wIndex wLength => execStdH2dUnknown bRequest wValue wIndex wLength s
  | .clearFeatureEndpoint wValue wIndex wLength => execClearFeatureEndpoint wValue wIndex wLength s
  | .stdEpH2dUnknown bRequest wValue wIndex wLength => execStdEpH2dUnknown bRequest wValue wIndex wLength s
  | .vendorRead recipient bRequest wValue wIndex wLength => execVendorRead recipient bRequest wValue wIndex wLength s
  | .vendorWrite recipient bRequest wValue wIndex wLength => execVendorWrite recipient bRequest wValue wIndex wLength s
  | .getLineCoding toHost wValue wIndex wLength => execGetLineCoding toHost wValue wIndex wLength s
  | .setLineCoding toHost wValue wIndex wLength => execSetLineCoding toHost wValue wIndex wLength s
  | .setControlLineState toHost wValue wIndex wLength => execSetControlLineState toHost wValue wIndex wLength s
  | .sendBreak toHost wValue wIndex wLength => execSendBreak toHost wValue wIndex wLength s
  | .classUnknown toHost bRequest wValue wIndex wLength => execClassUnknown toHost bRequest wValue wIndex wLength s
  | .unknown bmRequestType bRequest wValue wIndex wLength => execUnknown bmRequestType bRequest wValue wIndex wLength s
  | .ep0Setup => .refused .noRequest
  | .ep0Out => .refused .noRequest
  | .ep0In => .refused .noRequest
  | .irqReset => .refused .noRequest
  | .irqCtr _ => .refused .noRequest
  | .configureEndpoint _ _ _ _ _ => .refused .noRequest
  | .write _ _ => .refused .noRequest
  | .writeCommit _ _ => .refused .noRequest
  | .read _ => .refused .noRequest
  | .blockingRead _ => .refused .noRequest
  | .waitTick => .refused .noRequest
  | .waitFinish => .refused .noRequest

/-- The operation the SETUP packet in endpoint n's receive buffer selects: the fetch and decode of R192 and
spec/20_memory.md R86. -/
def fetchRequest (n : Nat) (s : State) : Instr :=
  decodeSetup s.cfg (Setup.ofBytes (s.pmaBytes (s.recAt n).rxOff.toNat 8))

/-- Complete a handler call: the value it returns, unless the request has suspended it (R192, R177). -/
def returnResult (n : Nat) (s : State) : State :=
  match s.handlerRet with
  | .suspended => s
  | .none => s.setHandlerRet (.done (setupEpilogue (s.recAt n).status))
  | .done _ => s.setHandlerRet (.done (setupEpilogue (s.recAt n).status))

/-- `setup_path(n)`, R192. -/
def setupPath (n : Nat) (s : State) : Res State :=
  if s.bytesExist (s.recAt n).rxOff.toNat 8 then
    andThen (runRequest (fetchRequest n s) (s.setHandlerRet .none)) fun s1 => .next (returnResult n s1)
  else .fault .pmaBadAccess

/-- `out_path(n)`, R195. -/
def outPath (n : Nat) (s : State) : Res State :=
  .next (s.setHandlerRet (.done ⟨mkStatus (s.recAt n).status (some .valid) (some .stall) true true, true, true⟩))

/-- The deferred address commit of the IN path, R196. -/
def commitAddress (s : State) : State :=
  if daddrAdd s.daddr = s.dev.address then s else (s.setDaddr (daddrOf s.dev.address)).setPhase .addressed

/-- `in_path(n)`, R196. -/
def inPath (n : Nat) (s : State) : Res State :=
  .next ((commitAddress s).setHandlerRet
    (.done ⟨mkStatus (s.recAt n).status (some .valid) (some .valid) false false, false, false⟩))

/-- `EP0_SETUP`, R192. -/
def execEp0Setup (s : State) : Host.Outcome State Fault Refusal := setupPath 0 s

/-- `EP0_OUT`, R195. -/
def execEp0Out (s : State) : Host.Outcome State Fault Refusal := outPath 0 s

/-- `EP0_IN`, R196. -/
def execEp0In (s : State) : Host.Outcome State Fault Refusal := inPath 0 s

/-- `ep0_handler(n)`, R190 and R191: path selection by the flag vector of spec/30_encoding.md R108 (log 19). -/
def ep0Handler (n : Nat) (s : State) : Res State :=
  match decodeFlags (flagVector (s.recAt n)) with
  | some .ep0Setup => setupPath n s
  | some .ep0Out => outPath n s
  | some .ep0In => inPath n s
  | _ => .fault .flagInvariant

end Sys2Proof.Machine
end

