-- ==== Sys2Proof/Machine/DataEndpoint.lean ====
section
/-! DEFINITION. `DATA_HANDLER`, the handler of endpoints 1..N-1 (spec/46_external_agents.md R287). -/

namespace Sys2Proof.Machine

/-- The default handler of R287: it re-arms reception after a reception and nothing after a transmission. It runs only with
exactly one of the two flags set (`dataHandler`). -/
def passthroughHandler (n : Nat) (s : State) : Res State :=
  let r := s.recAt n
  if r.rxPending then
    andThen (epRead n s) fun d =>
      .next ((s.emit (.dataRx n d)).setHandlerRet (.done ⟨mkStatus r.status (some .valid) none false false, false, false⟩))
  else
    let s1 := if r.txPending then s.emit (.dataTxDone n) else s
    .next (s1.setHandlerRet (.done ⟨mkStatus r.status none none false false, false, false⟩))

/-- The call of a handler in a state, R287. -/
def handlerCall (n : Nat) (s : State) : HandlerCall :=
  let r := s.recAt n
  ⟨n, r.txOff, r.rxOff, r.rxCount, r.status, s.draws⟩

/-- A handler's return, R287: a status built by `mk_status` from the record's, and the two reset requests. -/
def handlerReturn (call : HandlerCall) (seen : List (List Byte)) (s : State) : State :=
  let r := Config.handlerReply call seen
  s.setHandlerRet (.done ⟨mkStatus call.status r.rx r.tx r.clearRx r.clearTx, r.resetRx, r.resetTx⟩)

/-- The actions of a handler, at most `fuel` of them, each chosen after what the earlier ones gave (R287, log 17). A write is of
at most 64 bytes, as the rule requires. -/
def handlerRun (call : HandlerCall) (fuel : Nat) (seen : List (List Byte)) (s : State) : Res State :=
  match fuel with
  | 0 => .next (handlerReturn call seen s)
  | fuel + 1 =>
    match Config.handlerAct call seen with
    | none => .next (handlerReturn call seen s)
    | some .read => andThen (epRead call.endpoint s) fun d => handlerRun call fuel (seen ++ [d]) s
    | some (.write b) =>
      andThen (epWrite call.endpoint (b.take Config.maxPacket) s) fun s1 => handlerRun call fuel (seen ++ [[]]) s1
    | some (.emit e) => handlerRun call fuel (seen ++ [[]]) (s.emit (.handlerEvent call.endpoint e))

/-- Any handler within R287's contract; a call takes one draw, so that two calls are free of each other (log 17). -/
def contractHandler (n : Nat) (s : State) : Res State :=
  handlerRun (handlerCall n s) (Config.handlerBound (handlerCall n s)) [] s.bumpDraws

/-- `DATA_HANDLER(n)`, R287. A dispatch in which not exactly one of rx/tx is true faults (spec/10_state.md R25,
spec/60_exceptions.md R304 c), and the handler checks it (spec/41_interrupt_dispatcher.md R174; log 25). -/
def dataHandler (n : Nat) (s : State) : Res State :=
  if (s.recAt n).rxPending = (s.recAt n).txPending then .fault .flagInvariant
  else
    match s.cfg.dataHandler with
    | .passthrough => passthroughHandler n s
    | .unspecified => contractHandler n s

end Sys2Proof.Machine
end

