-- ==== Sys2Proof/Machine/Dispatcher.lean ====
section
/-! DEFINITION. The Interrupt Dispatcher and endpoint multiplexer (spec/41_interrupt_dispatcher.md). -/

namespace Sys2Proof.Machine

/-- `IRQ_RESET`, the bus-reset path, R172. -/
def execIrqReset (s : State) : Host.Outcome State Fault Refusal :=
  andThen (configureEndpoint 0 .control Config.ep0TxOffset Config.ep0RxOffset .control s) fun s1 =>
    .next ((((s1.setDaddr 0x80).setAddress 0).setPhase .default).setIstrReset false)

/-- `invoke(n)`, R175: the bound handler is called whatever the flags; that exactly one of rx/tx is pending is the handler's own
check (R174). -/
def invoke (n : Nat) (s : State) : Res State :=
  match (s.recAt n).handler with
  | .control => ep0Handler n s
  | .data => dataHandler n s
  | .none => .fault .noHandler

/-- The end of the correct-transfer path: commit the handler's result, or end without a commit if it is suspended (R176, R177). -/
def finishCtr (n : Nat) (s : State) : State :=
  match s.handlerRet with
  | .done r => commit n r (s.setHandlerRet .none)
  | .suspended => s.setHandlerRet .none
  | .none => s

/-- `IRQ_CTR`, the correct-transfer path for the endpoint `EP_ID` reports, R173. -/
def execIrqCtr (epId : BitVec 4) (s : State) : Host.Outcome State Fault Refusal :=
  let n := epId.toNat
  if s.configured n then
    andThen (invoke n (snapshot n (s.setHandlerRet .none))) fun s1 => .next (finishCtr n s1)
  else .fault .noHandler

/-- Whether a dispatch can start, R170. -/
def dispatchEnabled (s : State) : Bool :=
  s.fault.isNone && (s.istrReset || s.istrCtr) && (decide (s.seq = .idle) || s.cfg.reentrant)

/-- The second condition of a dispatch, evaluated after the reset path (R170): reading `EP_ID` draws its choice (log 6). -/
def serveTransfer (s : State) : Res State :=
  if s.istrCtr then execIrqCtr s.epIdField s.bumpDraws else .next s

/-- A dispatch, R170. -/
def dispatch (s : State) : Res State :=
  andThen (if s.istrReset then execIrqReset s else .next s) serveTransfer

end Sys2Proof.Machine
end

