-- ==== Sys2Proof/Machine/RegisterBridge.lean ====
section
/-! DEFINITION. The Register Bridge operations as operations of their own (spec/40_register_bridge.md). -/

namespace Sys2Proof.Machine

/-- `CONFIGURE_ENDPOINT`, R144 and R145. -/
def execConfigureEndpoint (id : Nat) (type : EpType) (txOffset rxOffset : Word) (handler : Handler) (s : State) :
    Host.Outcome State Fault Refusal :=
  configureEndpoint id type txOffset rxOffset handler s

/-- `WRITE`, R146. -/
def execWrite (n : Nat) (bytes : List Byte) (s : State) : Host.Outcome State Fault Refusal :=
  if s.configured n then epWrite n bytes s else .refused .unconfiguredEndpoint

/-- `WRITE_COMMIT`, R148. -/
def execWriteCommit (n : Nat) (bytes : List Byte) (s : State) : Host.Outcome State Fault Refusal :=
  if s.configured n then writeCommit n bytes s else .refused .unconfiguredEndpoint

/-- `READ`, R149; the bytes go to the caller's storage (log 13). -/
def execRead (n : Nat) (s : State) : Host.Outcome State Fault Refusal :=
  if s.configured n then andThen (epRead n s) fun d => .next (s.setAppBuf d) else .refused .unconfiguredEndpoint

/-- `BLOCKING_READ`, the start, R150. -/
def execBlockingRead (n : Nat) (s : State) : Host.Outcome State Fault Refusal :=
  if s.configured n then blockingReadStart n s else .refused .unconfiguredEndpoint

/-- `WAIT_TICK`, R151. -/
def execWaitTick (s : State) : Host.Outcome State Fault Refusal :=
  match s.seq with
  | .idle => .refused .notEnabled
  | .wait n b =>
    if (s.recAt n).rxPending = false ∧ 0 < b then .next (s.setSeq (.wait n (b - 1))) else .refused .notEnabled

/-- The body of `WAIT_FINISH` for `seq = WAIT(n, _)`, R152. -/
def waitFinish (n : Nat) (s : State) : Res State :=
  andThen (epRead n s) fun d =>
    let s1 := s.setScratch (d ++ s.scratch.drop d.length)
    let s2 := s1.setRec n { s1.recAt n with status := s1.eprAt n }
    let s3 := s2.setSeq .idle
    andThen (setLineCodingFinish s3) fun s4 => .next (commit n (setupEpilogue (s4.recAt n).status) s4)

/-- `WAIT_FINISH`, R152; the success case and the timeout case run the same code (R153). -/
def execWaitFinish (s : State) : Host.Outcome State Fault Refusal :=
  match s.seq with
  | .idle => .refused .notEnabled
  | .wait n b => if (s.recAt n).rxPending = true ∨ b = 0 then waitFinish n s else .refused .notEnabled

end Sys2Proof.Machine
end

