-- ==== Sys2Proof/Machine/Dispatch.lean ====
section
/-! DEFINITION. One arm per operation: its meaning. -/

namespace Sys2Proof.Machine

/-- The meaning of an operation. -/
def exec (i : Instr) (s : State) : Host.Outcome State Fault Refusal :=
  match i with
  | .getDescriptorDevice wIndex wLength => Sys2Proof.Machine.execGetDescriptorDevice wIndex wLength s
  | .getDescriptorConfiguration wIndex wLength => Sys2Proof.Machine.execGetDescriptorConfiguration wIndex wLength s
  | .getDescriptorStringLanguage wIndex wLength => Sys2Proof.Machine.execGetDescriptorStringLanguage wIndex wLength s
  | .getDescriptorStringManufacturer wIndex wLength => Sys2Proof.Machine.execGetDescriptorStringManufacturer wIndex wLength s
  | .getDescriptorStringProduct wIndex wLength => Sys2Proof.Machine.execGetDescriptorStringProduct wIndex wLength s
  | .getDescriptorStringSerial wIndex wLength => Sys2Proof.Machine.execGetDescriptorStringSerial wIndex wLength s
  | .getDescriptorDeviceQualifier wIndex wLength => Sys2Proof.Machine.execGetDescriptorDeviceQualifier wIndex wLength s
  | .getDescriptorUnknown wValue wIndex wLength => Sys2Proof.Machine.execGetDescriptorUnknown wValue wIndex wLength s
  | .getStatus wValue wIndex wLength => Sys2Proof.Machine.execGetStatus wValue wIndex wLength s
  | .stdD2hUnknown bRequest wValue wIndex wLength => Sys2Proof.Machine.execStdD2hUnknown bRequest wValue wIndex wLength s
  | .setAddress wValue wIndex wLength => Sys2Proof.Machine.execSetAddress wValue wIndex wLength s
  | .setConfiguration wValue wIndex wLength => Sys2Proof.Machine.execSetConfiguration wValue wIndex wLength s
  | .stdH2dUnknown bRequest wValue wIndex wLength => Sys2Proof.Machine.execStdH2dUnknown bRequest wValue wIndex wLength s
  | .clearFeatureEndpoint wValue wIndex wLength => Sys2Proof.Machine.execClearFeatureEndpoint wValue wIndex wLength s
  | .stdEpH2dUnknown bRequest wValue wIndex wLength => Sys2Proof.Machine.execStdEpH2dUnknown bRequest wValue wIndex wLength s
  | .vendorRead recipient bRequest wValue wIndex wLength => Sys2Proof.Machine.execVendorRead recipient bRequest wValue wIndex wLength s
  | .vendorWrite recipient bRequest wValue wIndex wLength => Sys2Proof.Machine.execVendorWrite recipient bRequest wValue wIndex wLength s
  | .getLineCoding toHost wValue wIndex wLength => Sys2Proof.Machine.execGetLineCoding toHost wValue wIndex wLength s
  | .setLineCoding toHost wValue wIndex wLength => Sys2Proof.Machine.execSetLineCoding toHost wValue wIndex wLength s
  | .setControlLineState toHost wValue wIndex wLength => Sys2Proof.Machine.execSetControlLineState toHost wValue wIndex wLength s
  | .sendBreak toHost wValue wIndex wLength => Sys2Proof.Machine.execSendBreak toHost wValue wIndex wLength s
  | .classUnknown toHost bRequest wValue wIndex wLength => Sys2Proof.Machine.execClassUnknown toHost bRequest wValue wIndex wLength s
  | .unknown bmRequestType bRequest wValue wIndex wLength => Sys2Proof.Machine.execUnknown bmRequestType bRequest wValue wIndex wLength s
  | .ep0Setup => Sys2Proof.Machine.execEp0Setup s
  | .ep0Out => Sys2Proof.Machine.execEp0Out s
  | .ep0In => Sys2Proof.Machine.execEp0In s
  | .irqReset => Sys2Proof.Machine.execIrqReset s
  | .irqCtr epId => Sys2Proof.Machine.execIrqCtr epId s
  | .configureEndpoint id type txOffset rxOffset handler => Sys2Proof.Machine.execConfigureEndpoint id type txOffset rxOffset handler s
  | .write n bytes => Sys2Proof.Machine.execWrite n bytes s
  | .writeCommit n bytes => Sys2Proof.Machine.execWriteCommit n bytes s
  | .read n => Sys2Proof.Machine.execRead n s
  | .blockingRead n => Sys2Proof.Machine.execBlockingRead n s
  | .waitTick => Sys2Proof.Machine.execWaitTick s
  | .waitFinish => Sys2Proof.Machine.execWaitFinish s

end Sys2Proof.Machine
end

