-- ==== Sys2Proof/Machine/BusSide.lean ====
section
/-! DEFINITION. The moves of the bus side (spec/46_external_agents.md R271 to R277). -/

namespace Sys2Proof.Machine

/-- `BUS_RESET`, R271. -/
def busReset (s : State) : State := (s.clearEprs.setDaddr 0).setIstrReset true

/-- Token acceptance, R272. -/
def tokenAccepted (n : Nat) (addr : BitVec 7) (s : State) : Bool :=
  !s.istrReset && daddrEf s.daddr && decide (addr = daddrAdd s.daddr) && decide (n < s.cfg.numEp) &&
  decide ((epAddr (s.eprAt n)).toNat = n)

/-- Whether an OUT or IN transaction is served at all: R272, and not on an isochronous endpoint, which is outside the contract
(spec/93_implementation_defined.md U22; log 18). -/
def transferAccepted (n : Nat) (addr : BitVec 7) (s : State) : Bool :=
  tokenAccepted n addr s && decide (epType (s.eprAt n) ≠ EpType.isochronous.code)

/-- Whether a SETUP transaction is accepted, R273. -/
def setupAccepted (addr : BitVec 7) (s : State) : Bool :=
  tokenAccepted 0 addr s && decide (epType (s.eprAt 0) = EpType.control.code) &&
  decide (statRx (s.eprAt 0) ≠ statCode .disabled) && !ctrRx (s.eprAt 0)

/-- `BUS_SETUP`, R273. -/
def busSetup (addr : BitVec 7) (packet : Setup) (s : State) : Res State :=
  if setupAccepted addr s then
    let a := (s.bt 0 .addrRx).toNat
    if s.wordsExist a 8 then
      let s1 := s.copyWords a packet.toBytes
      let s2 := s1.setBt 0 .countRx (withCount (s1.bt 0 .countRx) 8)
      .next (s2.setEpr 0 (afterSetup (s2.eprAt 0)))
    else .fault .pmaBadAccess
  else .next s

/-- The reception of an OUT transaction, R274. -/
def reception (n : Nat) (data : List Byte) (s : State) : Res State :=
  let a := (s.bt n .addrRx).toNat
  if s.wordsExist a data.length then
    let s1 := s.copyWords a data
    let s2 := s1.setBt n .countRx (withCount (s1.bt n .countRx) data.length)
    .next (s2.setEpr n (afterOut (s2.eprAt n)))
  else .fault .pmaBadAccess

/-- Whether an OUT transaction stores its data, R274; a packet above the receive capacity is outside the contract (log 18). -/
def outStores (n : Nat) (addr : BitVec 7) (pid : Bool) (data : List Byte) (s : State) : Bool :=
  transferAccepted n addr s && decide (data.length ≤ Config.rxCapacity) &&
  decide (statRx (s.eprAt n) = statCode .valid) && decide (pid = dtogRx (s.eprAt n))

/-- `BUS_OUT`, R274. -/
def busOut (n : Nat) (addr : BitVec 7) (pid : Bool) (data : List Byte) (s : State) : Res State :=
  if outStores n addr pid data s then reception n data s else .next s

/-- The transmission of an IN transaction, R275. -/
def transmission (n : Nat) (s : State) : Res State :=
  let a := (s.bt n .addrTx).toNat
  let c := (countField (s.bt n .countTx)).toNat
  if s.bytesExist a c then
    let s1 := s.emit (.wire n (dtogTx (s.eprAt n)) (s.pmaBytes a c))
    .next (s1.setEpr n (afterIn (s1.eprAt n)))
  else .fault .pmaBadAccess

/-- `BUS_IN`, R275. -/
def busIn (n : Nat) (addr : BitVec 7) (s : State) : Res State :=
  if transferAccepted n addr s then
    if statTx (s.eprAt n) = statCode .valid then transmission n s
    else if statTx (s.eprAt n) = statCode .stall then .next (s.emit (.wireStall n))
    else .next s
  else .next s

/-- What the host sees of a token, R277. It is no state; no move reads it (log 24). -/
inductive Handshake where
  | timeout | ack | nak | stall | data
  deriving DecidableEq, Repr

/-- The handshake of a direction that is not served, by its `STAT` value. -/
def statHandshake (served : Handshake) (st : BitVec 2) : Handshake :=
  if st = statCode .valid then served
  else if st = statCode .nak then .nak
  else if st = statCode .stall then .stall
  else .timeout

/-- What the host sees of a move, R277. DESIGN CHOICE (log 24), as R277 gives no answer there: `timeout` for a move that is no
token, and for a transaction outside the bus-side contract (U22), which is an OUT packet above the receive capacity or a token
for an isochronous endpoint; the move stores nothing either (log 18). -/
def hostSees (m : Move) (s : State) : Handshake :=
  match m with
  | .busSetup addr _ => if setupAccepted addr s then .ack else .timeout
  | .busOut n addr _ data =>
    if transferAccepted n addr s && decide (data.length ≤ Config.rxCapacity) then statHandshake .ack (statRx (s.eprAt n))
    else .timeout
  | .busIn n addr => if transferAccepted n addr s then statHandshake .data (statTx (s.eprAt n)) else .timeout
  | .dispatch => .timeout
  | .waitTick => .timeout
  | .waitFinish => .timeout
  | .busReset => .timeout
  | .appConfigure _ _ _ _ => .timeout
  | .appWrite _ _ => .timeout
  | .appRead _ => .timeout
  | .bench _ => .timeout

end Sys2Proof.Machine
end

