-- ==== Sys2Proof/Machine/Schedule.lean ====
section
/-! DEFINITION. When each step kind is enabled (spec/60_exceptions.md R318, spec/46_external_agents.md R280 to R283), the engine
steps as one choice, and the placing of an instruction word where the next step fetches it (log 16). -/

namespace Sys2Proof.Machine

/-- `WAIT_TICK` is enabled, R151. -/
def waitTickEnabled (s : State) : Bool :=
  match s.seq with
  | .idle => false
  | .wait n b => !(s.recAt n).rxPending && decide (0 < b)

/-- `WAIT_FINISH` is enabled, R152. -/
def waitFinishEnabled (s : State) : Bool :=
  match s.seq with
  | .idle => false
  | .wait n b => (s.recAt n).rxPending || decide (b = 0)

/-- The application runs, R280. -/
def appRuns (s : State) : Bool := decide (s.seq = .idle)

/-- `APP_CONFIGURE` is enabled, R281. -/
def appConfigureEnabled (id : Nat) (s : State) : Bool := appRuns s && decide (1 ≤ id)

/-- `APP_WRITE` is enabled, R282. -/
def appWriteEnabled (id : Nat) (s : State) : Bool :=
  appRuns s && decide (1 ≤ id) && decide (id < s.cfg.numEp) && decide ((s.recAt id).handler = .data)

/-- `APP_READ` is enabled, R283. -/
def appReadEnabled (id : Nat) (s : State) : Bool := appRuns s && s.configured id

/-- The wait step the engine takes; while `seq` is a `WAIT` exactly one of the two is enabled (R318). -/
def waitStep (s : State) : Res State :=
  if waitTickEnabled s then execWaitTick s
  else if waitFinishEnabled s then execWaitFinish s
  else .next s

/-- The engine's own next step when no move is scripted: an enabled engine step, one of two by a free choice, or none, in which
case the engine is idle and waits for a cause (R318; logs 7 and 20). -/
def engineStep (s : State) : Res State :=
  if dispatchEnabled s then
    if decide (s.seq = .idle) then dispatch s
    else if Config.drawDispatchFirst s.draws then dispatch s.bumpDraws else waitStep s.bumpDraws
  else waitStep s

/-- Bring endpoint 0 to its state after a bus reset was served, then to the register value and packet given, its transaction
recorded and nothing else pending. -/
def placeEp0 (s : State) (e : Word) (packet : List Byte) : State :=
  let s0 := { s with epr := s.epr.map fun x => x &&& 0x7F7F, fault := none, seq := .idle, istrReset := false, script := [] }
  let s1 := s0.configure 0 .control Config.ep0TxOffset Config.ep0RxOffset .control
  let s2 := (s1.copyWords Config.ep0RxOffset.toNat packet).setBt 0 .countRx (withCount rxCap64 8)
  s2.setEpr 0 e

/-- Place an interrupt status: `RESET` as its bit 10 says, and for `CTR` a completed IN transaction on the endpoint its `EP_ID`
names. -/
def placeIstr (s : State) (w : Word) : State :=
  let n := (w.extractLsb' 0 4).toNat
  let s0 := (placeEp0 s 0x6260 (List.replicate 8 0)).setIstrReset (w.getLsbD 10)
  if w.getLsbD 15 then
    if n = 0 then s0.setEpr 0 0x62E0
    else
      let s1 := s0.configure n .bulk 192 256 .data
      s1.setEpr n (s1.eprAt n ||| 0x0080)
  else s0

/-- Place a Register Bridge operation: a bench move with these bytes, and the wait or the endpoint it needs. -/
def placeBop (s : State) (code : List Byte) : State :=
  let s0 := placeEp0 s 0x6260 (List.replicate 8 0)
  let s1 := s0.setScript [.bench code]
  if code.getD 0 0 = 5 then (s1.setRec 0 { s1.recAt 0 with rxPending := false }).setSeq (.wait 0 1)
  else if code.getD 0 0 = 6 then s1.setSeq (.wait 0 0)
  else s1

/-- Place a flag vector: an `EPR[0]` whose snapshot gives it. -/
def placeFlags (s : State) (f : BitVec 3) : State :=
  let e : Word := if f = 0b101 then 0xEA60 else if f = 0b001 then 0xE260 else 0x62E0
  placeEp0 s e (List.replicate 8 0)

/-- `s` with an instruction word placed where the next step fetches its instruction (log 16), in the format `decodeTableWord`
reads it in: a SETUP packet received on endpoint 0, whose bytes beyond the word are 0, an interrupt status, an `EPR[0]` whose
snapshot gives the flag vector, or a Register Bridge operation. -/
def placeWord (s : State) (nbits w : Nat) : State :=
  let b := tableBytes nbits w
  match tableFormat nbits w with
  | some .setup => placeEp0 s 0xEA60 (b.take 8)
  | some .istr => placeIstr s (wordOf (b.getD 0 0) (b.getD 1 0))
  | some .flags => placeFlags s ((b.getD 0 0).extractLsb' 0 3)
  | some .bop => placeBop s b
  | none => s

end Sys2Proof.Machine
end

