-- ==== Sys2Proof/Machine/Step.lean ====
section
/-! DEFINITION. One step of the machine: the next move of the script, or the engine's own step (spec/60_exceptions.md R318). -/

namespace Sys2Proof.Machine

/-- A move of a script in a state whose script no longer holds it. A move that is not enabled changes nothing (log 8). -/
def runMove (m : Move) (s : State) : Host.Outcome State Fault Refusal :=
  match m with
  | .dispatch => if dispatchEnabled s then dispatch s else .next s
  | .waitTick => if waitTickEnabled s then exec .waitTick s else .next s
  | .waitFinish => if waitFinishEnabled s then exec .waitFinish s else .next s
  | .busReset => .next (busReset s)
  | .busSetup addr packet => busSetup addr packet s
  | .busOut n addr pid data => busOut n addr pid data s
  | .busIn n addr => busIn n addr s
  | .appConfigure id type tx rx => if appConfigureEnabled id s then exec (.configureEndpoint id type tx rx .data) s else .next s
  | .appWrite id data => if appWriteEnabled id s then exec (.writeCommit id data) s else .next s
  | .appRead id => if appReadEnabled id s then exec (.read id) s else .next s
  | .bench code =>
    match decode .bop s.cfg code with
    | .ok (i, _) => exec i s
    | .error why => .refused (.undecodable why)

/-- A raise ends the step in the state before it with `fault` set (R310; log 9). -/
def settle (s : State) (o : Host.Outcome State Fault Refusal) : Host.Outcome State Fault Refusal :=
  match o with
  | .next t => .next t
  | .fault x => .next (s.recordFault x)
  | .refused r => .refused r

/-- One step. Once `fault` is set the run is over (spec/60_exceptions.md R310, spec/46_external_agents.md R270). -/
def step (s : State) : Host.Outcome State Fault Refusal :=
  match s.fault with
  | some x => .fault x
  | none =>
    match s.script with
    | [] => settle s (engineStep s)
    | m :: rest => settle s (runMove m (s.setScript rest))

/-- `s` with the instruction word `w` of `nbits` bits placed where `step` fetches its next instruction (log 16). -/
def State.withFetchWord (s : State) (nbits w : Nat) : State := placeWord s nbits w

end Sys2Proof.Machine
end

