-- ==== Sys2Proof/Safety.lean ====
section
/-! DEFINITION. The terms claims are stated in: the invariant of the machine, which moves the spec has, and what an operation
that stores to packet memory leaves as it was. -/

namespace Sys2Proof.Machine

/-- The moves of spec/60_exceptions.md R318; a bench move is the model's own (log 16). -/
def Move.ofSpec (m : Move) : Bool :=
  match m with
  | .dispatch => true
  | .waitTick => true
  | .waitFinish => true
  | .busReset => true
  | .busSetup _ _ => true
  | .busOut _ _ _ _ => true
  | .busIn _ _ => true
  | .appConfigure _ _ _ _ => true
  | .appWrite _ _ => true
  | .appRead _ => true
  | .bench _ => false

/-- The views of a record lie inside packet memory, at even offsets (spec/40_register_bridge.md R145, spec/20_memory.md R79). -/
def Record.viewsFit (c : Params) (r : Record) : Prop :=
  r.txOff.toNat % 2 = 0 ∧ r.rxOff.toNat % 2 = 0 ∧ r.txOff.toNat + Config.maxPacket ≤ c.pmaSize ∧
  r.rxOff.toNat + Config.rxCapacity ≤ c.pmaSize

/-- The shape of a state: its tables and memories have their sizes, its views their places, its handlers their endpoints. It
holds also in the middle of a step. -/
structure State.Wf (s : State) : Prop where
  /-- The parameters obey R6. -/
  cfgOk : s.cfg.wf
  /-- One record per endpoint, R21. -/
  recsLength : s.recs.length = s.cfg.numEp
  /-- One control register per endpoint, R28. -/
  eprLength : s.epr.length = s.cfg.numEp
  /-- Packet memory keeps its canonical form. -/
  pmaOk : Memory.wf s.pma
  /-- Nothing is stored outside packet memory, R79. -/
  pmaInside : ∀ c ∈ s.pma, c.1 < s.cfg.pmaSize
  /-- `SCRATCH` is 64 bytes, R52. -/
  scratchLength : s.scratch.length = 64
  /-- Every record's views lie inside packet memory, R79. -/
  views : ∀ n, (s.recAt n).viewsFit s.cfg
  /-- The control engine is bound to endpoint 0 and to no other, R145. -/
  binding : ∀ n, ((s.recAt n).handler = .control → n = 0) ∧ ((s.recAt n).handler = .data → n ≠ 0)

/-- The invariant of the machine, between steps. -/
structure State.Inv (s : State) : Prop where
  /-- The state has its shape. -/
  wf : s.Wf
  /-- A wait is for endpoint 0, which is bound, within the budget, R51. -/
  waitOk : ∀ n b, s.seq = .wait n b → n = 0 ∧ b ≤ s.cfg.waitBudget ∧ (s.recAt 0).handler = .control
  /-- The script holds only moves of the spec. -/
  scriptOk : ∀ m ∈ s.script, m.ofSpec = true
  /-- No handler call is open between two steps. -/
  handlerRetOk : s.handlerRet = .none

/-- What the engine never writes to an endpoint register, spec/30_encoding.md R113, and which address it holds: the endpoint's
own, or 0 since the last bus reset (spec/46_external_agents.md R271, R272). -/
def eprFieldsOk (n : Nat) (e : Word) : Prop :=
  epType e ≠ EpType.isochronous.code ∧ epKind e = false ∧ ((epAddr e).toNat = n ∨ (epAddr e).toNat = 0)

/-- Every endpoint register is one the engine and the bus side can leave. -/
def State.EprInv (s : State) : Prop := ∀ n, n < s.cfg.numEp → eprFieldsOk n (s.eprAt n)

/-- A safe run has met no fault. -/
def State.safe (s : State) : Prop := s.fault = none

/-- The two bytes of `BT[n].COUNT_TX`. -/
def inCountTx (n a : Nat) : Prop := btAddr n .countTx ≤ a ∧ a < btAddr n .countTx + 2

/-- The eight bytes of `BT[n]`, spec/10_state.md R36. -/
def inEntry (n a : Nat) : Prop := Config.btableBase + 8 * n ≤ a ∧ a < Config.btableBase + 8 * n + 8

/-- The bytes of the whole words that hold `len` bytes from offset `a0`. -/
def inWords (a0 len a : Nat) : Prop := a0 ≤ a ∧ a < a0 + 2 * ceil2 len

/-- Whether a copy of `b` into endpoint n's transmit view is within its contract (R146, R147) and its words exist. -/
def TxFits (n : Nat) (b : List Byte) (s : State) : Prop :=
  b.length ≤ Config.maxPacket ∧ s.wordsExist (s.recAt n).txOff.toNat b.length = true

/-- `t` is `s` with `b` queued for transmission on endpoint n (R146): `COUNT_TX` is its length, the transmit view holds it, every
other byte of packet memory and every other field is as in `s`, and one padding byte is drawn when its length is odd. -/
def ReplyQueued (n : Nat) (b : List Byte) (s t : State) : Prop :=
  t = { s with pma := t.pma, draws := s.draws + b.length % 2 } ∧
  t.bt n .countTx = BitVec.ofNat 16 b.length ∧
  (∀ i, i < b.length → ¬ inCountTx n ((s.recAt n).txOff.toNat + i) →
    t.pmaByte ((s.recAt n).txOff.toNat + i) = b.getD i 0) ∧
  (∀ a, ¬ inWords (s.recAt n).txOff.toNat b.length a → ¬ inCountTx n a → t.pmaByte a = s.pmaByte a)

/-- The fields an endpoint register is brought to: receive and transmit state, toggles, completion flags, with type, kind,
address and `SETUP` as in `old`. -/
def EprBecomes (e old : Word) (rx tx : BitVec 2) (dRx dTx cRx cTx : Bool) : Prop :=
  statRx e = rx ∧ statTx e = tx ∧ dtogRx e = dRx ∧ dtogTx e = dTx ∧ ctrRx e = cRx ∧ ctrTx e = cTx ∧
  setupBit e = setupBit old ∧ epType e = epType old ∧ epKind e = epKind old ∧ epAddr e = epAddr old

/-- A `STAT` field after a write asked for `want`: kept, or the wanted state (spec/40_register_bridge.md R141). -/
def statOr (kept : BitVec 2) (want : Option Stat) : BitVec 2 :=
  match want with
  | none => kept
  | some st => statCode st

/-- The arguments `configure_endpoint` accepts for an endpoint of the table, spec/40_register_bridge.md R145. -/
def Acceptable (c : Params) (id : Nat) (ty : EpType) (tx rx : Word) (h : Handler) : Prop :=
  ty ≠ .isochronous ∧ tx.toNat % 2 = 0 ∧ rx.toNat % 2 = 0 ∧ tx.toNat + 64 ≤ c.pmaSize ∧ rx.toNat + 64 ≤ c.pmaSize ∧
  (id = 0 → h = .control) ∧ (id ≠ 0 → h = .data)

/-- `t` is `s` with endpoint `id` configured (spec/40_register_bridge.md R144): its record's binding, its control register at
the known value, its descriptor entry; nothing else differs. -/
def ConfiguredAs (id : Nat) (ty : EpType) (tx rx : Word) (h : Handler) (s t : State) : Prop :=
  t = { s with recs := s.recs.set id { s.recAt id with handler := h, txOff := tx, rxOff := rx },
               epr := s.epr.set id (t.eprAt id), pma := t.pma } ∧
  statRx (t.eprAt id) = statCode .valid ∧ statTx (t.eprAt id) = statCode .nak ∧
  dtogRx (t.eprAt id) = false ∧ dtogTx (t.eprAt id) = false ∧ ctrRx (t.eprAt id) = false ∧ ctrTx (t.eprAt id) = false ∧
  epType (t.eprAt id) = ty.code ∧ epKind (t.eprAt id) = false ∧ epAddr (t.eprAt id) = BitVec.ofNat 4 id ∧
  setupBit (t.eprAt id) = setupBit (s.eprAt id) ∧
  t.bt id .addrTx = tx ∧ t.bt id .countTx = 0 ∧ t.bt id .addrRx = rx ∧ t.bt id .countRx = 0x8400 ∧
  (∀ a, ¬ inEntry id a → t.pmaByte a = s.pmaByte a)

/-- `t` is `s` with a wait for endpoint n started (spec/40_register_bridge.md R150): the polled flag and `SCRATCH` clear, the
register written, `seq` waiting with the whole budget; nothing else differs. -/
def WaitStarted (n : Nat) (s t : State) : Prop :=
  t = { s with recs := s.recs.set n { s.recAt n with rxPending := false }, epr := s.epr.set n (t.eprAt n),
               scratch := List.replicate 64 0, seq := .wait n s.cfg.waitBudget } ∧
  t.eprAt n = regWrite (s.eprAt n) (mkStatus (s.recAt n).status (some .valid) (some .nak) false false &&& 0x7F7F) ∧
  ctrRx (t.eprAt n) = false ∧ ctrTx (t.eprAt n) = false ∧ dtogRx (t.eprAt n) = dtogRx (s.eprAt n) ∧
  dtogTx (t.eprAt n) = dtogTx (s.eprAt n) ∧ setupBit (t.eprAt n) = setupBit (s.eprAt n) ∧
  (statRx (s.recAt n).status = statRx (s.eprAt n) → statRx (t.eprAt n) = statCode .valid) ∧
  (statTx (s.recAt n).status = statTx (s.eprAt n) → statTx (t.eprAt n) = statCode .nak)

/-- `k` iterations of the busy-wait. -/
def ticks (k : Nat) (s : State) : Res State :=
  match k with
  | 0 => .next s
  | k + 1 => andThen (exec .waitTick s) (ticks k)

/-- The descriptors of the store, R46. -/
def descriptors (d : DescStore) : List (List Byte) :=
  [d.device, d.configuration, d.stringLanguage, d.stringManufacturer, d.stringProduct, d.stringSerial, d.deviceQualifier]

/-- The SETUP packet in endpoint 0's receive buffer, spec/10_state.md R44. -/
def State.packet (s : State) : Setup := Setup.ofBytes (s.pmaBytes (s.recAt 0).rxOff.toNat 8)

/-- No reply of the store to a request of this length is above 64 bytes (spec/46_external_agents.md R285). -/
def RepliesFit (c : Params) (wLength : Word) : Prop :=
  wLength.toNat ≤ Config.maxPacket ∨ ∀ d ∈ descriptors c.desc, d.length ≤ Config.maxPacket

/-- The bus side acts on a token for endpoint n at bus address `addr`, spec/46_external_agents.md R272. -/
def Accepts (n : Nat) (addr : BitVec 7) (s : State) : Prop :=
  s.istrReset = false ∧ daddrEf s.daddr = true ∧ addr = daddrAdd s.daddr ∧ n < s.cfg.numEp ∧ (epAddr (s.eprAt n)).toNat = n

/-- The two bytes of `BT[n].COUNT_RX`. -/
def inCountRx (n a : Nat) : Prop := btAddr n .countRx ≤ a ∧ a < btAddr n .countRx + 2

/-- The moves of the bus side. -/
def Move.ofBus (m : Move) : Bool :=
  match m with
  | .busReset => true
  | .busSetup _ _ => true
  | .busOut _ _ _ _ => true
  | .busIn _ _ => true
  | .dispatch => false
  | .waitTick => false
  | .waitFinish => false
  | .appConfigure _ _ _ _ => false
  | .appWrite _ _ => false
  | .appRead _ => false
  | .bench _ => false

/-- `t` is `s` after the bus side stored `b` at offset `a` as a reception on endpoint n (spec/46_external_agents.md R273, R274):
the bytes, the count with the capacity bits kept, endpoint n's register; nothing else differs. -/
def Received (n a : Nat) (b : List Byte) (s t : State) : Prop :=
  t = { s with script := t.script, pma := t.pma, epr := s.epr.set n (t.eprAt n), draws := s.draws + b.length % 2 } ∧
  (∀ i, i < b.length → ¬ inCountRx n (a + i) → t.pmaByte (a + i) = b.getD i 0) ∧
  (∀ x, ¬ inWords a b.length x → ¬ inCountRx n x → t.pmaByte x = s.pmaByte x) ∧
  (countField (t.bt n .countRx)).toNat = b.length ∧
  ((∀ x, inCountRx n x → ¬ inWords a b.length x) → t.bt n .countRx &&& 0xFC00 = s.bt n .countRx &&& 0xFC00)

/-- An endpoint without handler has a cleared control register, so no token is served on it. -/
def State.Bound (s : State) : Prop := ∀ n, (s.recAt n).handler = .none → s.eprAt n = 0

/-- The changes of `DEV` and `DADDR` a step may make, spec/45_device_state.md R264 with the bus side's reset (R271): none; a
bus reset on the wire; the reset path; SET_ADDRESS, SET_CONFIGURATION and the address commit, each from the completion that
endpoint 0 has pending and, for the first two, the packet it holds. -/
def DevStep (s t : State) : Prop :=
  (t.dev = s.dev ∧ t.daddr = s.daddr) ∨
  (s.script.head? = some .busReset ∧ t.dev = s.dev ∧ t.daddr = 0) ∨
  (s.istrReset = true ∧ t.dev = ⟨0, .default⟩ ∧ t.daddr = 0x80) ∨
  (ctrRx (s.eprAt 0) = true ∧ setupBit (s.eprAt 0) = true ∧ t.daddr = s.daddr ∧
    s.packet.bmRequestType = 0x00 ∧ s.packet.bRequest = 0x05 ∧
    t.dev = { s.dev with address := s.packet.wValue.extractLsb' 0 7 }) ∨
  (ctrRx (s.eprAt 0) = true ∧ setupBit (s.eprAt 0) = true ∧ t.daddr = s.daddr ∧
    s.packet.bmRequestType = 0x00 ∧ s.packet.bRequest = 0x09 ∧ t.dev = { s.dev with phase := .configured }) ∨
  (ctrTx (s.eprAt 0) = true ∧ ctrRx (s.eprAt 0) = false ∧ daddrAdd s.daddr ≠ s.dev.address ∧
    t.daddr = 0x80 ||| s.dev.address.zeroExtend 8 ∧ t.dev = { s.dev with phase := .addressed })

/-- The tables of two states have the same sizes and differ at most in endpoint n's control register and record. -/
def OnlyEp (n : Nat) (s t : State) : Prop :=
  t.epr.length = s.epr.length ∧ t.recs.length = s.recs.length ∧
  (∀ m, m ≠ n → t.eprAt m = s.eprAt m ∧ t.recAt m = s.recAt m)

end Sys2Proof.Machine
end

