-- ==== Sys2Proof/Certificates/Slice0/Obligations.lean ====
section
/-! DEFINITION. The statements for the provers, each from numbered rules of spec/. `State.Wf`, `State.Inv`, `State.EprInv` and
`State.Bound` are invariants of the model: `PowerUpMeetsInvariants` and the `Keeps` statements are about them. -/

section Statements

open Sys2Proof Sys2Proof.Machine

/-! ### Endpoint control registers -/

/-- spec/10_state.md R30: the write classes of `EPR[n]`. -/
def Obligations.RegWriteFollowsWriteClasses : Prop :=
  ∀ cur w : Word,
    epType (regWrite cur w) = epType w ∧ epKind (regWrite cur w) = epKind w ∧ epAddr (regWrite cur w) = epAddr w ∧
    statRx (regWrite cur w) = statRx cur ^^^ statRx w ∧ statTx (regWrite cur w) = statTx cur ^^^ statTx w ∧
    dtogRx (regWrite cur w) = (dtogRx cur ^^ dtogRx w) ∧ dtogTx (regWrite cur w) = (dtogTx cur ^^ dtogTx w) ∧
    ctrRx (regWrite cur w) = (ctrRx cur && ctrRx w) ∧ ctrTx (regWrite cur w) = (ctrTx cur && ctrTx w) ∧
    setupBit (regWrite cur w) = setupBit cur

/-- spec/40_register_bridge.md R141, R142: a word of `mk_status`, written to a register that still holds the snapshot in its
toggle-type fields, brings it to the wanted states and keeps what was not asked for. -/
def Obligations.MkStatusReachesWantedStates : Prop :=
  ∀ (s cur : Word) (rx tx : Option Stat) (rrx rtx : Bool),
    statRx cur = statRx s → statTx cur = statTx s → dtogRx cur = dtogRx s → dtogTx cur = dtogTx s →
    statRx (regWrite cur (mkStatus s rx tx rrx rtx)) = statOr (statRx cur) rx ∧
    statTx (regWrite cur (mkStatus s rx tx rrx rtx)) = statOr (statTx cur) tx ∧
    dtogRx (regWrite cur (mkStatus s rx tx rrx rtx)) = (dtogRx cur && !rrx) ∧
    dtogTx (regWrite cur (mkStatus s rx tx rrx rtx)) = (dtogTx cur && !rtx) ∧
    ctrRx (regWrite cur (mkStatus s rx tx rrx rtx)) = (ctrRx cur && ctrRx s) ∧
    ctrTx (regWrite cur (mkStatus s rx tx rrx rtx)) = (ctrTx cur && ctrTx s) ∧
    setupBit (regWrite cur (mkStatus s rx tx rrx rtx)) = setupBit cur ∧
    epType (regWrite cur (mkStatus s rx tx rrx rtx)) = epType s ∧ epKind (regWrite cur (mkStatus s rx tx rrx rtx)) = epKind s ∧
    epAddr (regWrite cur (mkStatus s rx tx rrx rtx)) = epAddr s

/-- spec/41_interrupt_dispatcher.md R176: the commit clears both completion flags, keeps each toggle bit unless its reset was
requested and granted, and gives each `STAT` field the state the handler asked for. -/
def Obligations.CommitWritesBack : Prop :=
  ∀ (s : State) (n : Nat) (r : HandlerResult), n < s.epr.length →
    commit n r s = { s with epr := s.epr.set n ((commit n r s).eprAt n) } ∧
    ctrRx ((commit n r s).eprAt n) = false ∧ ctrTx ((commit n r s).eprAt n) = false ∧
    epType ((commit n r s).eprAt n) = epType r.status ∧ epKind ((commit n r s).eprAt n) = epKind r.status ∧
    epAddr ((commit n r s).eprAt n) = epAddr r.status ∧ setupBit ((commit n r s).eprAt n) = setupBit (s.eprAt n) ∧
    statRx ((commit n r s).eprAt n) = statRx (s.eprAt n) ^^^ statRx r.status ∧
    statTx ((commit n r s).eprAt n) = statTx (s.eprAt n) ^^^ statTx r.status ∧
    dtogRx ((commit n r s).eprAt n) = (dtogRx (s.eprAt n) ^^ (r.resetRx && dtogRx r.status)) ∧
    dtogTx ((commit n r s).eprAt n) = (dtogTx (s.eprAt n) ^^ (r.resetTx && dtogTx r.status)) ∧
    ∀ (rx tx : Option Stat) (rrx rtx : Bool), r.status = mkStatus (s.eprAt n) rx tx rrx rtx →
      EprBecomes ((commit n r s).eprAt n) (s.eprAt n) (statOr (statRx (s.eprAt n)) rx) (statOr (statTx (s.eprAt n)) tx)
        (dtogRx (s.eprAt n) && !(r.resetRx && rrx)) (dtogTx (s.eprAt n) && !(r.resetTx && rtx)) false false

/-- spec/41_interrupt_dispatcher.md R174: the snapshot records the completion of the served endpoint and touches only its
record. -/
def Obligations.SnapshotRecordsTheCompletion : Prop :=
  ∀ (s : State) (n : Nat), n < s.recs.length →
    snapshot n s = { s with recs := s.recs.set n ((snapshot n s).recAt n) } ∧
    (snapshot n s).recAt n =
      { s.recAt n with
        rxCount := (s.bt n .countRx).extractLsb' 0 10
        status := s.eprAt n
        rxPending := (s.eprAt n).getLsbD 15
        txPending := (s.eprAt n).getLsbD 7
        setupPending := (s.eprAt n).getLsbD 11 && (s.eprAt n).getLsbD 15 }

/-! ### Register Bridge operations -/

/-- spec/40_register_bridge.md R144: `configure_endpoint` brings the endpoint to its known value, changes nothing for an id
outside the table, and called twice leaves what one call leaves. -/
def Obligations.ConfigureEndpointSetsKnownState : Prop :=
  ∀ (s : State) (id : Nat) (ty : EpType) (tx rx : Word) (h : Handler), s.Wf →
    (s.cfg.numEp ≤ id → exec (.configureEndpoint id ty tx rx h) s = .next s) ∧
    (id < s.cfg.numEp → Acceptable s.cfg id ty tx rx h →
      ∃ t, exec (.configureEndpoint id ty tx rx h) s = .next t ∧ ConfiguredAs id ty tx rx h s t ∧
        exec (.configureEndpoint id ty tx rx h) t = .next t)

/-- spec/40_register_bridge.md R145: exactly these arguments raise `BadConfigure`. -/
def Obligations.ConfigureEndpointRefusesBadArguments : Prop :=
  ∀ (s : State) (id : Nat) (ty : EpType) (tx rx : Word) (h : Handler), id < s.cfg.numEp →
    (exec (.configureEndpoint id ty tx rx h) s = .fault .badConfigure ↔
      ty = .isochronous ∨ tx.toNat % 2 = 1 ∨ rx.toNat % 2 = 1 ∨ s.cfg.pmaSize < tx.toNat + 64 ∨
      s.cfg.pmaSize < rx.toNat + 64 ∨ h = .none ∨ (id = 0 ∧ h ≠ .control) ∨ (0 < id ∧ h = .control))

/-- spec/40_register_bridge.md R146, R147: `write` copies the bytes, sets `COUNT_TX` to the exact length, and touches nothing
else; more than 64 bytes fault. -/
def Obligations.WriteQueuesBytes : Prop :=
  ∀ (s : State) (n : Nat) (b : List Byte), s.Wf → n < s.cfg.numEp → (s.recAt n).handler ≠ .none →
    (b.length ≤ 64 → ∃ t, exec (.write n b) s = .next t ∧ ReplyQueued n b s t) ∧
    (64 < b.length → exec (.write n b) s = .fault .writeTooLong)

/-- spec/40_register_bridge.md R148: `write_commit` queues the bytes and arms the endpoint NAK-receive, VALID-transmit with
both completion flags and both toggles as they were. -/
def Obligations.WriteCommitArmsTransmit : Prop :=
  ∀ (s : State) (n : Nat) (b : List Byte), s.Wf → n < s.cfg.numEp → (s.recAt n).handler ≠ .none →
    (b.length ≤ 64 → ∃ u t, ReplyQueued n b s u ∧ exec (.writeCommit n b) s = .next t ∧
      t = { u with epr := s.epr.set n (t.eprAt n) } ∧
      EprBecomes (t.eprAt n) (s.eprAt n) (statCode .nak) (statCode .valid) (dtogRx (s.eprAt n)) (dtogTx (s.eprAt n))
        (ctrRx (s.eprAt n)) (ctrTx (s.eprAt n))) ∧
    (64 < b.length → exec (.writeCommit n b) s = .fault .writeTooLong)

/-- spec/40_register_bridge.md R149: `read` gives the `rx_count` bytes of the receive view, the snapshotted count, and touches
nothing (the caller's storage is `appBuf`); a count above 64 faults. -/
def Obligations.ReadReturnsReceivedBytes : Prop :=
  ∀ (s : State) (n : Nat), s.Wf → n < s.cfg.numEp → (s.recAt n).handler ≠ .none →
    ((s.recAt n).rxCount.toNat ≤ 64 → ∃ d : List Byte, d.length = (s.recAt n).rxCount.toNat ∧
      (∀ i, i < d.length → d.getD i 0 = s.pmaByte ((s.recAt n).rxOff.toNat + i)) ∧
      exec (.read n) s = .next { s with appBuf := d }) ∧
    (64 < (s.recAt n).rxCount.toNat → exec (.read n) s = .fault .readTooLong)

/-- The model's choice (log 11), no rule: a Register Bridge operation on an endpoint outside R146's operands is refused. -/
def Obligations.UnconfiguredEndpointIsRefused : Prop :=
  ∀ (s : State) (n : Nat) (b : List Byte), (s.cfg.numEp ≤ n ∨ (s.recAt n).handler = .none) →
    exec (.write n b) s = .refused .unconfiguredEndpoint ∧ exec (.writeCommit n b) s = .refused .unconfiguredEndpoint ∧
    exec (.read n) s = .refused .unconfiguredEndpoint ∧ exec (.blockingRead n) s = .refused .unconfiguredEndpoint

/-- spec/40_register_bridge.md R150: the start of `blocking_read`, and its fault while a wait is in progress. -/
def Obligations.BlockingReadStartsWait : Prop :=
  ∀ (s : State) (n : Nat), s.Wf → n < s.cfg.numEp → (s.recAt n).handler ≠ .none →
    (s.seq = .idle → ∃ t, exec (.blockingRead n) s = .next t ∧ WaitStarted n s t) ∧
    (s.seq ≠ .idle → exec (.blockingRead n) s = .fault .nestedWait)

/-- spec/44_class_vendor_requests.md R244: a class request 0x20 starts the wait on endpoint 0 and returns `suspended` (to the
model's `handlerRet`, log 12). -/
def Obligations.SetLineCodingSuspends : Prop :=
  ∀ (s : State) (p : Setup) (toHost : Bool), s.Wf → p.bmRequestType = classType toHost → p.bRequest = 0x20 →
    decodeSetup s.cfg p = .setLineCoding toHost p.wValue p.wIndex p.wLength ∧
    (s.seq = .idle → ∃ t, exec (.setLineCoding toHost p.wValue p.wIndex p.wLength) s =
        .next { t with handlerRet := .suspended } ∧ WaitStarted 0 s t) ∧
    (s.seq ≠ .idle → exec (.setLineCoding toHost p.wValue p.wIndex p.wLength) s = .fault .nestedWait)

/-- spec/40_register_bridge.md R151, spec/60_exceptions.md R318: one iteration of the busy-wait; not enabled, it does not occur;
and without re-entrancy no dispatch is enabled during a wait. That a step not enabled answers `notEnabled`, and that a scripted
one is taken off the script with no other effect, is the model's choice (log 8). -/
def Obligations.WaitTickCountsDown : Prop :=
  ∀ (s : State) (n b : Nat), s.seq = .wait n b →
    ((s.recAt n).rxPending = false → 0 < b → exec .waitTick s = .next { s with seq := .wait n (b - 1) }) ∧
    ((s.recAt n).rxPending = true ∨ b = 0 → exec .waitTick s = .refused .notEnabled) ∧
    (s.cfg.reentrant = false → s.fault = none → ∀ rest, s.script = .dispatch :: rest →
      step s = .next { s with script := rest })

/-- spec/40_register_bridge.md R152, spec/44_class_vendor_requests.md R245: the end of the wait reads the `rx_count` bytes into
`SCRATCH`, refreshes the shadow, takes the record, reports it, queues the acknowledgement and commits NAK-receive,
VALID-transmit; a count above 64 faults. Not enabled, it does not occur (spec/60_exceptions.md R318); that it then answers
`notEnabled` is the model's choice (log 8). -/
def Obligations.WaitFinishTakesRecord : Prop :=
  ∀ (s : State) (n b : Nat), s.Wf → n < s.cfg.numEp → s.seq = .wait n b →
    ((s.recAt n).rxPending = false → 0 < b → exec .waitFinish s = .refused .notEnabled) ∧
    ((s.recAt n).rxPending = true ∨ b = 0 → (s.recAt n).rxCount.toNat ≤ 64 →
      ∃ (d : List Byte) (l : LineCoding) (u t : State),
      d.length = (s.recAt n).rxCount.toNat ∧
      (∀ i, i < d.length → d.getD i 0 = s.pmaByte ((s.recAt n).rxOff.toNat + i)) ∧
      l.toBytes = (d ++ s.scratch.drop d.length).take 7 ∧
      ReplyQueued 0 []
        { s with
          scratch := d ++ s.scratch.drop d.length
          recs := s.recs.set n { s.recAt n with status := s.eprAt n }
          seq := .idle
          lc := l
          out := s.out ++ [.onLineCodingChanged ((d ++ s.scratch.drop d.length).take 7)] } u ∧
      exec .waitFinish s = .next t ∧ t = { u with epr := s.epr.set n (t.eprAt n) } ∧
      EprBecomes (t.eprAt n) (s.eprAt n) (statCode .nak) (statCode .valid) (dtogRx (s.eprAt n)) (dtogTx (s.eprAt n))
        false false) ∧
    ((s.recAt n).rxPending = true ∨ b = 0 → 64 < (s.recAt n).rxCount.toNat → exec .waitFinish s = .fault .readTooLong)

/-- spec/60_exceptions.md R318: while `seq` is a `WAIT` exactly one of the two wait steps is enabled, so a wait nobody ends
comes to its finish after its budget's ticks, which change nothing else. -/
def Obligations.WaitEndsWithinBudget : Prop :=
  ∀ (s : State) (n b : Nat), s.seq = .wait n b →
    (exec .waitTick s = .refused .notEnabled ↔ exec .waitFinish s ≠ .refused .notEnabled) ∧
    ((s.recAt n).rxPending = false →
      ticks b s = .next { s with seq := .wait n 0 } ∧
      exec .waitFinish { s with seq := .wait n 0 } ≠ .refused .notEnabled)

/-! ### Requests -/

/-- spec/43_standard_requests.md R219, R221, R224 to R227, spec/44_class_vendor_requests.md R242, R248: the packets with these
patterns select these operations, and each queues a zero-length acknowledgement and does nothing else, in every state. -/
def Obligations.RequestsWithoutDataAreAcknowledged : Prop :=
  ∀ (s : State) (p : Setup) (i : Instr), s.cfg.wf →
    ((p.bmRequestType = 0x80 ∧ p.bRequest = 0x06 ∧ p.wValue ∉ descriptorSelectors s.cfg ∧
        i = .getDescriptorUnknown p.wValue p.wIndex p.wLength) ∨
     (p.bmRequestType = 0x80 ∧ p.bRequest ≠ 0x00 ∧ p.bRequest ≠ 0x06 ∧
        i = .stdD2hUnknown p.bRequest p.wValue p.wIndex p.wLength) ∨
     (p.bmRequestType = 0x00 ∧ p.bRequest ≠ 0x05 ∧ p.bRequest ≠ 0x09 ∧
        i = .stdH2dUnknown p.bRequest p.wValue p.wIndex p.wLength) ∨
     (p.bmRequestType = 0x02 ∧ p.bRequest = 0x01 ∧ i = .clearFeatureEndpoint p.wValue p.wIndex p.wLength) ∨
     (p.bmRequestType = 0x02 ∧ p.bRequest ≠ 0x01 ∧ i = .stdEpH2dUnknown p.bRequest p.wValue p.wIndex p.wLength) ∨
     (p.bmRequestType &&& 0xE0 = 0x40 ∧
        i = .vendorWrite (p.bmRequestType.extractLsb' 0 5) p.bRequest p.wValue p.wIndex p.wLength) ∨
     (∃ toHost, p.bmRequestType = classType toHost ∧ p.bRequest ∉ [(0x20 : Byte), 0x21, 0x22, 0x23] ∧
        i = .classUnknown toHost p.bRequest p.wValue p.wIndex p.wLength) ∨
     (p.bmRequestType ∉ [(0x80 : Byte), 0x00, 0x02] ∧ p.bmRequestType &&& 0x60 ≠ 0x40 ∧ p.bmRequestType &&& 0x7F ≠ 0x21 ∧
        i = .unknown p.bmRequestType p.bRequest p.wValue p.wIndex p.wLength)) →
    decodeSetup s.cfg p = i ∧ ∃ t, exec i s = .next t ∧ ReplyQueued 0 [] s t

/-- spec/43_standard_requests.md R210, R212 to R218: a GET_DESCRIPTOR packet with this `wValue` selects this operation; its reply
is the first `min(wLength, len)` bytes of the descriptor, whatever `wIndex`, and nothing else changes; a reply above 64 bytes
faults. -/
def Obligations.DescriptorRepliesAreClamped : Prop :=
  ∀ (s : State) (p : Setup), s.Wf → p.bmRequestType = 0x80 → p.bRequest = 0x06 →
    ∀ r ∈ [((0x0100 : Word), Instr.getDescriptorDevice p.wIndex p.wLength, s.cfg.desc.device),
           (0x0200, .getDescriptorConfiguration p.wIndex p.wLength, s.cfg.desc.configuration),
           (0x0300, .getDescriptorStringLanguage p.wIndex p.wLength, s.cfg.desc.stringLanguage),
           (0x0300 + s.cfg.idxManufacturer.zeroExtend 16, .getDescriptorStringManufacturer p.wIndex p.wLength,
             s.cfg.desc.stringManufacturer),
           (0x0300 + s.cfg.idxProduct.zeroExtend 16, .getDescriptorStringProduct p.wIndex p.wLength,
             s.cfg.desc.stringProduct),
           (0x0300 + s.cfg.idxSerial.zeroExtend 16, .getDescriptorStringSerial p.wIndex p.wLength, s.cfg.desc.stringSerial),
           (0x0600, .getDescriptorDeviceQualifier p.wIndex p.wLength, s.cfg.desc.deviceQualifier)],
      (p.wValue = r.1 → decodeSetup s.cfg p = r.2.1) ∧
      (min p.wLength.toNat r.2.2.length ≤ 64 →
        ∃ t, exec r.2.1 s = .next t ∧ ReplyQueued 0 (r.2.2.take (min p.wLength.toNat r.2.2.length)) s t) ∧
      (64 < min p.wLength.toNat r.2.2.length → exec r.2.1 s = .fault .writeTooLong)

/-- spec/43_standard_requests.md R220, spec/44_class_vendor_requests.md R241, R243: the packets of the three requests with a
reply of fixed length, and that reply, whatever `wLength`. -/
def Obligations.FixedRepliesAreNotClamped : Prop :=
  ∀ (s : State) (p : Setup), s.Wf →
    (p.bmRequestType = 0x80 → p.bRequest = 0x00 →
      decodeSetup s.cfg p = .getStatus p.wValue p.wIndex p.wLength ∧
      ∃ t, exec (.getStatus p.wValue p.wIndex p.wLength) s = .next t ∧ ReplyQueued 0 [0x00, 0x00] s t) ∧
    (p.bmRequestType &&& 0xE0 = 0xC0 →
      decodeSetup s.cfg p = .vendorRead (p.bmRequestType.extractLsb' 0 5) p.bRequest p.wValue p.wIndex p.wLength ∧
      ∃ t, exec (.vendorRead (p.bmRequestType.extractLsb' 0 5) p.bRequest p.wValue p.wIndex p.wLength) s = .next t ∧
        ReplyQueued 0 [s.cfg.vendorReadByte] s t) ∧
    (∀ toHost : Bool, p.bmRequestType = classType toHost → p.bRequest = 0x21 →
      decodeSetup s.cfg p = .getLineCoding toHost p.wValue p.wIndex p.wLength ∧
      ∃ t, exec (.getLineCoding toHost p.wValue p.wIndex p.wLength) s = .next t ∧ ReplyQueued 0 s.lc.toBytes s t ∧
        (s.lc = .default → ReplyQueued 0 [0x00, 0xC2, 0x01, 0x00, 0x00, 0x00, 0x08] s t))

/-- spec/43_standard_requests.md R222, R223: the packets of SET_ADDRESS and SET_CONFIGURATION; the first latches `wValue[6:0]` in
`DEV.address` and nothing else, the second sets the phase and nothing else; each queues the acknowledgement. -/
def Obligations.SetAddressAndSetConfiguration : Prop :=
  ∀ (s : State) (p : Setup), p.bmRequestType = 0x00 →
    (p.bRequest = 0x05 → decodeSetup s.cfg p = .setAddress p.wValue p.wIndex p.wLength ∧
      ∃ t, exec (.setAddress p.wValue p.wIndex p.wLength) s = .next t ∧
        ReplyQueued 0 [] { s with dev := { s.dev with address := p.wValue.extractLsb' 0 7 } } t) ∧
    (p.bRequest = 0x09 → decodeSetup s.cfg p = .setConfiguration p.wValue p.wIndex p.wLength ∧
      ∃ t, exec (.setConfiguration p.wValue p.wIndex p.wLength) s = .next t ∧
        ReplyQueued 0 [] { s with dev := { s.dev with phase := .configured } } t)

/-- spec/43_standard_requests.md R222 (its property), spec/70_reset_and_hazards.md R355: the new address is not in the hardware
register before the status stage's IN path, and is after it, with `Addressed` if it differs from the old one. -/
def Obligations.AddressIsCommittedByTheStatusStage : Prop :=
  ∀ (s : State) (wValue wIndex wLength : Word), ∃ t u,
    exec (.setAddress wValue wIndex wLength) s = .next t ∧ t.daddr = s.daddr ∧ t.dev.phase = s.dev.phase ∧
    exec .ep0In t = .next u ∧ daddrAdd u.daddr = wValue.extractLsb' 0 7 ∧
    (daddrAdd s.daddr ≠ wValue.extractLsb' 0 7 → daddrEf u.daddr = true ∧ u.dev.phase = .addressed) ∧
    (daddrAdd s.daddr = wValue.extractLsb' 0 7 → u.daddr = s.daddr ∧ u.dev.phase = s.dev.phase)

/-- spec/44_class_vendor_requests.md R246, R247: the packets of the two requests surfaced to the application, and their event. -/
def Obligations.LineStateAndBreakReachTheApplication : Prop :=
  ∀ (s : State) (p : Setup) (toHost : Bool), p.bmRequestType = classType toHost →
    (p.bRequest = 0x22 → decodeSetup s.cfg p = .setControlLineState toHost p.wValue p.wIndex p.wLength ∧
      ∃ t, exec (.setControlLineState toHost p.wValue p.wIndex p.wLength) s = .next t ∧
        ReplyQueued 0 [] { s with out := s.out ++ [.onControlLineState p.wValue] } t) ∧
    (p.bRequest = 0x23 → decodeSetup s.cfg p = .sendBreak toHost p.wValue p.wIndex p.wLength ∧
      ∃ t, exec (.sendBreak toHost p.wValue p.wIndex p.wLength) s = .next t ∧
        ReplyQueued 0 [] { s with out := s.out ++ [.onBreak] } t)

/-- spec/10_state.md R43: the seven bytes of the Line Coding, and that storing and returning them is verbatim. -/
def Obligations.LineCodingBytesAreVerbatim : Prop :=
  (∀ l : LineCoding, l.toBytes.length = 7 ∧ LineCoding.ofBytes l.toBytes = l ∧
    (l.toBytes.getD 0 0).toNat + 256 * (l.toBytes.getD 1 0).toNat + 65536 * (l.toBytes.getD 2 0).toNat +
      16777216 * (l.toBytes.getD 3 0).toNat = l.rate.toNat ∧
    l.toBytes.getD 4 0 = l.stopBits ∧ l.toBytes.getD 5 0 = l.parity ∧ l.toBytes.getD 6 0 = l.dataBits) ∧
  (∀ b : List Byte, 7 ≤ b.length → (LineCoding.ofBytes b).toBytes = b.take 7) ∧
  LineCoding.default.toBytes = [0x00, 0xC2, 0x01, 0x00, 0x00, 0x00, 0x08]

/-- spec/44_class_vendor_requests.md R245 (its property), R243: GET_LINE_CODING after a SET_LINE_CODING whose seven bytes have
arrived returns exactly those bytes, and the application has been told them. -/
def Obligations.LineCodingRoundTrip : Prop :=
  ∀ (s : State) (budget : Nat) (b : List Byte), s.Wf → s.seq = .wait 0 budget → (s.recAt 0).rxPending = true →
    b.length = 7 → (s.recAt 0).rxCount = 7 → (∀ i, i < 7 → s.pmaByte ((s.recAt 0).rxOff.toNat + i) = b.getD i 0) →
    ∃ t, exec .waitFinish s = .next t ∧ t.seq = .idle ∧ t.out = s.out ++ [.onLineCodingChanged b] ∧
      ∀ (toHost : Bool) (wValue wIndex wLength : Word),
        ∃ u, exec (.getLineCoding toHost wValue wIndex wLength) t = .next u ∧ ReplyQueued 0 b t u

/-! ### Control engine -/

/-- spec/42_control_engine.md R195: the plain OUT path returns VALID receive, STALL transmit and both toggle resets, writes
nothing else, and its commit on the register it was computed from leaves exactly that. -/
def Obligations.Ep0OutStallsTransmit : Prop :=
  ∀ s : State, ∃ r : HandlerResult,
    exec .ep0Out s = .next { s with handlerRet := .done r } ∧
    r = ⟨mkStatus (s.recAt 0).status (some .valid) (some .stall) true true, true, true⟩ ∧
    (0 < s.epr.length → (s.recAt 0).status = s.eprAt 0 →
      EprBecomes ((commit 0 r s).eprAt 0) (s.eprAt 0) (statCode .valid) (statCode .stall) false false false false)

/-- spec/42_control_engine.md R196: the IN path commits the latched address if it differs, and returns VALID in both directions
with the toggles kept. -/
def Obligations.Ep0InCommitsTheAddress : Prop :=
  ∀ s : State, ∃ r : HandlerResult,
    r = ⟨mkStatus (s.recAt 0).status (some .valid) (some .valid) false false, false, false⟩ ∧
    (daddrAdd s.daddr ≠ s.dev.address → exec .ep0In s = .next
      { s with daddr := 0x80 ||| s.dev.address.zeroExtend 8, dev := { s.dev with phase := .addressed },
               handlerRet := .done r }) ∧
    (daddrAdd s.daddr = s.dev.address → exec .ep0In s = .next { s with handlerRet := .done r }) ∧
    (0 < s.epr.length → (s.recAt 0).status = s.eprAt 0 →
      EprBecomes ((commit 0 r s).eprAt 0) (s.eprAt 0) (statCode .valid) (statCode .valid) (dtogRx (s.eprAt 0))
        (dtogTx (s.eprAt 0)) false false)

/-- spec/42_control_engine.md R192, R193: the SETUP path runs the operation the packet selects and ends with the epilogue, or
with `suspended` for SET_LINE_CODING and no other request; a fault of the operation is its own. -/
def Obligations.Ep0SetupRunsTheRequest : Prop :=
  ∀ s : State, s.Wf →
    (∀ t, exec (decodeSetup s.cfg s.packet) { s with handlerRet := .none } = .next t →
      ((∃ toHost wValue wIndex wLength, decodeSetup s.cfg s.packet = .setLineCoding toHost wValue wIndex wLength) →
        t.handlerRet = .suspended ∧ exec .ep0Setup s = .next t) ∧
      ((∀ toHost wValue wIndex wLength, decodeSetup s.cfg s.packet ≠ .setLineCoding toHost wValue wIndex wLength) →
        exec .ep0Setup s = .next { t with
          handlerRet := .done ⟨mkStatus (s.recAt 0).status (some .nak) (some .valid) false false, false, false⟩ })) ∧
    (∀ x, exec (decodeSetup s.cfg s.packet) { s with handlerRet := .none } = .fault x → exec .ep0Setup s = .fault x) ∧
    (∀ r, exec (decodeSetup s.cfg s.packet) { s with handlerRet := .none } ≠ .refused r)

/-- spec/42_control_engine.md R192 with spec/46_external_agents.md R285: the SETUP path completes whatever the packet, if no
wait is open and no reply can exceed 64 bytes. -/
def Obligations.Ep0SetupCompletes : Prop :=
  ∀ s : State, s.Wf → s.seq = .idle → RepliesFit s.cfg s.packet.wLength →
    ∃ t, exec .ep0Setup s = .next t ∧ t.handlerRet ≠ .none

/-! ### Dispatcher -/

/-- spec/41_interrupt_dispatcher.md R172: what the reset path writes, that it writes nothing else; the register value 0x3220 is
spec/10_state.md R57's. That running it twice leaves what running it once leaves is R179, which the spec derives. -/
def Obligations.ResetPathReinitialises : Prop :=
  ∀ s : State, s.Wf → ∃ t u, exec .irqReset s = .next t ∧ ConfiguredAs 0 .control 64 128 .control s u ∧
    t = { u with daddr := 0x80, dev := ⟨0, .default⟩, istrReset := false } ∧
    (setupBit (s.eprAt 0) = false → t.eprAt 0 = 0x3220) ∧ exec .irqReset t = .next t

/-- spec/42_control_engine.md R197, spec/41_interrupt_dispatcher.md R173: a plain OUT completion and an IN completion of
endpoint 0, served to the commit. -/
def Obligations.CtrServesOutAndIn : Prop :=
  ∀ s : State, s.Wf → (s.recAt 0).handler = .control →
    (ctrRx (s.eprAt 0) = true → ctrTx (s.eprAt 0) = false → setupBit (s.eprAt 0) = false →
      ∃ t, exec (.irqCtr 0) s = .next t ∧
        t = { snapshot 0 s with epr := s.epr.set 0 (t.eprAt 0), handlerRet := .none } ∧
        EprBecomes (t.eprAt 0) (s.eprAt 0) (statCode .valid) (statCode .stall) false false false false) ∧
    (ctrTx (s.eprAt 0) = true → ctrRx (s.eprAt 0) = false →
      ∃ t, exec (.irqCtr 0) s = .next t ∧
        t = { snapshot 0 s with
              epr := s.epr.set 0 (t.eprAt 0)
              handlerRet := .none
              daddr := if daddrAdd s.daddr = s.dev.address then s.daddr else 0x80 ||| s.dev.address.zeroExtend 8
              dev := if daddrAdd s.daddr = s.dev.address then s.dev else { s.dev with phase := .addressed } } ∧
        EprBecomes (t.eprAt 0) (s.eprAt 0) (statCode .valid) (statCode .valid) (dtogRx (s.eprAt 0)) (dtogTx (s.eprAt 0))
          false false)

/-- spec/42_control_engine.md R193, R197, spec/41_interrupt_dispatcher.md R177: a SETUP completion of endpoint 0 runs the
request its packet selects in the snapshotted state and commits NAK-receive, VALID-transmit; a suspended one ends without a
commit. -/
def Obligations.CtrServesSetup : Prop :=
  ∀ s : State, s.Wf → (s.recAt 0).handler = .control → ctrRx (s.eprAt 0) = true → ctrTx (s.eprAt 0) = false →
    setupBit (s.eprAt 0) = true →
    (∀ u, exec (decodeSetup s.cfg s.packet) (snapshot 0 { s with handlerRet := .none }) = .next u →
      ∃ t, exec (.irqCtr 0) s = .next t ∧
        ((∃ toHost wValue wIndex wLength, decodeSetup s.cfg s.packet = .setLineCoding toHost wValue wIndex wLength) →
          t = { u with handlerRet := .none }) ∧
        ((∀ toHost wValue wIndex wLength, decodeSetup s.cfg s.packet ≠ .setLineCoding toHost wValue wIndex wLength) →
          t = { u with epr := s.epr.set 0 (t.eprAt 0), handlerRet := .none } ∧
          EprBecomes (t.eprAt 0) (s.eprAt 0) (statCode .nak) (statCode .valid) (dtogRx (s.eprAt 0)) (dtogTx (s.eprAt 0))
            false false)) ∧
    (∀ x, exec (decodeSetup s.cfg s.packet) (snapshot 0 { s with handlerRet := .none }) = .fault x →
      exec (.irqCtr 0) s = .fault x)

/-- spec/46_external_agents.md R287 (its default handler): a reception on a data endpoint is passed on and reception re-armed, a
transmission is reported; nothing else changes. Both at once, or neither, fault (`CtrFaultsOnBrokenPreconditions`). -/
def Obligations.CtrServesDataEndpoint : Prop :=
  ∀ (s : State) (epId : BitVec 4), s.Wf → s.cfg.dataHandler = .passthrough → (s.recAt epId.toNat).handler = .data →
    (ctrRx (s.eprAt epId.toNat) = true → ctrTx (s.eprAt epId.toNat) = false →
      (countField (s.bt epId.toNat .countRx)).toNat ≤ 64 →
      ∃ (d : List Byte) (t : State), d.length = (countField (s.bt epId.toNat .countRx)).toNat ∧
        (∀ i, i < d.length → d.getD i 0 = s.pmaByte ((s.recAt epId.toNat).rxOff.toNat + i)) ∧
        exec (.irqCtr epId) s = .next t ∧
        t = { snapshot epId.toNat s with
              epr := s.epr.set epId.toNat (t.eprAt epId.toNat)
              handlerRet := .none
              out := s.out ++ [.dataRx epId.toNat d] } ∧
        EprBecomes (t.eprAt epId.toNat) (s.eprAt epId.toNat) (statCode .valid) (statTx (s.eprAt epId.toNat))
          (dtogRx (s.eprAt epId.toNat)) (dtogTx (s.eprAt epId.toNat)) false false) ∧
    (ctrRx (s.eprAt epId.toNat) = false → ctrTx (s.eprAt epId.toNat) = true →
      ∃ t, exec (.irqCtr epId) s = .next t ∧
        t = { snapshot epId.toNat s with
              epr := s.epr.set epId.toNat (t.eprAt epId.toNat)
              handlerRet := .none
              out := s.out ++ [.dataTxDone epId.toNat] } ∧
        EprBecomes (t.eprAt epId.toNat) (s.eprAt epId.toNat) (statRx (s.eprAt epId.toNat)) (statTx (s.eprAt epId.toNat))
          (dtogRx (s.eprAt epId.toNat)) (dtogTx (s.eprAt epId.toNat)) false false)

/-- spec/46_external_agents.md R287 (its contract): whatever the handler within the contract does (log 17), a dispatch of a data
endpoint with exactly one completion completes, touches no other endpoint and none of the engine's other state, stores only into its own transmit view and
`COUNT_TX`, and leaves the completion flags clear. -/
def Obligations.CtrHandlerStaysInsideItsContract : Prop :=
  ∀ (s : State) (epId : BitVec 4), s.Wf → s.cfg.dataHandler = .unspecified → (s.recAt epId.toNat).handler = .data →
    ctrRx (s.eprAt epId.toNat) ≠ ctrTx (s.eprAt epId.toNat) → (countField (s.bt epId.toNat .countRx)).toNat ≤ 64 →
    ∃ (t : State) (es : List (List Byte)), exec (.irqCtr epId) s = .next t ∧
      t = { snapshot epId.toNat s with
            epr := s.epr.set epId.toNat (t.eprAt epId.toNat)
            handlerRet := .none
            pma := t.pma
            draws := t.draws
            out := s.out ++ es.map (.handlerEvent epId.toNat) } ∧
      (∀ a, ¬ inWords (s.recAt epId.toNat).txOff.toNat 64 a → ¬ inCountTx epId.toNat a → t.pmaByte a = s.pmaByte a) ∧
      ctrRx (t.eprAt epId.toNat) = false ∧ ctrTx (t.eprAt epId.toNat) = false ∧
      epType (t.eprAt epId.toNat) = epType (s.eprAt epId.toNat) ∧ epKind (t.eprAt epId.toNat) = epKind (s.eprAt epId.toNat) ∧
      epAddr (t.eprAt epId.toNat) = epAddr (s.eprAt epId.toNat) ∧
      (dtogRx (t.eprAt epId.toNat) = true → dtogRx (s.eprAt epId.toNat) = true) ∧
      (dtogTx (t.eprAt epId.toNat) = true → dtogTx (s.eprAt epId.toNat) = true)

/-- spec/41_interrupt_dispatcher.md R173, spec/42_control_engine.md R191, spec/10_state.md R25: where the correct-transfer path
faults before any request or data transfer is served. That R25's fault is a data endpoint's as it is endpoint 0's is the model's
reading (log 25). -/
def Obligations.CtrFaultsOnBrokenPreconditions : Prop :=
  ∀ (s : State) (epId : BitVec 4), s.Wf →
    (s.cfg.numEp ≤ epId.toNat ∨ (s.recAt epId.toNat).handler = .none → exec (.irqCtr epId) s = .fault .noHandler) ∧
    ((s.recAt epId.toNat).handler ≠ .none → ctrRx (s.eprAt epId.toNat) = ctrTx (s.eprAt epId.toNat) →
      exec (.irqCtr epId) s = .fault .flagInvariant)

/-- spec/41_interrupt_dispatcher.md R178: with both causes set the reset path runs first and drops endpoint 0's completion; a
completion of another endpoint is served in the same dispatch. -/
def Obligations.ResetWinsOverTransfer : Prop :=
  ∀ (s : State) (rest : List Move), s.Wf → s.fault = none → s.script = .dispatch :: rest → s.istrReset = true →
    (s.seq = .idle ∨ s.cfg.reentrant = true) →
    ∃ u, exec .irqReset { s with script := rest } = .next u ∧ pendingWord (u.eprAt 0) = false ∧
      (∀ n, 0 < n → u.eprAt n = s.eprAt n) ∧
      ((∀ n, 0 < n → pendingWord (s.eprAt n) = false) → step s = .next u) ∧
      ((∃ n, 0 < n ∧ pendingWord (s.eprAt n) = true) →
        ∃ epId : BitVec 4, 0 < epId.toNat ∧ pendingWord (s.eprAt epId.toNat) = true ∧
          step s = settle s (exec (.irqCtr epId) { u with draws := u.draws + 1 }))

/-- spec/10_state.md R33, R34: the interrupt status reports the stored reset flag, the derived correct-transfer cause and a
pending endpoint, and reads 0 elsewhere. -/
def Obligations.InterruptStatusReportsCauses : Prop :=
  ∀ s : State, s.epr.length ≤ 8 →
    (s.istr.getLsbD 15 = true ↔ ∃ n, n < s.epr.length ∧ (ctrRx (s.eprAt n) = true ∨ ctrTx (s.eprAt n) = true)) ∧
    s.istr.getLsbD 10 = s.istrReset ∧ s.istr.extractLsb' 0 4 = s.epIdField ∧ s.istr &&& 0x7BF0 = 0 ∧
    (s.istr.getLsbD 15 = true → s.epIdField.toNat < s.epr.length ∧
      (ctrRx (s.eprAt s.epIdField.toNat) = true ∨ ctrTx (s.eprAt s.epIdField.toNat) = true))

/-! ### Steps -/

/-- spec/41_interrupt_dispatcher.md R170, spec/30_encoding.md R107: a dispatch runs the operation the interrupt status decodes
to; after the reset path the correct-transfer condition is evaluated again. Scripted or, with `seq` idle, by the engine itself
(log 7); `EP_ID` is read with one draw (log 6). -/
def Obligations.StepRunsTheDecodedInterrupt : Prop :=
  ∀ (s : State) (rest : List Move) (i : Instr), s.fault = none → (s.seq = .idle ∨ s.cfg.reentrant = true) →
    (s.script = .dispatch :: rest ∨ s.script = [] ∧ rest = [] ∧ s.seq = .idle) →
    decode .istr s.cfg [lowByte s.istr, highByte s.istr] = .ok (i, []) →
    (i = .irqReset → step s = settle s (andThen (exec i { s with script := rest }) fun v =>
      if v.istrCtr then exec (.irqCtr v.epIdField) { v with draws := v.draws + 1 } else .next v)) ∧
    (i ≠ .irqReset → step s = settle s (exec i { s with script := rest, draws := s.draws + 1 }))

/-- spec/60_exceptions.md R318, spec/46_external_agents.md R281 to R283: a scripted wait step or application move runs its
operation where it is enabled; where it is not, the script goes on without it (log 8). -/
def Obligations.StepRunsWaitsAndApplicationMoves : Prop :=
  ∀ (s : State) (rest : List Move) (m : Move) (i : Instr) (enabled : Prop), s.fault = none → s.script = m :: rest →
    ((m = .waitTick ∧ i = .waitTick ∧ enabled = ∃ n b, s.seq = .wait n b ∧ (s.recAt n).rxPending = false ∧ 0 < b) ∨
     (m = .waitFinish ∧ i = .waitFinish ∧ enabled = ∃ n b, s.seq = .wait n b ∧ ((s.recAt n).rxPending = true ∨ b = 0)) ∨
     (∃ id ty tx rx, m = .appConfigure id ty tx rx ∧ i = .configureEndpoint id ty tx rx .data ∧
       enabled = (s.seq = .idle ∧ 1 ≤ id)) ∨
     (∃ id b, m = .appWrite id b ∧ i = .writeCommit id b ∧
       enabled = (s.seq = .idle ∧ 1 ≤ id ∧ id < s.cfg.numEp ∧ (s.recAt id).handler = .data)) ∨
     (∃ id, m = .appRead id ∧ i = .read id ∧
       enabled = (s.seq = .idle ∧ id < s.cfg.numEp ∧ (s.recAt id).handler ≠ .none))) →
    (enabled → step s = settle s (exec i { s with script := rest })) ∧
    (¬ enabled → step s = .next { s with script := rest })

/-- The model's bench move (log 16), no rule: a Register Bridge operation whose bytes stand at the head of the script runs as
the decoder reads it. -/
def Obligations.StepRunsThePlacedOperation : Prop :=
  ∀ (s : State) (rest : List Move) (code more : List Byte) (i : Instr), s.fault = none → s.script = .bench code :: rest →
    decode .bop s.cfg code = .ok (i, more) → step s = settle s (exec i { s with script := rest })

/-- spec/60_exceptions.md R310: a raise leaves the state before the step with `fault` set, and then the run is over. -/
def Obligations.FaultEndsTheRun : Prop :=
  ∀ (s : State) (x : Fault),
    (s.fault = some x → step s = .fault x) ∧
    (s.fault = none → ∀ m rest, s.script = m :: rest → runMove m { s with script := rest } = .fault x →
      step s = .next { s with fault := some x }) ∧
    (s.fault = none → s.script = [] → engineStep s = .fault x → step s = .next { s with fault := some x })

/-- spec/60_exceptions.md R318 (the outcomes of a step): from every state of the invariant without a fault, the step answers a
next state, whatever the move. That the outcomes R318 lists all show as a next state is the model's choice: an idle engine stays
as it is (log 7), a move that is not enabled is dropped (log 8), a raise is recorded in `fault` (log 9). -/
def Obligations.EveryStepAnswers : Prop :=
  ∀ s : State, s.Inv → s.fault = none → ∃ t, step s = .next t

/-- spec/10_state.md R57 (after power-up), R58: after power-up the machine holds these values, does nothing by itself, and
serves no token. -/
def Obligations.PowerUpIsIdle : Prop :=
  ∀ c : Params, c.wf →
    step (State.powerUp c) = .next (State.powerUp c) ∧
    (∀ n, (State.powerUp c).recAt n = ⟨.none, 0, 0, 0, false, false, false, 0⟩) ∧ (∀ n, (State.powerUp c).eprAt n = 0) ∧
    (State.powerUp c).dev = ⟨0, .default⟩ ∧ (State.powerUp c).lc.toBytes = [0x00, 0xC2, 0x01, 0x00, 0x00, 0x00, 0x08] ∧
    (State.powerUp c).seq = .idle ∧ (State.powerUp c).scratch = List.replicate 64 0 ∧ (State.powerUp c).fault = none ∧
    (State.powerUp c).out = [] ∧ (State.powerUp c).istrReset = false ∧ (State.powerUp c).daddr = 0 ∧
    (∀ (n : Nat) (addr : BitVec 7) (p : Setup) (pid : Bool) (d : List Byte),
      ∀ m ∈ [Move.busSetup addr p, .busOut n addr pid d, .busIn n addr],
        step { State.powerUp c with script := [m] } = .next (State.powerUp c))

/-! ### The bus side -/

/-- spec/46_external_agents.md R271: the bus side's reset, in every state. -/
def Obligations.BusResetClearsTheRegisters : Prop :=
  ∀ (s : State) (rest : List Move), s.fault = none → s.script = .busReset :: rest →
    step s = .next { s with script := rest, epr := List.replicate s.epr.length 0, daddr := 0, istrReset := true }

/-- spec/46_external_agents.md R272: a token that is not accepted changes nothing and the host sees a timeout. -/
def Obligations.UnacceptedTokensAreIgnored : Prop :=
  ∀ (s : State) (rest : List Move) (n : Nat) (addr : BitVec 7) (p : Setup) (pid : Bool) (d : List Byte),
    s.fault = none → ¬ Accepts n addr s →
    ∀ m ∈ [Move.busOut n addr pid d, .busIn n addr] ++ (if n = 0 then [.busSetup addr p] else []),
      s.script = m :: rest → step s = .next { s with script := rest } ∧ hostSees m s = .timeout

/-- spec/46_external_agents.md R273: a SETUP transaction. Its receive buffer lies inside packet memory. The handshake is R277's,
which the spec derives; the timeout of one that is not enabled, an endpoint of another type among them, is the model's (log 24),
and so is that such a move is dropped (log 8). -/
def Obligations.BusSetupRecordsThePacket : Prop :=
  ∀ (s : State) (rest : List Move) (addr : BitVec 7) (p : Setup), s.Wf → s.fault = none →
    s.script = .busSetup addr p :: rest → Accepts 0 addr s → (s.bt 0 .addrRx).toNat % 2 = 0 →
    (s.bt 0 .addrRx).toNat + 8 ≤ s.cfg.pmaSize →
    (epType (s.eprAt 0) = EpType.control.code ∧ statRx (s.eprAt 0) ≠ statCode .disabled ∧ ctrRx (s.eprAt 0) = false →
      ∃ t, step s = .next t ∧ t.script = rest ∧ Received 0 (s.bt 0 .addrRx).toNat p.toBytes s t ∧
        ctrRx (t.eprAt 0) = true ∧ setupBit (t.eprAt 0) = true ∧ statRx (t.eprAt 0) = statCode .nak ∧
        statTx (t.eprAt 0) = statCode .nak ∧ dtogRx (t.eprAt 0) = true ∧ dtogTx (t.eprAt 0) = true ∧
        ctrTx (t.eprAt 0) = ctrTx (s.eprAt 0) ∧ epType (t.eprAt 0) = epType (s.eprAt 0) ∧
        epKind (t.eprAt 0) = epKind (s.eprAt 0) ∧ epAddr (t.eprAt 0) = epAddr (s.eprAt 0) ∧
        hostSees (.busSetup addr p) s = .ack) ∧
    (epType (s.eprAt 0) ≠ EpType.control.code ∨ statRx (s.eprAt 0) = statCode .disabled ∨ ctrRx (s.eprAt 0) = true →
      step s = .next { s with script := rest } ∧ hostSees (.busSetup addr p) s = .timeout)

/-- spec/46_external_agents.md R274: an OUT transaction of at most 64 bytes on an endpoint that is not isochronous (log 18). Its
receive buffer lies inside packet memory. The handshake is R277's, which the spec derives; `hostSees` is the model's form of it
(log 24). -/
def Obligations.BusOutRecordsThePacket : Prop :=
  ∀ (s : State) (rest : List Move) (n : Nat) (addr : BitVec 7) (pid : Bool) (d : List Byte), s.Wf → s.fault = none →
    s.script = .busOut n addr pid d :: rest → Accepts n addr s → epType (s.eprAt n) ≠ EpType.isochronous.code →
    d.length ≤ 64 → (s.bt n .addrRx).toNat % 2 = 0 → (s.bt n .addrRx).toNat + 64 ≤ s.cfg.pmaSize →
    (statRx (s.eprAt n) = statCode .valid ∧ pid = dtogRx (s.eprAt n) →
      ∃ t, step s = .next t ∧ t.script = rest ∧ Received n (s.bt n .addrRx).toNat d s t ∧
        ctrRx (t.eprAt n) = true ∧ setupBit (t.eprAt n) = false ∧ statRx (t.eprAt n) = statCode .nak ∧
        statTx (t.eprAt n) = statTx (s.eprAt n) ∧ dtogRx (t.eprAt n) = !(dtogRx (s.eprAt n)) ∧
        dtogTx (t.eprAt n) = dtogTx (s.eprAt n) ∧ ctrTx (t.eprAt n) = ctrTx (s.eprAt n) ∧
        epType (t.eprAt n) = epType (s.eprAt n) ∧ epKind (t.eprAt n) = epKind (s.eprAt n) ∧
        epAddr (t.eprAt n) = epAddr (s.eprAt n)) ∧
    (statRx (s.eprAt n) ≠ statCode .valid ∨ pid ≠ dtogRx (s.eprAt n) → step s = .next { s with script := rest }) ∧
    (statRx (s.eprAt n) = statCode .valid → hostSees (.busOut n addr pid d) s = .ack) ∧
    (statRx (s.eprAt n) = statCode .nak → hostSees (.busOut n addr pid d) s = .nak) ∧
    (statRx (s.eprAt n) = statCode .stall → hostSees (.busOut n addr pid d) s = .stall) ∧
    (statRx (s.eprAt n) = statCode .disabled → hostSees (.busOut n addr pid d) s = .timeout)

/-- spec/46_external_agents.md R275: an IN transaction on an endpoint that is not isochronous (log 18). Its transmit buffer lies
inside packet memory. The handshake is R277's, which the spec derives; `hostSees` is the model's form of it (log 24). -/
def Obligations.BusInTransmitsTheReply : Prop :=
  ∀ (s : State) (rest : List Move) (n : Nat) (addr : BitVec 7), s.Wf → s.fault = none →
    s.script = .busIn n addr :: rest → Accepts n addr s → epType (s.eprAt n) ≠ EpType.isochronous.code →
    (s.bt n .addrTx).toNat + (countField (s.bt n .countTx)).toNat ≤ s.cfg.pmaSize →
    (statTx (s.eprAt n) = statCode .valid →
      ∃ (d : List Byte) (t : State), step s = .next t ∧ d.length = (countField (s.bt n .countTx)).toNat ∧
        (∀ i, i < d.length → d.getD i 0 = s.pmaByte ((s.bt n .addrTx).toNat + i)) ∧
        t = { s with script := rest, out := s.out ++ [.wire n (dtogTx (s.eprAt n)) d], epr := s.epr.set n (t.eprAt n) } ∧
        EprBecomes (t.eprAt n) (s.eprAt n) (statRx (s.eprAt n)) (statCode .nak) (dtogRx (s.eprAt n))
          (!(dtogTx (s.eprAt n))) (ctrRx (s.eprAt n)) true) ∧
    (statTx (s.eprAt n) = statCode .stall → step s = .next { s with script := rest, out := s.out ++ [.wireStall n] }) ∧
    (statTx (s.eprAt n) = statCode .nak ∨ statTx (s.eprAt n) = statCode .disabled →
      step s = .next { s with script := rest }) ∧
    (statTx (s.eprAt n) = statCode .valid → hostSees (.busIn n addr) s = .data) ∧
    (statTx (s.eprAt n) = statCode .nak → hostSees (.busIn n addr) s = .nak) ∧
    (statTx (s.eprAt n) = statCode .stall → hostSees (.busIn n addr) s = .stall) ∧
    (statTx (s.eprAt n) = statCode .disabled → hostSees (.busIn n addr) s = .timeout)

/-- spec/46_external_agents.md R276: what no move of the bus side does. -/
def Obligations.BusSideLeavesEngineState : Prop :=
  ∀ (s t : State) (m : Move), m.ofBus = true → runMove m s = .next t →
    (t.cfg = s.cfg ∧ t.recs = s.recs ∧ t.dev = s.dev ∧ t.lc = s.lc ∧ t.seq = s.seq ∧ t.scratch = s.scratch ∧
      t.fault = s.fault ∧ t.script = s.script ∧ t.handlerRet = s.handlerRet ∧ t.appBuf = s.appBuf) ∧
    (m ≠ .busReset → t.daddr = s.daddr ∧ t.istrReset = s.istrReset ∧
      ∀ n, epType (t.eprAt n) = epType (s.eprAt n) ∧ epKind (t.eprAt n) = epKind (s.eprAt n) ∧
        epAddr (t.eprAt n) = epAddr (s.eprAt n) ∧
        (ctrRx (s.eprAt n) = true → ctrRx (t.eprAt n) = true) ∧ (ctrTx (s.eprAt n) = true → ctrTx (t.eprAt n) = true) ∧
        (statRx (t.eprAt n) = statRx (s.eprAt n) ∨ statRx (t.eprAt n) = statCode .nak) ∧
        (statTx (t.eprAt n) = statTx (s.eprAt n) ∨ statTx (t.eprAt n) = statCode .nak))

/-! ### Invariants and whole-machine rules -/

/-- spec/10_state.md R57, spec/00_scope.md R6: the power-up state of every admissible parameter choice meets the invariants, and
the reset state is one of them (the parameter values are log 2's). -/
def Obligations.PowerUpMeetsInvariants : Prop :=
  (∀ c : Params, c.wf → (State.powerUp c).Inv ∧ (State.powerUp c).EprInv ∧ (State.powerUp c).Bound) ∧
  Config.suggested.wf ∧ State.reset = State.powerUp Config.suggested

/-- Every step keeps the invariant: packet memory canonical and within its size, every view inside it, the control engine bound
to endpoint 0 only, `SCRATCH` 64 bytes, a wait only for endpoint 0 within its budget, no handler call left open. -/
def Obligations.StepKeepsInv : Prop :=
  ∀ s t : State, s.Inv → step s = .next t → t.Inv

/-- spec/30_encoding.md R113, spec/46_external_agents.md R276: no step leaves an endpoint register isochronous or with `EP_KIND` 1,
nor with an address other than the endpoint's own (spec/10_state.md R28) or 0, which a bus reset leaves
(spec/46_external_agents.md R271). -/
def Obligations.StepKeepsEndpointRegisters : Prop :=
  ∀ s t : State, s.Inv → s.EprInv → step s = .next t → t.EprInv

/-- spec/70_reset_and_hazards.md R343, spec/41_interrupt_dispatcher.md R173: an endpoint without handler never has a completion,
so no step of such a run raises `NoHandler`. -/
def Obligations.NoStepLacksAHandler : Prop :=
  ∀ s t : State, s.Inv → s.Bound → s.fault = none → step s = .next t → t.Bound ∧ t.fault ≠ some .noHandler

/-- spec/20_memory.md R79: no operation of the engine forms an access outside packet memory. -/
def Obligations.EngineStaysInsidePacketMemory : Prop :=
  ∀ (i : Instr) (s : State), s.Wf → exec i s ≠ .fault .pmaBadAccess

/-- spec/45_device_state.md R264: the transitions of the Device State and of `DADDR`, complete, for every step. -/
def Obligations.DeviceStateTransitions : Prop :=
  ∀ s t : State, s.Inv → step s = .next t → DevStep s t

/-- spec/10_state.md R42: the Line Coding changes only where a wait ends, and the application is told the new record. -/
def Obligations.LineCodingChangesOnlyAtWaitFinish : Prop :=
  ∀ s t : State, step s = .next t → t.lc ≠ s.lc →
    ∃ n b, s.seq = .wait n b ∧ t.seq = .idle ∧ t.out = s.out ++ [.onLineCodingChanged t.lc.toBytes]

/-- spec/10_state.md R56, R20: `OUT` is append-only and the parameters and descriptors are read-only, for every step. -/
def Obligations.OutIsAppendOnly : Prop :=
  ∀ s t : State, step s = .next t → t.cfg = s.cfg ∧ ∃ es, t.out = s.out ++ es

/-- spec/46_external_agents.md R276, spec/10_state.md R30: no operation of the engine sets a completion flag or changes the
`SETUP` bit of any endpoint. -/
def Obligations.EngineNeverSetsCompletionFlags : Prop :=
  ∀ (i : Instr) (s t : State) (n : Nat), exec i s = .next t →
    (ctrRx (t.eprAt n) = true → ctrRx (s.eprAt n) = true) ∧ (ctrTx (t.eprAt n) = true → ctrTx (s.eprAt n) = true) ∧
    setupBit (t.eprAt n) = setupBit (s.eprAt n)

/-! ### Encodings -/

/-- Decode and encode agree for every well-formed operation, whatever bytes follow it. The operand bytes of the seven Register
Bridge operations are the model's own (log 14); the spec gives only their selectors (R110). -/
def Obligations.DecodeOfEncode : Prop :=
  ∀ (c : Params) (i : Instr) (rest : List Byte), c.wf → wellFormed c i = true →
    decode i.format c (encode c i ++ rest) = .ok (i, rest)

/-- Every packet is the encoding of the operation it decodes to, so no bit of a packet is dropped; that operation is
well-formed. -/
def Obligations.EncodeOfDecodedPacket : Prop :=
  ∀ (c : Params) (p : Setup), c.wf →
    encodeSetup c (decodeSetup c p) = some p ∧ wellFormed c (decodeSetup c p) = true ∧
    Setup.ofBytes p.toBytes = p

/-- spec/30_encoding.md R109: the decoder takes the first row whose mask and match fit the packet word, and there always is
one. -/
def Obligations.SetupDecodeTakesFirstRow : Prop :=
  ∀ (c : Params) (p : Setup), c.wf → firstSetupRow c p.word = some (decodeSetup c p).setupRow

/-- Words written out from the encodings decode to the operations they stand for. The string index is that of the model's
parameter values (log 2), and that a word of one byte is read as a flag vector first is the model's choice (log 15). -/
def Obligations.WrittenWordsDecode : Prop :=
  decodeTableWord 64 0x0040000001000680 = some (.getDescriptorDevice 0x0000 0x0040) ∧
  decodeTableWord 64 0x00FF040903010680 = some (.getDescriptorStringManufacturer 0x0409 0x00FF) ∧
  decodeTableWord 64 0x0000000000050500 = some (.setAddress 0x0005 0x0000 0x0000) ∧
  decodeTableWord 64 0x00070000000020A1 = some (.setLineCoding true 0x0000 0x0000 0x0007) ∧
  decodeTableWord 64 0x00000000123402C0 = some (.vendorRead 0 0x02 0x1234 0x0000 0x0000) ∧
  decodeTableWord 64 0x0040000022000681 = some (.unknown 0x81 0x06 0x2200 0x0000 0x0040) ∧
  decodeTableWord 8 0b101 = some .ep0Setup ∧ decodeTableWord 8 0b001 = some .ep0Out ∧
  decodeTableWord 8 0b010 = some .ep0In ∧ decodeTableWord 16 0x0400 = some .irqReset ∧
  decodeTableWord 16 0x8003 = some (.irqCtr 3) ∧ decodeTableWord 8 6 = some .waitFinish

end Statements
end

