-- ==== Sys2Proof/Laws/State.lean ====
section
/-! SUPPORT. One lemma per field per update, true by rfl, and the accessors an update leaves alone. -/

namespace Sys2Proof.Machine

section
variable (s : State) (n : Nat) (r : Record)

@[simp] theorem State.setRec_cfg : (s.setRec n r).cfg = s.cfg := rfl
@[simp] theorem State.setRec_recs : (s.setRec n r).recs = s.recs.set n r := rfl
@[simp] theorem State.setRec_dev : (s.setRec n r).dev = s.dev := rfl
@[simp] theorem State.setRec_lc : (s.setRec n r).lc = s.lc := rfl
@[simp] theorem State.setRec_seq : (s.setRec n r).seq = s.seq := rfl
@[simp] theorem State.setRec_scratch : (s.setRec n r).scratch = s.scratch := rfl
@[simp] theorem State.setRec_fault : (s.setRec n r).fault = s.fault := rfl
@[simp] theorem State.setRec_epr : (s.setRec n r).epr = s.epr := rfl
@[simp] theorem State.setRec_istrReset : (s.setRec n r).istrReset = s.istrReset := rfl
@[simp] theorem State.setRec_daddr : (s.setRec n r).daddr = s.daddr := rfl
@[simp] theorem State.setRec_pma : (s.setRec n r).pma = s.pma := rfl
@[simp] theorem State.setRec_out : (s.setRec n r).out = s.out := rfl
@[simp] theorem State.setRec_draws : (s.setRec n r).draws = s.draws := rfl
@[simp] theorem State.setRec_script : (s.setRec n r).script = s.script := rfl
@[simp] theorem State.setRec_handlerRet : (s.setRec n r).handlerRet = s.handlerRet := rfl
@[simp] theorem State.setRec_appBuf : (s.setRec n r).appBuf = s.appBuf := rfl
@[simp] theorem State.setRec_eprAt (m : Nat) : (s.setRec n r).eprAt m = s.eprAt m := rfl
@[simp] theorem State.setRec_pmaByte (x : Nat) : (s.setRec n r).pmaByte x = s.pmaByte x := rfl
@[simp] theorem State.setRec_pmaWord (x : Nat) : (s.setRec n r).pmaWord x = s.pmaWord x := rfl
@[simp] theorem State.setRec_bt (m : Nat) (j : BtSlot) : (s.setRec n r).bt m j = s.bt m j := rfl
@[simp] theorem State.setRec_pmaBytes (x y : Nat) : (s.setRec n r).pmaBytes x y = s.pmaBytes x y := rfl
@[simp] theorem State.setRec_wordsExist (x y : Nat) : (s.setRec n r).wordsExist x y = s.wordsExist x y := rfl
@[simp] theorem State.setRec_bytesExist (x y : Nat) : (s.setRec n r).bytesExist x y = s.bytesExist x y := rfl

end

section
variable (s : State) (n : Nat) (e : Word)

@[simp] theorem State.setEpr_cfg : (s.setEpr n e).cfg = s.cfg := rfl
@[simp] theorem State.setEpr_recs : (s.setEpr n e).recs = s.recs := rfl
@[simp] theorem State.setEpr_dev : (s.setEpr n e).dev = s.dev := rfl
@[simp] theorem State.setEpr_lc : (s.setEpr n e).lc = s.lc := rfl
@[simp] theorem State.setEpr_seq : (s.setEpr n e).seq = s.seq := rfl
@[simp] theorem State.setEpr_scratch : (s.setEpr n e).scratch = s.scratch := rfl
@[simp] theorem State.setEpr_fault : (s.setEpr n e).fault = s.fault := rfl
@[simp] theorem State.setEpr_epr : (s.setEpr n e).epr = s.epr.set n e := rfl
@[simp] theorem State.setEpr_istrReset : (s.setEpr n e).istrReset = s.istrReset := rfl
@[simp] theorem State.setEpr_daddr : (s.setEpr n e).daddr = s.daddr := rfl
@[simp] theorem State.setEpr_pma : (s.setEpr n e).pma = s.pma := rfl
@[simp] theorem State.setEpr_out : (s.setEpr n e).out = s.out := rfl
@[simp] theorem State.setEpr_draws : (s.setEpr n e).draws = s.draws := rfl
@[simp] theorem State.setEpr_script : (s.setEpr n e).script = s.script := rfl
@[simp] theorem State.setEpr_handlerRet : (s.setEpr n e).handlerRet = s.handlerRet := rfl
@[simp] theorem State.setEpr_appBuf : (s.setEpr n e).appBuf = s.appBuf := rfl
@[simp] theorem State.setEpr_recAt (m : Nat) : (s.setEpr n e).recAt m = s.recAt m := rfl
@[simp] theorem State.setEpr_pmaByte (x : Nat) : (s.setEpr n e).pmaByte x = s.pmaByte x := rfl
@[simp] theorem State.setEpr_pmaWord (x : Nat) : (s.setEpr n e).pmaWord x = s.pmaWord x := rfl
@[simp] theorem State.setEpr_bt (m : Nat) (j : BtSlot) : (s.setEpr n e).bt m j = s.bt m j := rfl
@[simp] theorem State.setEpr_pmaBytes (x y : Nat) : (s.setEpr n e).pmaBytes x y = s.pmaBytes x y := rfl
@[simp] theorem State.setEpr_wordsExist (x y : Nat) : (s.setEpr n e).wordsExist x y = s.wordsExist x y := rfl
@[simp] theorem State.setEpr_bytesExist (x y : Nat) : (s.setEpr n e).bytesExist x y = s.bytesExist x y := rfl
@[simp] theorem State.setEpr_configured (x : Nat) : (s.setEpr n e).configured x = s.configured x := rfl

end

section
variable (s : State)

@[simp] theorem State.clearEprs_cfg : (s.clearEprs).cfg = s.cfg := rfl
@[simp] theorem State.clearEprs_recs : (s.clearEprs).recs = s.recs := rfl
@[simp] theorem State.clearEprs_dev : (s.clearEprs).dev = s.dev := rfl
@[simp] theorem State.clearEprs_lc : (s.clearEprs).lc = s.lc := rfl
@[simp] theorem State.clearEprs_seq : (s.clearEprs).seq = s.seq := rfl
@[simp] theorem State.clearEprs_scratch : (s.clearEprs).scratch = s.scratch := rfl
@[simp] theorem State.clearEprs_fault : (s.clearEprs).fault = s.fault := rfl
@[simp] theorem State.clearEprs_epr : (s.clearEprs).epr = s.epr.map fun _ => 0 := rfl
@[simp] theorem State.clearEprs_istrReset : (s.clearEprs).istrReset = s.istrReset := rfl
@[simp] theorem State.clearEprs_daddr : (s.clearEprs).daddr = s.daddr := rfl
@[simp] theorem State.clearEprs_pma : (s.clearEprs).pma = s.pma := rfl
@[simp] theorem State.clearEprs_out : (s.clearEprs).out = s.out := rfl
@[simp] theorem State.clearEprs_draws : (s.clearEprs).draws = s.draws := rfl
@[simp] theorem State.clearEprs_script : (s.clearEprs).script = s.script := rfl
@[simp] theorem State.clearEprs_handlerRet : (s.clearEprs).handlerRet = s.handlerRet := rfl
@[simp] theorem State.clearEprs_appBuf : (s.clearEprs).appBuf = s.appBuf := rfl
@[simp] theorem State.clearEprs_recAt (m : Nat) : (s.clearEprs).recAt m = s.recAt m := rfl
@[simp] theorem State.clearEprs_pmaByte (x : Nat) : (s.clearEprs).pmaByte x = s.pmaByte x := rfl
@[simp] theorem State.clearEprs_pmaWord (x : Nat) : (s.clearEprs).pmaWord x = s.pmaWord x := rfl
@[simp] theorem State.clearEprs_bt (m : Nat) (j : BtSlot) : (s.clearEprs).bt m j = s.bt m j := rfl
@[simp] theorem State.clearEprs_pmaBytes (x y : Nat) : (s.clearEprs).pmaBytes x y = s.pmaBytes x y := rfl
@[simp] theorem State.clearEprs_wordsExist (x y : Nat) : (s.clearEprs).wordsExist x y = s.wordsExist x y := rfl
@[simp] theorem State.clearEprs_bytesExist (x y : Nat) : (s.clearEprs).bytesExist x y = s.bytesExist x y := rfl
@[simp] theorem State.clearEprs_configured (x : Nat) : (s.clearEprs).configured x = s.configured x := rfl

end

section
variable (s : State) (a : BitVec 7)

@[simp] theorem State.setAddress_cfg : (s.setAddress a).cfg = s.cfg := rfl
@[simp] theorem State.setAddress_recs : (s.setAddress a).recs = s.recs := rfl
@[simp] theorem State.setAddress_dev : (s.setAddress a).dev = ⟨a, s.dev.phase⟩ := rfl
@[simp] theorem State.setAddress_lc : (s.setAddress a).lc = s.lc := rfl
@[simp] theorem State.setAddress_seq : (s.setAddress a).seq = s.seq := rfl
@[simp] theorem State.setAddress_scratch : (s.setAddress a).scratch = s.scratch := rfl
@[simp] theorem State.setAddress_fault : (s.setAddress a).fault = s.fault := rfl
@[simp] theorem State.setAddress_epr : (s.setAddress a).epr = s.epr := rfl
@[simp] theorem State.setAddress_istrReset : (s.setAddress a).istrReset = s.istrReset := rfl
@[simp] theorem State.setAddress_daddr : (s.setAddress a).daddr = s.daddr := rfl
@[simp] theorem State.setAddress_pma : (s.setAddress a).pma = s.pma := rfl
@[simp] theorem State.setAddress_out : (s.setAddress a).out = s.out := rfl
@[simp] theorem State.setAddress_draws : (s.setAddress a).draws = s.draws := rfl
@[simp] theorem State.setAddress_script : (s.setAddress a).script = s.script := rfl
@[simp] theorem State.setAddress_handlerRet : (s.setAddress a).handlerRet = s.handlerRet := rfl
@[simp] theorem State.setAddress_appBuf : (s.setAddress a).appBuf = s.appBuf := rfl
@[simp] theorem State.setAddress_eprAt (m : Nat) : (s.setAddress a).eprAt m = s.eprAt m := rfl
@[simp] theorem State.setAddress_recAt (m : Nat) : (s.setAddress a).recAt m = s.recAt m := rfl
@[simp] theorem State.setAddress_pmaByte (x : Nat) : (s.setAddress a).pmaByte x = s.pmaByte x := rfl
@[simp] theorem State.setAddress_pmaWord (x : Nat) : (s.setAddress a).pmaWord x = s.pmaWord x := rfl
@[simp] theorem State.setAddress_bt (m : Nat) (j : BtSlot) : (s.setAddress a).bt m j = s.bt m j := rfl
@[simp] theorem State.setAddress_pmaBytes (x y : Nat) : (s.setAddress a).pmaBytes x y = s.pmaBytes x y := rfl
@[simp] theorem State.setAddress_wordsExist (x y : Nat) : (s.setAddress a).wordsExist x y = s.wordsExist x y := rfl
@[simp] theorem State.setAddress_bytesExist (x y : Nat) : (s.setAddress a).bytesExist x y = s.bytesExist x y := rfl
@[simp] theorem State.setAddress_configured (x : Nat) : (s.setAddress a).configured x = s.configured x := rfl

end

section
variable (s : State) (p : Phase)

@[simp] theorem State.setPhase_cfg : (s.setPhase p).cfg = s.cfg := rfl
@[simp] theorem State.setPhase_recs : (s.setPhase p).recs = s.recs := rfl
@[simp] theorem State.setPhase_dev : (s.setPhase p).dev = ⟨s.dev.address, p⟩ := rfl
@[simp] theorem State.setPhase_lc : (s.setPhase p).lc = s.lc := rfl
@[simp] theorem State.setPhase_seq : (s.setPhase p).seq = s.seq := rfl
@[simp] theorem State.setPhase_scratch : (s.setPhase p).scratch = s.scratch := rfl
@[simp] theorem State.setPhase_fault : (s.setPhase p).fault = s.fault := rfl
@[simp] theorem State.setPhase_epr : (s.setPhase p).epr = s.epr := rfl
@[simp] theorem State.setPhase_istrReset : (s.setPhase p).istrReset = s.istrReset := rfl
@[simp] theorem State.setPhase_daddr : (s.setPhase p).daddr = s.daddr := rfl
@[simp] theorem State.setPhase_pma : (s.setPhase p).pma = s.pma := rfl
@[simp] theorem State.setPhase_out : (s.setPhase p).out = s.out := rfl
@[simp] theorem State.setPhase_draws : (s.setPhase p).draws = s.draws := rfl
@[simp] theorem State.setPhase_script : (s.setPhase p).script = s.script := rfl
@[simp] theorem State.setPhase_handlerRet : (s.setPhase p).handlerRet = s.handlerRet := rfl
@[simp] theorem State.setPhase_appBuf : (s.setPhase p).appBuf = s.appBuf := rfl
@[simp] theorem State.setPhase_eprAt (m : Nat) : (s.setPhase p).eprAt m = s.eprAt m := rfl
@[simp] theorem State.setPhase_recAt (m : Nat) : (s.setPhase p).recAt m = s.recAt m := rfl
@[simp] theorem State.setPhase_pmaByte (x : Nat) : (s.setPhase p).pmaByte x = s.pmaByte x := rfl
@[simp] theorem State.setPhase_pmaWord (x : Nat) : (s.setPhase p).pmaWord x = s.pmaWord x := rfl
@[simp] theorem State.setPhase_bt (m : Nat) (j : BtSlot) : (s.setPhase p).bt m j = s.bt m j := rfl
@[simp] theorem State.setPhase_pmaBytes (x y : Nat) : (s.setPhase p).pmaBytes x y = s.pmaBytes x y := rfl
@[simp] theorem State.setPhase_wordsExist (x y : Nat) : (s.setPhase p).wordsExist x y = s.wordsExist x y := rfl
@[simp] theorem State.setPhase_bytesExist (x y : Nat) : (s.setPhase p).bytesExist x y = s.bytesExist x y := rfl
@[simp] theorem State.setPhase_configured (x : Nat) : (s.setPhase p).configured x = s.configured x := rfl

end

section
variable (s : State) (l : LineCoding)

@[simp] theorem State.setLc_cfg : (s.setLc l).cfg = s.cfg := rfl
@[simp] theorem State.setLc_recs : (s.setLc l).recs = s.recs := rfl
@[simp] theorem State.setLc_dev : (s.setLc l).dev = s.dev := rfl
@[simp] theorem State.setLc_lc : (s.setLc l).lc = l := rfl
@[simp] theorem State.setLc_seq : (s.setLc l).seq = s.seq := rfl
@[simp] theorem State.setLc_scratch : (s.setLc l).scratch = s.scratch := rfl
@[simp] theorem State.setLc_fault : (s.setLc l).fault = s.fault := rfl
@[simp] theorem State.setLc_epr : (s.setLc l).epr = s.epr := rfl
@[simp] theorem State.setLc_istrReset : (s.setLc l).istrReset = s.istrReset := rfl
@[simp] theorem State.setLc_daddr : (s.setLc l).daddr = s.daddr := rfl
@[simp] theorem State.setLc_pma : (s.setLc l).pma = s.pma := rfl
@[simp] theorem State.setLc_out : (s.setLc l).out = s.out := rfl
@[simp] theorem State.setLc_draws : (s.setLc l).draws = s.draws := rfl
@[simp] theorem State.setLc_script : (s.setLc l).script = s.script := rfl
@[simp] theorem State.setLc_handlerRet : (s.setLc l).handlerRet = s.handlerRet := rfl
@[simp] theorem State.setLc_appBuf : (s.setLc l).appBuf = s.appBuf := rfl
@[simp] theorem State.setLc_eprAt (m : Nat) : (s.setLc l).eprAt m = s.eprAt m := rfl
@[simp] theorem State.setLc_recAt (m : Nat) : (s.setLc l).recAt m = s.recAt m := rfl
@[simp] theorem State.setLc_pmaByte (x : Nat) : (s.setLc l).pmaByte x = s.pmaByte x := rfl
@[simp] theorem State.setLc_pmaWord (x : Nat) : (s.setLc l).pmaWord x = s.pmaWord x := rfl
@[simp] theorem State.setLc_bt (m : Nat) (j : BtSlot) : (s.setLc l).bt m j = s.bt m j := rfl
@[simp] theorem State.setLc_pmaBytes (x y : Nat) : (s.setLc l).pmaBytes x y = s.pmaBytes x y := rfl
@[simp] theorem State.setLc_wordsExist (x y : Nat) : (s.setLc l).wordsExist x y = s.wordsExist x y := rfl
@[simp] theorem State.setLc_bytesExist (x y : Nat) : (s.setLc l).bytesExist x y = s.bytesExist x y := rfl
@[simp] theorem State.setLc_configured (x : Nat) : (s.setLc l).configured x = s.configured x := rfl

end

section
variable (s : State) (q : Seq)

@[simp] theorem State.setSeq_cfg : (s.setSeq q).cfg = s.cfg := rfl
@[simp] theorem State.setSeq_recs : (s.setSeq q).recs = s.recs := rfl
@[simp] theorem State.setSeq_dev : (s.setSeq q).dev = s.dev := rfl
@[simp] theorem State.setSeq_lc : (s.setSeq q).lc = s.lc := rfl
@[simp] theorem State.setSeq_seq : (s.setSeq q).seq = q := rfl
@[simp] theorem State.setSeq_scratch : (s.setSeq q).scratch = s.scratch := rfl
@[simp] theorem State.setSeq_fault : (s.setSeq q).fault = s.fault := rfl
@[simp] theorem State.setSeq_epr : (s.setSeq q).epr = s.epr := rfl
@[simp] theorem State.setSeq_istrReset : (s.setSeq q).istrReset = s.istrReset := rfl
@[simp] theorem State.setSeq_daddr : (s.setSeq q).daddr = s.daddr := rfl
@[simp] theorem State.setSeq_pma : (s.setSeq q).pma = s.pma := rfl
@[simp] theorem State.setSeq_out : (s.setSeq q).out = s.out := rfl
@[simp] theorem State.setSeq_draws : (s.setSeq q).draws = s.draws := rfl
@[simp] theorem State.setSeq_script : (s.setSeq q).script = s.script := rfl
@[simp] theorem State.setSeq_handlerRet : (s.setSeq q).handlerRet = s.handlerRet := rfl
@[simp] theorem State.setSeq_appBuf : (s.setSeq q).appBuf = s.appBuf := rfl
@[simp] theorem State.setSeq_eprAt (m : Nat) : (s.setSeq q).eprAt m = s.eprAt m := rfl
@[simp] theorem State.setSeq_recAt (m : Nat) : (s.setSeq q).recAt m = s.recAt m := rfl
@[simp] theorem State.setSeq_pmaByte (x : Nat) : (s.setSeq q).pmaByte x = s.pmaByte x := rfl
@[simp] theorem State.setSeq_pmaWord (x : Nat) : (s.setSeq q).pmaWord x = s.pmaWord x := rfl
@[simp] theorem State.setSeq_bt (m : Nat) (j : BtSlot) : (s.setSeq q).bt m j = s.bt m j := rfl
@[simp] theorem State.setSeq_pmaBytes (x y : Nat) : (s.setSeq q).pmaBytes x y = s.pmaBytes x y := rfl
@[simp] theorem State.setSeq_wordsExist (x y : Nat) : (s.setSeq q).wordsExist x y = s.wordsExist x y := rfl
@[simp] theorem State.setSeq_bytesExist (x y : Nat) : (s.setSeq q).bytesExist x y = s.bytesExist x y := rfl
@[simp] theorem State.setSeq_configured (x : Nat) : (s.setSeq q).configured x = s.configured x := rfl

end

section
variable (s : State) (b : List Byte)

@[simp] theorem State.setScratch_cfg : (s.setScratch b).cfg = s.cfg := rfl
@[simp] theorem State.setScratch_recs : (s.setScratch b).recs = s.recs := rfl
@[simp] theorem State.setScratch_dev : (s.setScratch b).dev = s.dev := rfl
@[simp] theorem State.setScratch_lc : (s.setScratch b).lc = s.lc := rfl
@[simp] theorem State.setScratch_seq : (s.setScratch b).seq = s.seq := rfl
@[simp] theorem State.setScratch_scratch : (s.setScratch b).scratch = b := rfl
@[simp] theorem State.setScratch_fault : (s.setScratch b).fault = s.fault := rfl
@[simp] theorem State.setScratch_epr : (s.setScratch b).epr = s.epr := rfl
@[simp] theorem State.setScratch_istrReset : (s.setScratch b).istrReset = s.istrReset := rfl
@[simp] theorem State.setScratch_daddr : (s.setScratch b).daddr = s.daddr := rfl
@[simp] theorem State.setScratch_pma : (s.setScratch b).pma = s.pma := rfl
@[simp] theorem State.setScratch_out : (s.setScratch b).out = s.out := rfl
@[simp] theorem State.setScratch_draws : (s.setScratch b).draws = s.draws := rfl
@[simp] theorem State.setScratch_script : (s.setScratch b).script = s.script := rfl
@[simp] theorem State.setScratch_handlerRet : (s.setScratch b).handlerRet = s.handlerRet := rfl
@[simp] theorem State.setScratch_appBuf : (s.setScratch b).appBuf = s.appBuf := rfl
@[simp] theorem State.setScratch_eprAt (m : Nat) : (s.setScratch b).eprAt m = s.eprAt m := rfl
@[simp] theorem State.setScratch_recAt (m : Nat) : (s.setScratch b).recAt m = s.recAt m := rfl
@[simp] theorem State.setScratch_pmaByte (x : Nat) : (s.setScratch b).pmaByte x = s.pmaByte x := rfl
@[simp] theorem State.setScratch_pmaWord (x : Nat) : (s.setScratch b).pmaWord x = s.pmaWord x := rfl
@[simp] theorem State.setScratch_bt (m : Nat) (j : BtSlot) : (s.setScratch b).bt m j = s.bt m j := rfl
@[simp] theorem State.setScratch_pmaBytes (x y : Nat) : (s.setScratch b).pmaBytes x y = s.pmaBytes x y := rfl
@[simp] theorem State.setScratch_wordsExist (x y : Nat) : (s.setScratch b).wordsExist x y = s.wordsExist x y := rfl
@[simp] theorem State.setScratch_bytesExist (x y : Nat) : (s.setScratch b).bytesExist x y = s.bytesExist x y := rfl
@[simp] theorem State.setScratch_configured (x : Nat) : (s.setScratch b).configured x = s.configured x := rfl

end

section
variable (s : State) (f : Fault)

@[simp] theorem State.setFault_cfg : (s.setFault f).cfg = s.cfg := rfl
@[simp] theorem State.setFault_recs : (s.setFault f).recs = s.recs := rfl
@[simp] theorem State.setFault_dev : (s.setFault f).dev = s.dev := rfl
@[simp] theorem State.setFault_lc : (s.setFault f).lc = s.lc := rfl
@[simp] theorem State.setFault_seq : (s.setFault f).seq = s.seq := rfl
@[simp] theorem State.setFault_scratch : (s.setFault f).scratch = s.scratch := rfl
@[simp] theorem State.setFault_fault : (s.setFault f).fault = some f := rfl
@[simp] theorem State.setFault_epr : (s.setFault f).epr = s.epr := rfl
@[simp] theorem State.setFault_istrReset : (s.setFault f).istrReset = s.istrReset := rfl
@[simp] theorem State.setFault_daddr : (s.setFault f).daddr = s.daddr := rfl
@[simp] theorem State.setFault_pma : (s.setFault f).pma = s.pma := rfl
@[simp] theorem State.setFault_out : (s.setFault f).out = s.out := rfl
@[simp] theorem State.setFault_draws : (s.setFault f).draws = s.draws := rfl
@[simp] theorem State.setFault_script : (s.setFault f).script = s.script := rfl
@[simp] theorem State.setFault_handlerRet : (s.setFault f).handlerRet = s.handlerRet := rfl
@[simp] theorem State.setFault_appBuf : (s.setFault f).appBuf = s.appBuf := rfl
@[simp] theorem State.setFault_eprAt (m : Nat) : (s.setFault f).eprAt m = s.eprAt m := rfl
@[simp] theorem State.setFault_recAt (m : Nat) : (s.setFault f).recAt m = s.recAt m := rfl
@[simp] theorem State.setFault_pmaByte (x : Nat) : (s.setFault f).pmaByte x = s.pmaByte x := rfl
@[simp] theorem State.setFault_pmaWord (x : Nat) : (s.setFault f).pmaWord x = s.pmaWord x := rfl
@[simp] theorem State.setFault_bt (m : Nat) (j : BtSlot) : (s.setFault f).bt m j = s.bt m j := rfl
@[simp] theorem State.setFault_pmaBytes (x y : Nat) : (s.setFault f).pmaBytes x y = s.pmaBytes x y := rfl
@[simp] theorem State.setFault_wordsExist (x y : Nat) : (s.setFault f).wordsExist x y = s.wordsExist x y := rfl
@[simp] theorem State.setFault_bytesExist (x y : Nat) : (s.setFault f).bytesExist x y = s.bytesExist x y := rfl
@[simp] theorem State.setFault_configured (x : Nat) : (s.setFault f).configured x = s.configured x := rfl

end

section
variable (s : State) (b : Bool)

@[simp] theorem State.setIstrReset_cfg : (s.setIstrReset b).cfg = s.cfg := rfl
@[simp] theorem State.setIstrReset_recs : (s.setIstrReset b).recs = s.recs := rfl
@[simp] theorem State.setIstrReset_dev : (s.setIstrReset b).dev = s.dev := rfl
@[simp] theorem State.setIstrReset_lc : (s.setIstrReset b).lc = s.lc := rfl
@[simp] theorem State.setIstrReset_seq : (s.setIstrReset b).seq = s.seq := rfl
@[simp] theorem State.setIstrReset_scratch : (s.setIstrReset b).scratch = s.scratch := rfl
@[simp] theorem State.setIstrReset_fault : (s.setIstrReset b).fault = s.fault := rfl
@[simp] theorem State.setIstrReset_epr : (s.setIstrReset b).epr = s.epr := rfl
@[simp] theorem State.setIstrReset_istrReset : (s.setIstrReset b).istrReset = b := rfl
@[simp] theorem State.setIstrReset_daddr : (s.setIstrReset b).daddr = s.daddr := rfl
@[simp] theorem State.setIstrReset_pma : (s.setIstrReset b).pma = s.pma := rfl
@[simp] theorem State.setIstrReset_out : (s.setIstrReset b).out = s.out := rfl
@[simp] theorem State.setIstrReset_draws : (s.setIstrReset b).draws = s.draws := rfl
@[simp] theorem State.setIstrReset_script : (s.setIstrReset b).script = s.script := rfl
@[simp] theorem State.setIstrReset_handlerRet : (s.setIstrReset b).handlerRet = s.handlerRet := rfl
@[simp] theorem State.setIstrReset_appBuf : (s.setIstrReset b).appBuf = s.appBuf := rfl
@[simp] theorem State.setIstrReset_eprAt (m : Nat) : (s.setIstrReset b).eprAt m = s.eprAt m := rfl
@[simp] theorem State.setIstrReset_recAt (m : Nat) : (s.setIstrReset b).recAt m = s.recAt m := rfl
@[simp] theorem State.setIstrReset_pmaByte (x : Nat) : (s.setIstrReset b).pmaByte x = s.pmaByte x := rfl
@[simp] theorem State.setIstrReset_pmaWord (x : Nat) : (s.setIstrReset b).pmaWord x = s.pmaWord x := rfl
@[simp] theorem State.setIstrReset_bt (m : Nat) (j : BtSlot) : (s.setIstrReset b).bt m j = s.bt m j := rfl
@[simp] theorem State.setIstrReset_pmaBytes (x y : Nat) : (s.setIstrReset b).pmaBytes x y = s.pmaBytes x y := rfl
@[simp] theorem State.setIstrReset_wordsExist (x y : Nat) : (s.setIstrReset b).wordsExist x y = s.wordsExist x y := rfl
@[simp] theorem State.setIstrReset_bytesExist (x y : Nat) : (s.setIstrReset b).bytesExist x y = s.bytesExist x y := rfl
@[simp] theorem State.setIstrReset_configured (x : Nat) : (s.setIstrReset b).configured x = s.configured x := rfl

end

section
variable (s : State) (d : Byte)

@[simp] theorem State.setDaddr_cfg : (s.setDaddr d).cfg = s.cfg := rfl
@[simp] theorem State.setDaddr_recs : (s.setDaddr d).recs = s.recs := rfl
@[simp] theorem State.setDaddr_dev : (s.setDaddr d).dev = s.dev := rfl
@[simp] theorem State.setDaddr_lc : (s.setDaddr d).lc = s.lc := rfl
@[simp] theorem State.setDaddr_seq : (s.setDaddr d).seq = s.seq := rfl
@[simp] theorem State.setDaddr_scratch : (s.setDaddr d).scratch = s.scratch := rfl
@[simp] theorem State.setDaddr_fault : (s.setDaddr d).fault = s.fault := rfl
@[simp] theorem State.setDaddr_epr : (s.setDaddr d).epr = s.epr := rfl
@[simp] theorem State.setDaddr_istrReset : (s.setDaddr d).istrReset = s.istrReset := rfl
@[simp] theorem State.setDaddr_daddr : (s.setDaddr d).daddr = d := rfl
@[simp] theorem State.setDaddr_pma : (s.setDaddr d).pma = s.pma := rfl
@[simp] theorem State.setDaddr_out : (s.setDaddr d).out = s.out := rfl
@[simp] theorem State.setDaddr_draws : (s.setDaddr d).draws = s.draws := rfl
@[simp] theorem State.setDaddr_script : (s.setDaddr d).script = s.script := rfl
@[simp] theorem State.setDaddr_handlerRet : (s.setDaddr d).handlerRet = s.handlerRet := rfl
@[simp] theorem State.setDaddr_appBuf : (s.setDaddr d).appBuf = s.appBuf := rfl
@[simp] theorem State.setDaddr_eprAt (m : Nat) : (s.setDaddr d).eprAt m = s.eprAt m := rfl
@[simp] theorem State.setDaddr_recAt (m : Nat) : (s.setDaddr d).recAt m = s.recAt m := rfl
@[simp] theorem State.setDaddr_pmaByte (x : Nat) : (s.setDaddr d).pmaByte x = s.pmaByte x := rfl
@[simp] theorem State.setDaddr_pmaWord (x : Nat) : (s.setDaddr d).pmaWord x = s.pmaWord x := rfl
@[simp] theorem State.setDaddr_bt (m : Nat) (j : BtSlot) : (s.setDaddr d).bt m j = s.bt m j := rfl
@[simp] theorem State.setDaddr_pmaBytes (x y : Nat) : (s.setDaddr d).pmaBytes x y = s.pmaBytes x y := rfl
@[simp] theorem State.setDaddr_wordsExist (x y : Nat) : (s.setDaddr d).wordsExist x y = s.wordsExist x y := rfl
@[simp] theorem State.setDaddr_bytesExist (x y : Nat) : (s.setDaddr d).bytesExist x y = s.bytesExist x y := rfl
@[simp] theorem State.setDaddr_configured (x : Nat) : (s.setDaddr d).configured x = s.configured x := rfl

end

section
variable (s : State) (e : Event)

@[simp] theorem State.emit_cfg : (s.emit e).cfg = s.cfg := rfl
@[simp] theorem State.emit_recs : (s.emit e).recs = s.recs := rfl
@[simp] theorem State.emit_dev : (s.emit e).dev = s.dev := rfl
@[simp] theorem State.emit_lc : (s.emit e).lc = s.lc := rfl
@[simp] theorem State.emit_seq : (s.emit e).seq = s.seq := rfl
@[simp] theorem State.emit_scratch : (s.emit e).scratch = s.scratch := rfl
@[simp] theorem State.emit_fault : (s.emit e).fault = s.fault := rfl
@[simp] theorem State.emit_epr : (s.emit e).epr = s.epr := rfl
@[simp] theorem State.emit_istrReset : (s.emit e).istrReset = s.istrReset := rfl
@[simp] theorem State.emit_daddr : (s.emit e).daddr = s.daddr := rfl
@[simp] theorem State.emit_pma : (s.emit e).pma = s.pma := rfl
@[simp] theorem State.emit_out : (s.emit e).out = s.out ++ [e] := rfl
@[simp] theorem State.emit_draws : (s.emit e).draws = s.draws := rfl
@[simp] theorem State.emit_script : (s.emit e).script = s.script := rfl
@[simp] theorem State.emit_handlerRet : (s.emit e).handlerRet = s.handlerRet := rfl
@[simp] theorem State.emit_appBuf : (s.emit e).appBuf = s.appBuf := rfl
@[simp] theorem State.emit_eprAt (m : Nat) : (s.emit e).eprAt m = s.eprAt m := rfl
@[simp] theorem State.emit_recAt (m : Nat) : (s.emit e).recAt m = s.recAt m := rfl
@[simp] theorem State.emit_pmaByte (x : Nat) : (s.emit e).pmaByte x = s.pmaByte x := rfl
@[simp] theorem State.emit_pmaWord (x : Nat) : (s.emit e).pmaWord x = s.pmaWord x := rfl
@[simp] theorem State.emit_bt (m : Nat) (j : BtSlot) : (s.emit e).bt m j = s.bt m j := rfl
@[simp] theorem State.emit_pmaBytes (x y : Nat) : (s.emit e).pmaBytes x y = s.pmaBytes x y := rfl
@[simp] theorem State.emit_wordsExist (x y : Nat) : (s.emit e).wordsExist x y = s.wordsExist x y := rfl
@[simp] theorem State.emit_bytesExist (x y : Nat) : (s.emit e).bytesExist x y = s.bytesExist x y := rfl
@[simp] theorem State.emit_configured (x : Nat) : (s.emit e).configured x = s.configured x := rfl

end

section
variable (s : State)

@[simp] theorem State.bumpDraws_cfg : (s.bumpDraws).cfg = s.cfg := rfl
@[simp] theorem State.bumpDraws_recs : (s.bumpDraws).recs = s.recs := rfl
@[simp] theorem State.bumpDraws_dev : (s.bumpDraws).dev = s.dev := rfl
@[simp] theorem State.bumpDraws_lc : (s.bumpDraws).lc = s.lc := rfl
@[simp] theorem State.bumpDraws_seq : (s.bumpDraws).seq = s.seq := rfl
@[simp] theorem State.bumpDraws_scratch : (s.bumpDraws).scratch = s.scratch := rfl
@[simp] theorem State.bumpDraws_fault : (s.bumpDraws).fault = s.fault := rfl
@[simp] theorem State.bumpDraws_epr : (s.bumpDraws).epr = s.epr := rfl
@[simp] theorem State.bumpDraws_istrReset : (s.bumpDraws).istrReset = s.istrReset := rfl
@[simp] theorem State.bumpDraws_daddr : (s.bumpDraws).daddr = s.daddr := rfl
@[simp] theorem State.bumpDraws_pma : (s.bumpDraws).pma = s.pma := rfl
@[simp] theorem State.bumpDraws_out : (s.bumpDraws).out = s.out := rfl
@[simp] theorem State.bumpDraws_draws : (s.bumpDraws).draws = s.draws + 1 := rfl
@[simp] theorem State.bumpDraws_script : (s.bumpDraws).script = s.script := rfl
@[simp] theorem State.bumpDraws_handlerRet : (s.bumpDraws).handlerRet = s.handlerRet := rfl
@[simp] theorem State.bumpDraws_appBuf : (s.bumpDraws).appBuf = s.appBuf := rfl
@[simp] theorem State.bumpDraws_eprAt (m : Nat) : (s.bumpDraws).eprAt m = s.eprAt m := rfl
@[simp] theorem State.bumpDraws_recAt (m : Nat) : (s.bumpDraws).recAt m = s.recAt m := rfl
@[simp] theorem State.bumpDraws_pmaByte (x : Nat) : (s.bumpDraws).pmaByte x = s.pmaByte x := rfl
@[simp] theorem State.bumpDraws_pmaWord (x : Nat) : (s.bumpDraws).pmaWord x = s.pmaWord x := rfl
@[simp] theorem State.bumpDraws_bt (m : Nat) (j : BtSlot) : (s.bumpDraws).bt m j = s.bt m j := rfl
@[simp] theorem State.bumpDraws_pmaBytes (x y : Nat) : (s.bumpDraws).pmaBytes x y = s.pmaBytes x y := rfl
@[simp] theorem State.bumpDraws_wordsExist (x y : Nat) : (s.bumpDraws).wordsExist x y = s.wordsExist x y := rfl
@[simp] theorem State.bumpDraws_bytesExist (x y : Nat) : (s.bumpDraws).bytesExist x y = s.bytesExist x y := rfl
@[simp] theorem State.bumpDraws_configured (x : Nat) : (s.bumpDraws).configured x = s.configured x := rfl

end

section
variable (s : State) (ms : List Move)

@[simp] theorem State.setScript_cfg : (s.setScript ms).cfg = s.cfg := rfl
@[simp] theorem State.setScript_recs : (s.setScript ms).recs = s.recs := rfl
@[simp] theorem State.setScript_dev : (s.setScript ms).dev = s.dev := rfl
@[simp] theorem State.setScript_lc : (s.setScript ms).lc = s.lc := rfl
@[simp] theorem State.setScript_seq : (s.setScript ms).seq = s.seq := rfl
@[simp] theorem State.setScript_scratch : (s.setScript ms).scratch = s.scratch := rfl
@[simp] theorem State.setScript_fault : (s.setScript ms).fault = s.fault := rfl
@[simp] theorem State.setScript_epr : (s.setScript ms).epr = s.epr := rfl
@[simp] theorem State.setScript_istrReset : (s.setScript ms).istrReset = s.istrReset := rfl
@[simp] theorem State.setScript_daddr : (s.setScript ms).daddr = s.daddr := rfl
@[simp] theorem State.setScript_pma : (s.setScript ms).pma = s.pma := rfl
@[simp] theorem State.setScript_out : (s.setScript ms).out = s.out := rfl
@[simp] theorem State.setScript_draws : (s.setScript ms).draws = s.draws := rfl
@[simp] theorem State.setScript_script : (s.setScript ms).script = ms := rfl
@[simp] theorem State.setScript_handlerRet : (s.setScript ms).handlerRet = s.handlerRet := rfl
@[simp] theorem State.setScript_appBuf : (s.setScript ms).appBuf = s.appBuf := rfl
@[simp] theorem State.setScript_eprAt (m : Nat) : (s.setScript ms).eprAt m = s.eprAt m := rfl
@[simp] theorem State.setScript_recAt (m : Nat) : (s.setScript ms).recAt m = s.recAt m := rfl
@[simp] theorem State.setScript_pmaByte (x : Nat) : (s.setScript ms).pmaByte x = s.pmaByte x := rfl
@[simp] theorem State.setScript_pmaWord (x : Nat) : (s.setScript ms).pmaWord x = s.pmaWord x := rfl
@[simp] theorem State.setScript_bt (m : Nat) (j : BtSlot) : (s.setScript ms).bt m j = s.bt m j := rfl
@[simp] theorem State.setScript_pmaBytes (x y : Nat) : (s.setScript ms).pmaBytes x y = s.pmaBytes x y := rfl
@[simp] theorem State.setScript_wordsExist (x y : Nat) : (s.setScript ms).wordsExist x y = s.wordsExist x y := rfl
@[simp] theorem State.setScript_bytesExist (x y : Nat) : (s.setScript ms).bytesExist x y = s.bytesExist x y := rfl
@[simp] theorem State.setScript_configured (x : Nat) : (s.setScript ms).configured x = s.configured x := rfl

end

section
variable (s : State) (r : HandlerRet)

@[simp] theorem State.setHandlerRet_cfg : (s.setHandlerRet r).cfg = s.cfg := rfl
@[simp] theorem State.setHandlerRet_recs : (s.setHandlerRet r).recs = s.recs := rfl
@[simp] theorem State.setHandlerRet_dev : (s.setHandlerRet r).dev = s.dev := rfl
@[simp] theorem State.setHandlerRet_lc : (s.setHandlerRet r).lc = s.lc := rfl
@[simp] theorem State.setHandlerRet_seq : (s.setHandlerRet r).seq = s.seq := rfl
@[simp] theorem State.setHandlerRet_scratch : (s.setHandlerRet r).scratch = s.scratch := rfl
@[simp] theorem State.setHandlerRet_fault : (s.setHandlerRet r).fault = s.fault := rfl
@[simp] theorem State.setHandlerRet_epr : (s.setHandlerRet r).epr = s.epr := rfl
@[simp] theorem State.setHandlerRet_istrReset : (s.setHandlerRet r).istrReset = s.istrReset := rfl
@[simp] theorem State.setHandlerRet_daddr : (s.setHandlerRet r).daddr = s.daddr := rfl
@[simp] theorem State.setHandlerRet_pma : (s.setHandlerRet r).pma = s.pma := rfl
@[simp] theorem State.setHandlerRet_out : (s.setHandlerRet r).out = s.out := rfl
@[simp] theorem State.setHandlerRet_draws : (s.setHandlerRet r).draws = s.draws := rfl
@[simp] theorem State.setHandlerRet_script : (s.setHandlerRet r).script = s.script := rfl
@[simp] theorem State.setHandlerRet_handlerRet : (s.setHandlerRet r).handlerRet = r := rfl
@[simp] theorem State.setHandlerRet_appBuf : (s.setHandlerRet r).appBuf = s.appBuf := rfl
@[simp] theorem State.setHandlerRet_eprAt (m : Nat) : (s.setHandlerRet r).eprAt m = s.eprAt m := rfl
@[simp] theorem State.setHandlerRet_recAt (m : Nat) : (s.setHandlerRet r).recAt m = s.recAt m := rfl
@[simp] theorem State.setHandlerRet_pmaByte (x : Nat) : (s.setHandlerRet r).pmaByte x = s.pmaByte x := rfl
@[simp] theorem State.setHandlerRet_pmaWord (x : Nat) : (s.setHandlerRet r).pmaWord x = s.pmaWord x := rfl
@[simp] theorem State.setHandlerRet_bt (m : Nat) (j : BtSlot) : (s.setHandlerRet r).bt m j = s.bt m j := rfl
@[simp] theorem State.setHandlerRet_pmaBytes (x y : Nat) : (s.setHandlerRet r).pmaBytes x y = s.pmaBytes x y := rfl
@[simp] theorem State.setHandlerRet_wordsExist (x y : Nat) : (s.setHandlerRet r).wordsExist x y = s.wordsExist x y := rfl
@[simp] theorem State.setHandlerRet_bytesExist (x y : Nat) : (s.setHandlerRet r).bytesExist x y = s.bytesExist x y := rfl
@[simp] theorem State.setHandlerRet_configured (x : Nat) : (s.setHandlerRet r).configured x = s.configured x := rfl

end

section
variable (s : State) (b : List Byte)

@[simp] theorem State.setAppBuf_cfg : (s.setAppBuf b).cfg = s.cfg := rfl
@[simp] theorem State.setAppBuf_recs : (s.setAppBuf b).recs = s.recs := rfl
@[simp] theorem State.setAppBuf_dev : (s.setAppBuf b).dev = s.dev := rfl
@[simp] theorem State.setAppBuf_lc : (s.setAppBuf b).lc = s.lc := rfl
@[simp] theorem State.setAppBuf_seq : (s.setAppBuf b).seq = s.seq := rfl
@[simp] theorem State.setAppBuf_scratch : (s.setAppBuf b).scratch = s.scratch := rfl
@[simp] theorem State.setAppBuf_fault : (s.setAppBuf b).fault = s.fault := rfl
@[simp] theorem State.setAppBuf_epr : (s.setAppBuf b).epr = s.epr := rfl
@[simp] theorem State.setAppBuf_istrReset : (s.setAppBuf b).istrReset = s.istrReset := rfl
@[simp] theorem State.setAppBuf_daddr : (s.setAppBuf b).daddr = s.daddr := rfl
@[simp] theorem State.setAppBuf_pma : (s.setAppBuf b).pma = s.pma := rfl
@[simp] theorem State.setAppBuf_out : (s.setAppBuf b).out = s.out := rfl
@[simp] theorem State.setAppBuf_draws : (s.setAppBuf b).draws = s.draws := rfl
@[simp] theorem State.setAppBuf_script : (s.setAppBuf b).script = s.script := rfl
@[simp] theorem State.setAppBuf_handlerRet : (s.setAppBuf b).handlerRet = s.handlerRet := rfl
@[simp] theorem State.setAppBuf_appBuf : (s.setAppBuf b).appBuf = b := rfl
@[simp] theorem State.setAppBuf_eprAt (m : Nat) : (s.setAppBuf b).eprAt m = s.eprAt m := rfl
@[simp] theorem State.setAppBuf_recAt (m : Nat) : (s.setAppBuf b).recAt m = s.recAt m := rfl
@[simp] theorem State.setAppBuf_pmaByte (x : Nat) : (s.setAppBuf b).pmaByte x = s.pmaByte x := rfl
@[simp] theorem State.setAppBuf_pmaWord (x : Nat) : (s.setAppBuf b).pmaWord x = s.pmaWord x := rfl
@[simp] theorem State.setAppBuf_bt (m : Nat) (j : BtSlot) : (s.setAppBuf b).bt m j = s.bt m j := rfl
@[simp] theorem State.setAppBuf_pmaBytes (x y : Nat) : (s.setAppBuf b).pmaBytes x y = s.pmaBytes x y := rfl
@[simp] theorem State.setAppBuf_wordsExist (x y : Nat) : (s.setAppBuf b).wordsExist x y = s.wordsExist x y := rfl
@[simp] theorem State.setAppBuf_bytesExist (x y : Nat) : (s.setAppBuf b).bytesExist x y = s.bytesExist x y := rfl
@[simp] theorem State.setAppBuf_configured (x : Nat) : (s.setAppBuf b).configured x = s.configured x := rfl

end

section
variable (s : State) (a : Nat) (v : Byte)

@[simp] theorem State.setPmaByte_cfg : (s.setPmaByte a v).cfg = s.cfg := rfl
@[simp] theorem State.setPmaByte_recs : (s.setPmaByte a v).recs = s.recs := rfl
@[simp] theorem State.setPmaByte_dev : (s.setPmaByte a v).dev = s.dev := rfl
@[simp] theorem State.setPmaByte_lc : (s.setPmaByte a v).lc = s.lc := rfl
@[simp] theorem State.setPmaByte_seq : (s.setPmaByte a v).seq = s.seq := rfl
@[simp] theorem State.setPmaByte_scratch : (s.setPmaByte a v).scratch = s.scratch := rfl
@[simp] theorem State.setPmaByte_fault : (s.setPmaByte a v).fault = s.fault := rfl
@[simp] theorem State.setPmaByte_epr : (s.setPmaByte a v).epr = s.epr := rfl
@[simp] theorem State.setPmaByte_istrReset : (s.setPmaByte a v).istrReset = s.istrReset := rfl
@[simp] theorem State.setPmaByte_daddr : (s.setPmaByte a v).daddr = s.daddr := rfl
@[simp] theorem State.setPmaByte_pma : (s.setPmaByte a v).pma = Memory.store s.pma a v := rfl
@[simp] theorem State.setPmaByte_out : (s.setPmaByte a v).out = s.out := rfl
@[simp] theorem State.setPmaByte_draws : (s.setPmaByte a v).draws = s.draws := rfl
@[simp] theorem State.setPmaByte_script : (s.setPmaByte a v).script = s.script := rfl
@[simp] theorem State.setPmaByte_handlerRet : (s.setPmaByte a v).handlerRet = s.handlerRet := rfl
@[simp] theorem State.setPmaByte_appBuf : (s.setPmaByte a v).appBuf = s.appBuf := rfl
@[simp] theorem State.setPmaByte_eprAt (m : Nat) : (s.setPmaByte a v).eprAt m = s.eprAt m := rfl
@[simp] theorem State.setPmaByte_recAt (m : Nat) : (s.setPmaByte a v).recAt m = s.recAt m := rfl
@[simp] theorem State.setPmaByte_wordsExist (x y : Nat) : (s.setPmaByte a v).wordsExist x y = s.wordsExist x y := rfl
@[simp] theorem State.setPmaByte_bytesExist (x y : Nat) : (s.setPmaByte a v).bytesExist x y = s.bytesExist x y := rfl
@[simp] theorem State.setPmaByte_configured (x : Nat) : (s.setPmaByte a v).configured x = s.configured x := rfl

end

section
variable (s : State) (a : Nat) (w : Word)

@[simp] theorem State.setPmaWord_cfg : (s.setPmaWord a w).cfg = s.cfg := rfl
@[simp] theorem State.setPmaWord_recs : (s.setPmaWord a w).recs = s.recs := rfl
@[simp] theorem State.setPmaWord_dev : (s.setPmaWord a w).dev = s.dev := rfl
@[simp] theorem State.setPmaWord_lc : (s.setPmaWord a w).lc = s.lc := rfl
@[simp] theorem State.setPmaWord_seq : (s.setPmaWord a w).seq = s.seq := rfl
@[simp] theorem State.setPmaWord_scratch : (s.setPmaWord a w).scratch = s.scratch := rfl
@[simp] theorem State.setPmaWord_fault : (s.setPmaWord a w).fault = s.fault := rfl
@[simp] theorem State.setPmaWord_epr : (s.setPmaWord a w).epr = s.epr := rfl
@[simp] theorem State.setPmaWord_istrReset : (s.setPmaWord a w).istrReset = s.istrReset := rfl
@[simp] theorem State.setPmaWord_daddr : (s.setPmaWord a w).daddr = s.daddr := rfl
@[simp] theorem State.setPmaWord_out : (s.setPmaWord a w).out = s.out := rfl
@[simp] theorem State.setPmaWord_draws : (s.setPmaWord a w).draws = s.draws := rfl
@[simp] theorem State.setPmaWord_script : (s.setPmaWord a w).script = s.script := rfl
@[simp] theorem State.setPmaWord_handlerRet : (s.setPmaWord a w).handlerRet = s.handlerRet := rfl
@[simp] theorem State.setPmaWord_appBuf : (s.setPmaWord a w).appBuf = s.appBuf := rfl
@[simp] theorem State.setPmaWord_eprAt (m : Nat) : (s.setPmaWord a w).eprAt m = s.eprAt m := rfl
@[simp] theorem State.setPmaWord_recAt (m : Nat) : (s.setPmaWord a w).recAt m = s.recAt m := rfl
@[simp] theorem State.setPmaWord_wordsExist (x y : Nat) : (s.setPmaWord a w).wordsExist x y = s.wordsExist x y := rfl
@[simp] theorem State.setPmaWord_bytesExist (x y : Nat) : (s.setPmaWord a w).bytesExist x y = s.bytesExist x y := rfl
@[simp] theorem State.setPmaWord_configured (x : Nat) : (s.setPmaWord a w).configured x = s.configured x := rfl

end

section
variable (s : State) (n : Nat) (k : BtSlot) (w : Word)

@[simp] theorem State.setBt_cfg : (s.setBt n k w).cfg = s.cfg := rfl
@[simp] theorem State.setBt_recs : (s.setBt n k w).recs = s.recs := rfl
@[simp] theorem State.setBt_dev : (s.setBt n k w).dev = s.dev := rfl
@[simp] theorem State.setBt_lc : (s.setBt n k w).lc = s.lc := rfl
@[simp] theorem State.setBt_seq : (s.setBt n k w).seq = s.seq := rfl
@[simp] theorem State.setBt_scratch : (s.setBt n k w).scratch = s.scratch := rfl
@[simp] theorem State.setBt_fault : (s.setBt n k w).fault = s.fault := rfl
@[simp] theorem State.setBt_epr : (s.setBt n k w).epr = s.epr := rfl
@[simp] theorem State.setBt_istrReset : (s.setBt n k w).istrReset = s.istrReset := rfl
@[simp] theorem State.setBt_daddr : (s.setBt n k w).daddr = s.daddr := rfl
@[simp] theorem State.setBt_out : (s.setBt n k w).out = s.out := rfl
@[simp] theorem State.setBt_draws : (s.setBt n k w).draws = s.draws := rfl
@[simp] theorem State.setBt_script : (s.setBt n k w).script = s.script := rfl
@[simp] theorem State.setBt_handlerRet : (s.setBt n k w).handlerRet = s.handlerRet := rfl
@[simp] theorem State.setBt_appBuf : (s.setBt n k w).appBuf = s.appBuf := rfl
@[simp] theorem State.setBt_eprAt (m : Nat) : (s.setBt n k w).eprAt m = s.eprAt m := rfl
@[simp] theorem State.setBt_recAt (m : Nat) : (s.setBt n k w).recAt m = s.recAt m := rfl
@[simp] theorem State.setBt_wordsExist (x y : Nat) : (s.setBt n k w).wordsExist x y = s.wordsExist x y := rfl
@[simp] theorem State.setBt_bytesExist (x y : Nat) : (s.setBt n k w).bytesExist x y = s.bytesExist x y := rfl
@[simp] theorem State.setBt_configured (x : Nat) : (s.setBt n k w).configured x = s.configured x := rfl

end

section
variable (s : State) (n : Nat) (w : Word)

@[simp] theorem State.regWriteEpr_cfg : (s.regWriteEpr n w).cfg = s.cfg := rfl
@[simp] theorem State.regWriteEpr_recs : (s.regWriteEpr n w).recs = s.recs := rfl
@[simp] theorem State.regWriteEpr_dev : (s.regWriteEpr n w).dev = s.dev := rfl
@[simp] theorem State.regWriteEpr_lc : (s.regWriteEpr n w).lc = s.lc := rfl
@[simp] theorem State.regWriteEpr_seq : (s.regWriteEpr n w).seq = s.seq := rfl
@[simp] theorem State.regWriteEpr_scratch : (s.regWriteEpr n w).scratch = s.scratch := rfl
@[simp] theorem State.regWriteEpr_fault : (s.regWriteEpr n w).fault = s.fault := rfl
@[simp] theorem State.regWriteEpr_epr : (s.regWriteEpr n w).epr = s.epr.set n (regWrite (s.eprAt n) w) := rfl
@[simp] theorem State.regWriteEpr_istrReset : (s.regWriteEpr n w).istrReset = s.istrReset := rfl
@[simp] theorem State.regWriteEpr_daddr : (s.regWriteEpr n w).daddr = s.daddr := rfl
@[simp] theorem State.regWriteEpr_pma : (s.regWriteEpr n w).pma = s.pma := rfl
@[simp] theorem State.regWriteEpr_out : (s.regWriteEpr n w).out = s.out := rfl
@[simp] theorem State.regWriteEpr_draws : (s.regWriteEpr n w).draws = s.draws := rfl
@[simp] theorem State.regWriteEpr_script : (s.regWriteEpr n w).script = s.script := rfl
@[simp] theorem State.regWriteEpr_handlerRet : (s.regWriteEpr n w).handlerRet = s.handlerRet := rfl
@[simp] theorem State.regWriteEpr_appBuf : (s.regWriteEpr n w).appBuf = s.appBuf := rfl
@[simp] theorem State.regWriteEpr_recAt (m : Nat) : (s.regWriteEpr n w).recAt m = s.recAt m := rfl
@[simp] theorem State.regWriteEpr_pmaByte (x : Nat) : (s.regWriteEpr n w).pmaByte x = s.pmaByte x := rfl
@[simp] theorem State.regWriteEpr_pmaWord (x : Nat) : (s.regWriteEpr n w).pmaWord x = s.pmaWord x := rfl
@[simp] theorem State.regWriteEpr_bt (m : Nat) (j : BtSlot) : (s.regWriteEpr n w).bt m j = s.bt m j := rfl
@[simp] theorem State.regWriteEpr_pmaBytes (x y : Nat) : (s.regWriteEpr n w).pmaBytes x y = s.pmaBytes x y := rfl
@[simp] theorem State.regWriteEpr_wordsExist (x y : Nat) : (s.regWriteEpr n w).wordsExist x y = s.wordsExist x y := rfl
@[simp] theorem State.regWriteEpr_bytesExist (x y : Nat) : (s.regWriteEpr n w).bytesExist x y = s.bytesExist x y := rfl
@[simp] theorem State.regWriteEpr_configured (x : Nat) : (s.regWriteEpr n w).configured x = s.configured x := rfl

end

end Sys2Proof.Machine
end

