-- ==== Sys2Proof/Laws/Memory.lean ====
section
/-! SUPPORT. Packet memory: read after write, canonical form, words, and all that a copy of whole words does. -/

namespace Sys2Proof

theorem getLsbD_wordOf (lo hi : Byte) (i : Nat) :
    (wordOf lo hi).getLsbD i = if i < 8 then lo.getLsbD i else hi.getLsbD (i - 8) :=
  (BitVec.getLsbD_append (x := hi) (y := lo) (i := i)).trans (by split <;> rfl)

@[simp] theorem lowByte_wordOf (lo hi : Byte) : lowByte (wordOf lo hi) = lo := by
  ext i h
  simp [lowByte, BitVec.getElem_extractLsb', getLsbD_wordOf, h, BitVec.getLsbD_eq_getElem]

@[simp] theorem highByte_wordOf (lo hi : Byte) : highByte (wordOf lo hi) = hi := by
  ext i h
  simp [highByte, BitVec.getElem_extractLsb', getLsbD_wordOf, h, BitVec.getLsbD_eq_getElem]

@[simp] theorem wordOf_bytes (w : Word) : wordOf (lowByte w) (highByte w) = w := by
  apply BitVec.eq_of_getLsbD_eq
  intro i hi
  simp only [getLsbD_wordOf, lowByte, highByte, BitVec.getLsbD_extractLsb']
  split
  · simp [*]
  · have : i - 8 < 8 := by omega
    have : 8 + (i - 8) = i := by omega
    simp [*]

namespace Machine

theorem Memory.lookup_store (m : List Host.Cell) (a b : Nat) (v : Byte) :
    Memory.lookup (Memory.store m a v) b = if b = a then some v else Memory.lookup m b := by
  induction m with
  | nil => by_cases h : b = a <;> simp [Memory.store, Memory.lookup, h]
  | cons c rest ih =>
    obtain ⟨k, w⟩ := c
    simp only [Memory.store]
    split
    · simp only [Memory.lookup]; split_ifs <;> first | rfl | omega
    · split
      · simp only [Memory.lookup]; split_ifs <;> first | rfl | omega
      · simp only [Memory.lookup, ih]; split_ifs <;> first | rfl | omega

theorem Memory.store_of_lookup {m : List Host.Cell} {a : Nat} {v : Byte} (h : Memory.lookup m a = some v) :
    Memory.store m a v = m := by
  induction m with
  | nil => simp [Memory.lookup] at h
  | cons c rest ih =>
    obtain ⟨k, w⟩ := c
    simp only [Memory.lookup] at h
    simp only [Memory.store]
    split_ifs at h ⊢ <;> first | omega | simp_all

theorem Memory.mem_store {m : List Host.Cell} {a : Nat} {v : Byte} {c : Host.Cell} (h : c ∈ Memory.store m a v) :
    c = (a, v) ∨ c ∈ m := by
  induction m with
  | nil => simpa [Memory.store] using h
  | cons d rest ih =>
    obtain ⟨k, w⟩ := d
    simp only [Memory.store] at h
    split_ifs at h
    · simpa using h
    · rcases List.mem_cons.mp h with h | h
      · exact .inl h
      · exact .inr (List.mem_cons_of_mem _ h)
    · rcases List.mem_cons.mp h with h | h
      · exact .inr (h ▸ List.mem_cons_self)
      · exact (ih h).imp id (List.mem_cons_of_mem _)

theorem Memory.store_wf {m : List Host.Cell} (a : Nat) (v : Byte) (h : Memory.wf m) : Memory.wf (Memory.store m a v) := by
  induction m with
  | nil => simp [Memory.wf, Memory.store]
  | cons c rest ih =>
    obtain ⟨k, w⟩ := c
    simp only [Memory.wf, List.map_cons, List.pairwise_cons, List.mem_map, forall_exists_index, and_imp] at h
    simp only [Memory.store]
    split_ifs with h1 h2
    · simp only [Memory.wf, List.map_cons, List.pairwise_cons, List.mem_cons, List.mem_map, forall_exists_index, and_imp]
      refine ⟨?_, h.1, h.2⟩
      rintro x (rfl | ⟨y, hy, rfl⟩)
      · exact h1
      · exact Nat.lt_trans h1 (h.1 _ y hy rfl)
    · subst h2
      simp only [Memory.wf, List.map_cons, List.pairwise_cons, List.mem_map, forall_exists_index, and_imp]
      exact h
    · simp only [Memory.wf, List.map_cons, List.pairwise_cons, List.mem_map, forall_exists_index, and_imp]
      refine ⟨?_, ih h.2⟩
      rintro x y hy rfl
      rcases Memory.mem_store hy with rfl | hy
      · change k < a; omega
      · exact h.1 _ y hy rfl

/-! ### Bytes and words -/

theorem State.pmaByte_setPmaByte (s : State) (a : Nat) (v : Byte) (b : Nat) :
    (s.setPmaByte a v).pmaByte b = if b = a then v else s.pmaByte b := by
  simp only [State.pmaByte, State.setPmaByte_pma, Memory.lookup_store]
  split <;> rfl

/-- A pair of bytes is the word of these bytes. -/
theorem State.setPmaPair_eq (s : State) (a : Nat) (lo hi : Byte) : s.setPmaPair a lo hi = s.setPmaWord a (wordOf lo hi) := by
  simp [State.setPmaWord]

theorem State.pmaByte_setPmaWord (s : State) (a : Nat) (w : Word) (b : Nat) :
    (s.setPmaWord a w).pmaByte b = if b = a then lowByte w else if b = a + 1 then highByte w else s.pmaByte b := by
  simp only [State.setPmaWord, State.setPmaPair, State.pmaByte_setPmaByte]
  split_ifs <;> first | rfl | omega

theorem State.pmaByte_setPmaWord_ne (s : State) {a b : Nat} (w : Word) (h1 : b ≠ a) (h2 : b ≠ a + 1) :
    (s.setPmaWord a w).pmaByte b = s.pmaByte b := by
  rw [State.pmaByte_setPmaWord, if_neg h1, if_neg h2]

@[simp] theorem State.pmaWord_setPmaWord (s : State) (a : Nat) (w : Word) : (s.setPmaWord a w).pmaWord a = w := by
  simp [State.pmaWord, State.pmaByte_setPmaWord]

theorem State.pmaWord_setPmaWord_ne (s : State) {a b : Nat} (w : Word) (h : a + 2 ≤ b ∨ b + 2 ≤ a) :
    (s.setPmaWord a w).pmaWord b = s.pmaWord b := by
  simp only [State.pmaWord]
  rw [State.pmaByte_setPmaWord_ne _ _ (by omega) (by omega), State.pmaByte_setPmaWord_ne _ _ (by omega) (by omega)]

@[simp] theorem State.bt_setBt (s : State) (n : Nat) (k : BtSlot) (w : Word) : (s.setBt n k w).bt n k = w := by
  simp [State.bt, State.setBt]

theorem btAddr_disjoint {n m : Nat} {k j : BtSlot} (h : n ≠ m ∨ k ≠ j) :
    btAddr n k + 2 ≤ btAddr m j ∨ btAddr m j + 2 ≤ btAddr n k := by
  cases k <;> cases j <;> simp_all [btAddr, BtSlot.offset, Config.btableBase] <;> omega

theorem State.bt_setBt_ne (s : State) {n m : Nat} {k j : BtSlot} (w : Word) (h : n ≠ m ∨ k ≠ j) :
    (s.setBt n k w).bt m j = s.bt m j :=
  State.pmaWord_setPmaWord_ne _ _ (btAddr_disjoint h)

theorem State.pmaByte_setBt_ne (s : State) {n a : Nat} {k : BtSlot} (w : Word)
    (h : a < btAddr n k ∨ btAddr n k + 2 ≤ a) : (s.setBt n k w).pmaByte a = s.pmaByte a :=
  State.pmaByte_setPmaWord_ne _ _ (by omega) (by omega)

/-! ### A copy of whole words -/

theorem State.copyWords_one (s : State) (a : Nat) (lo : Byte) :
    s.copyWords a [lo] = (s.setPmaWord a (wordOf lo (Config.drawByte s.draws))).bumpDraws := by
  rw [State.copyWords, State.setPmaPair_eq]

/-- A copy changes packet memory and the draw counter only. -/
theorem State.copyWords_eq (s : State) (a : Nat) (b : List Byte) :
    s.copyWords a b = { s with pma := (s.copyWords a b).pma, draws := s.draws + b.length % 2 } := by
  induction s, a, b using State.copyWords.induct with
  | case1 s a => simp [State.copyWords]
  | case2 s a lo => simp [State.copyWords]; rfl
  | case3 s a lo hi rest ih =>
    rw [State.copyWords, ih]
    have : (rest.length + 1 + 1) % 2 = rest.length % 2 := by omega
    simp [State.setPmaPair, State.setPmaByte, this]

section
variable (s : State) (a : Nat) (b : List Byte)

@[simp] theorem State.copyWords_cfg : (s.copyWords a b).cfg = s.cfg := by rw [State.copyWords_eq]
@[simp] theorem State.copyWords_recs : (s.copyWords a b).recs = s.recs := by rw [State.copyWords_eq]
@[simp] theorem State.copyWords_dev : (s.copyWords a b).dev = s.dev := by rw [State.copyWords_eq]
@[simp] theorem State.copyWords_lc : (s.copyWords a b).lc = s.lc := by rw [State.copyWords_eq]
@[simp] theorem State.copyWords_seq : (s.copyWords a b).seq = s.seq := by rw [State.copyWords_eq]
@[simp] theorem State.copyWords_scratch : (s.copyWords a b).scratch = s.scratch := by rw [State.copyWords_eq]
@[simp] theorem State.copyWords_fault : (s.copyWords a b).fault = s.fault := by rw [State.copyWords_eq]
@[simp] theorem State.copyWords_epr : (s.copyWords a b).epr = s.epr := by rw [State.copyWords_eq]
@[simp] theorem State.copyWords_istrReset : (s.copyWords a b).istrReset = s.istrReset := by rw [State.copyWords_eq]
@[simp] theorem State.copyWords_daddr : (s.copyWords a b).daddr = s.daddr := by rw [State.copyWords_eq]
@[simp] theorem State.copyWords_out : (s.copyWords a b).out = s.out := by rw [State.copyWords_eq]
@[simp] theorem State.copyWords_draws : (s.copyWords a b).draws = s.draws + b.length % 2 := by rw [State.copyWords_eq]
@[simp] theorem State.copyWords_script : (s.copyWords a b).script = s.script := by rw [State.copyWords_eq]
@[simp] theorem State.copyWords_handlerRet : (s.copyWords a b).handlerRet = s.handlerRet := by rw [State.copyWords_eq]
@[simp] theorem State.copyWords_appBuf : (s.copyWords a b).appBuf = s.appBuf := by rw [State.copyWords_eq]

@[simp] theorem State.copyWords_recAt (n : Nat) : (s.copyWords a b).recAt n = s.recAt n := by simp [State.recAt]
@[simp] theorem State.copyWords_eprAt (n : Nat) : (s.copyWords a b).eprAt n = s.eprAt n := by simp [State.eprAt]

end

theorem State.pmaByte_copyWords_outside (s : State) (a : Nat) (b : List Byte) (x : Nat)
    (h : x < a ∨ a + 2 * ceil2 b.length ≤ x) : (s.copyWords a b).pmaByte x = s.pmaByte x := by
  induction s, a, b using State.copyWords.induct with
  | case1 s a => rfl
  | case2 s a lo =>
    simp only [ceil2, List.length_singleton] at h
    rw [State.copyWords_one, State.bumpDraws_pmaByte]
    exact State.pmaByte_setPmaWord_ne _ _ (by omega) (by omega)
  | case3 s a lo hi rest ih =>
    simp only [ceil2, List.length_cons] at h ih
    rw [State.copyWords, ih (by omega), State.setPmaPair_eq]
    exact State.pmaByte_setPmaWord_ne _ _ (by omega) (by omega)

theorem State.pmaByte_copyWords_inside (s : State) (a : Nat) (b : List Byte) (i : Nat) (h : i < b.length) :
    (s.copyWords a b).pmaByte (a + i) = b.getD i 0 := by
  induction s, a, b using State.copyWords.induct generalizing i with
  | case1 s a => simp at h
  | case2 s a lo =>
    obtain rfl : i = 0 := by simpa using h
    simp [State.copyWords_one, State.pmaByte_setPmaWord]
  | case3 s a lo hi rest ih =>
    simp only [List.length_cons] at h
    rw [State.copyWords]
    match i with
    | 0 =>
      rw [State.pmaByte_copyWords_outside _ _ _ _ (by omega), State.setPmaPair_eq]
      simp [State.pmaByte_setPmaWord]
    | 1 =>
      rw [State.pmaByte_copyWords_outside _ _ _ _ (by omega), State.setPmaPair_eq]
      simp [State.pmaByte_setPmaWord]
    | i + 2 =>
      have := ih i (by omega)
      rw [show a + (i + 2) = a + 2 + i by omega, this]
      simp

/-! ### Canonical form and bounds -/

theorem State.setPmaWord_wf {s : State} (a : Nat) (w : Word) (h : Memory.wf s.pma) : Memory.wf (s.setPmaWord a w).pma := by
  simp only [State.setPmaWord, State.setPmaPair, State.setPmaByte_pma]
  exact Memory.store_wf _ _ (Memory.store_wf _ _ h)

theorem State.setBt_wf {s : State} (n : Nat) (k : BtSlot) (w : Word) (h : Memory.wf s.pma) :
    Memory.wf (s.setBt n k w).pma :=
  State.setPmaWord_wf _ _ h

theorem State.copyWords_wf {s : State} (a : Nat) (b : List Byte) (h : Memory.wf s.pma) :
    Memory.wf (s.copyWords a b).pma := by
  induction s, a, b using State.copyWords.induct with
  | case1 s a => exact h
  | case2 s a lo => rw [State.copyWords_one]; exact State.setPmaWord_wf _ _ h
  | case3 s a lo hi rest ih =>
    rw [State.copyWords, State.setPmaPair_eq] at *
    exact ih (State.setPmaWord_wf _ _ h)

/-- Every listed offset is below `k`. -/
def Memory.below (m : List Host.Cell) (k : Nat) : Prop := ∀ c ∈ m, c.1 < k

theorem State.setPmaWord_below {s : State} {k : Nat} (a : Nat) (w : Word) (h : Memory.below s.pma k) (ha : a + 2 ≤ k) :
    Memory.below (s.setPmaWord a w).pma k := by
  intro c hc
  simp only [State.setPmaWord, State.setPmaPair, State.setPmaByte_pma] at hc
  rcases Memory.mem_store hc with rfl | hc
  · change a + 1 < k; omega
  · rcases Memory.mem_store hc with rfl | hc
    · change a < k; omega
    · exact h c hc

theorem State.copyWords_below {s : State} {k : Nat} (a : Nat) (b : List Byte) (h : Memory.below s.pma k)
    (ha : b.length = 0 ∨ a + 2 * ceil2 b.length ≤ k) : Memory.below (s.copyWords a b).pma k := by
  induction s, a, b using State.copyWords.induct with
  | case1 s a => exact h
  | case2 s a lo =>
    simp only [ceil2, List.length_singleton] at ha
    rw [State.copyWords_one]; exact State.setPmaWord_below _ _ h (by omega)
  | case3 s a lo hi rest ih =>
    simp only [ceil2, List.length_cons] at ha ih
    rw [State.setPmaPair_eq] at ih
    rw [State.copyWords, State.setPmaPair_eq]
    exact ih (State.setPmaWord_below _ _ h (by omega)) (by omega)

end Machine

end Sys2Proof
end

