-- ==== Sys2Proof/Laws/Decode.lean ====
section
/-! SUPPORT. Decode and encode: the packet's bytes, which operations a packet decodes to, and the packet each comes from. -/

namespace Sys2Proof

/-- The fields of a packet come back from its bytes, R100. -/
theorem Setup.ofBytes_toBytes (p : Setup) : Setup.ofBytes p.toBytes = p := by
  obtain ⟨a, b, v, w, l⟩ := p
  simp [Setup.ofBytes, Setup.toBytes]

/-- The eight bytes of a packet come back from its fields. -/
theorem Setup.toBytes_ofBytes {b : List Byte} (h : b.length = 8) : (Setup.ofBytes b).toBytes = b := by
  match b, h with
  | [b0, b1, b2, b3, b4, b5, b6, b7], _ => simp [Setup.ofBytes, Setup.toBytes]

/-- What a masked byte says of each bit under the mask. -/
theorem masked_bit {b m v : Byte} (h : b &&& m = v) (i : Nat) : (b.getLsbD i && m.getLsbD i) = v.getLsbD i := by
  rw [← h, BitVec.getLsbD_and]

theorem vendorRead_type (b : Byte) (h : b &&& 0xE0 = 0xC0) : (0b110#3 ++ b.extractLsb' 0 5 : BitVec 8) = b := by
  have h5 : b.getLsbD 5 = false := by simpa using masked_bit h 5
  have h6 : b.getLsbD 6 = true := by simpa using masked_bit h 6
  have h7 : b.getLsbD 7 = true := by simpa using masked_bit h 7
  apply BitVec.eq_of_getLsbD_eq
  intro i hi
  refine (BitVec.getLsbD_append (x := 0b110#3) (y := b.extractLsb' 0 5) (i := i)).trans ?_
  rw [BitVec.getLsbD_extractLsb']
  interval_cases i <;> simp_all

theorem vendorWrite_type (b : Byte) (h : b &&& 0xE0 = 0x40) : (0b010#3 ++ b.extractLsb' 0 5 : BitVec 8) = b := by
  have h5 : b.getLsbD 5 = false := by simpa using masked_bit h 5
  have h6 : b.getLsbD 6 = true := by simpa using masked_bit h 6
  have h7 : b.getLsbD 7 = false := by simpa using masked_bit h 7
  apply BitVec.eq_of_getLsbD_eq
  intro i hi
  refine (BitVec.getLsbD_append (x := 0b010#3) (y := b.extractLsb' 0 5) (i := i)).trans ?_
  rw [BitVec.getLsbD_extractLsb']
  interval_cases i <;> simp_all

theorem class_type (b : Byte) (h : b &&& 0x7F = 0x21) : classType b[7] = b := by
  have hb : ∀ i, i < 7 → b.getLsbD i = (0x21 : Byte).getLsbD i := by
    intro i hi
    have := masked_bit h i
    interval_cases i <;> simpa using this
  rw [← BitVec.getLsbD_eq_getElem]
  apply BitVec.eq_of_getLsbD_eq
  intro i hi
  rcases Nat.lt_or_ge i 7 with h7 | h7
  · rw [hb i h7]
    cases b.getLsbD 7 <;> interval_cases i <;> rfl
  · obtain rfl : i = 7 := by omega
    cases h : b.getLsbD 7 <;> rfl

theorem Setup.mk_eq {p : Setup} {bm br : Byte} {v w l : Word} (h1 : p.bmRequestType = bm) (h2 : p.bRequest = br)
    (h3 : p.wValue = v) (h4 : p.wIndex = w) (h5 : p.wLength = l) : some (Setup.mk bm br v w l) = some p := by
  subst h1 h2 h3 h4 h5
  rfl

theorem encodeSetup_decodeDescriptor (c : Params) {p : Setup} (h1 : p.bmRequestType = 0x80) (h2 : p.bRequest = 0x06) :
    encodeSetup c (decodeDescriptor c p) = some p := by
  unfold decodeDescriptor
  repeat' split
  all_goals exact Setup.mk_eq h1 h2 (by first | assumption | rfl) rfl rfl

theorem encodeSetup_decodeClass (c : Params) {p : Setup} (h : p.bmRequestType &&& 0x7F = 0x21) :
    encodeSetup c (decodeClass p) = some p := by
  have h1 := (class_type p.bmRequestType h).symm
  unfold decodeClass
  simp only
  repeat' split
  all_goals exact Setup.mk_eq h1 (by first | assumption | rfl) rfl rfl rfl

/-- Each packet is the encoding of the operation it decodes to. -/
theorem encodeSetup_decodeSetup (c : Params) (p : Setup) : encodeSetup c (decodeSetup c p) = some p := by
  unfold decodeSetup
  split
  · rename_i h1
    split
    · exact encodeSetup_decodeDescriptor c h1 ‹_›
    · split <;> exact Setup.mk_eq h1 (by first | assumption | rfl) rfl rfl rfl
  split
  · rename_i h1
    repeat' split
    all_goals exact Setup.mk_eq h1 (by first | assumption | rfl) rfl rfl rfl
  split
  · rename_i h1
    split <;> exact Setup.mk_eq h1 (by first | assumption | rfl) rfl rfl rfl
  split
  · exact Setup.mk_eq (vendorRead_type _ ‹_›).symm rfl rfl rfl rfl
  split
  · exact Setup.mk_eq (vendorWrite_type _ ‹_›).symm rfl rfl rfl rfl
  split
  · exact encodeSetup_decodeClass c ‹_›
  · rfl

/-- A packet decodes to a request. -/
theorem decodeSetup_format (c : Params) (p : Setup) : (decodeSetup c p).format = .setup := by
  have h := encodeSetup_decodeSetup c p
  generalize decodeSetup c p = i at h
  cases i <;> first | rfl | simp [encodeSetup] at h

end Sys2Proof
end

