-- ==== Sys2Proof/Laws/Registers.lean ====
section
/-! SUPPORT. The fields of an endpoint register after each operation on its value: one lemma per field per operation. -/

namespace Sys2Proof.Machine

@[simp] theorem regWrite_dtogRx (cur w : Word) : dtogRx (regWrite cur w) = (dtogRx cur ^^ dtogRx w) := by
  simp [dtogRx, regWrite, mToggle, mRcw0, mRw, mRo]

@[simp] theorem regWrite_dtogTx (cur w : Word) : dtogTx (regWrite cur w) = (dtogTx cur ^^ dtogTx w) := by
  simp [dtogTx, regWrite, mToggle, mRcw0, mRw, mRo]

@[simp] theorem regWrite_statRx (cur w : Word) : statRx (regWrite cur w) = statRx cur ^^^ statRx w := by
  apply BitVec.eq_of_getLsbD_eq
  intro i hi
  interval_cases i <;> simp [statRx, regWrite, mToggle, mRcw0, mRw, mRo]

@[simp] theorem regWrite_statTx (cur w : Word) : statTx (regWrite cur w) = statTx cur ^^^ statTx w := by
  apply BitVec.eq_of_getLsbD_eq
  intro i hi
  interval_cases i <;> simp [statTx, regWrite, mToggle, mRcw0, mRw, mRo]

@[simp] theorem regWrite_ctrRx (cur w : Word) : ctrRx (regWrite cur w) = (ctrRx cur && ctrRx w) := by
  simp [ctrRx, regWrite, mToggle, mRcw0, mRw, mRo]

@[simp] theorem regWrite_ctrTx (cur w : Word) : ctrTx (regWrite cur w) = (ctrTx cur && ctrTx w) := by
  simp [ctrTx, regWrite, mToggle, mRcw0, mRw, mRo]

@[simp] theorem regWrite_epType (cur w : Word) : epType (regWrite cur w) = epType w := by
  apply BitVec.eq_of_getLsbD_eq
  intro i hi
  interval_cases i <;> simp [epType, regWrite, mToggle, mRcw0, mRw, mRo]

@[simp] theorem regWrite_epKind (cur w : Word) : epKind (regWrite cur w) = epKind w := by
  simp [epKind, regWrite, mToggle, mRcw0, mRw, mRo]

@[simp] theorem regWrite_epAddr (cur w : Word) : epAddr (regWrite cur w) = epAddr w := by
  apply BitVec.eq_of_getLsbD_eq
  intro i hi
  interval_cases i <;> simp [epAddr, regWrite, mToggle, mRcw0, mRw, mRo]

@[simp] theorem regWrite_setupBit (cur w : Word) : setupBit (regWrite cur w) = setupBit cur := by
  simp [setupBit, regWrite, mToggle, mRcw0, mRw, mRo]

@[simp] theorem afterSetup_ctrRx (e : Word) : ctrRx (afterSetup e) = true := by
  simp [ctrRx, afterSetup]

@[simp] theorem afterSetup_dtogRx (e : Word) : dtogRx (afterSetup e) = true := by
  simp [dtogRx, afterSetup]

@[simp] theorem afterSetup_setupBit (e : Word) : setupBit (afterSetup e) = true := by
  simp [setupBit, afterSetup]

@[simp] theorem afterSetup_dtogTx (e : Word) : dtogTx (afterSetup e) = true := by
  simp [dtogTx, afterSetup]

@[simp] theorem afterSetup_statRx (e : Word) : statRx (afterSetup e) = statCode .nak := by
  apply BitVec.eq_of_getLsbD_eq
  intro i hi
  interval_cases i <;> simp [statRx, afterSetup, statCode]

@[simp] theorem afterSetup_statTx (e : Word) : statTx (afterSetup e) = statCode .nak := by
  apply BitVec.eq_of_getLsbD_eq
  intro i hi
  interval_cases i <;> simp [statTx, afterSetup, statCode]

@[simp] theorem afterSetup_ctrTx (e : Word) : ctrTx (afterSetup e) = ctrTx e := by
  simp [ctrTx, afterSetup]

@[simp] theorem afterSetup_epKind (e : Word) : epKind (afterSetup e) = epKind e := by
  simp [epKind, afterSetup]

@[simp] theorem afterSetup_epType (e : Word) : epType (afterSetup e) = epType e := by
  apply BitVec.eq_of_getLsbD_eq
  intro i hi
  interval_cases i <;> simp [epType, afterSetup]

@[simp] theorem afterSetup_epAddr (e : Word) : epAddr (afterSetup e) = epAddr e := by
  apply BitVec.eq_of_getLsbD_eq
  intro i hi
  interval_cases i <;> simp [epAddr, afterSetup]

@[simp] theorem afterOut_ctrRx (e : Word) : ctrRx (afterOut e) = true := by
  simp [ctrRx, afterOut]

@[simp] theorem afterOut_dtogRx (e : Word) : dtogRx (afterOut e) = !dtogRx e := by
  simp [dtogRx, afterOut]

@[simp] theorem afterOut_setupBit (e : Word) : setupBit (afterOut e) = false := by
  simp [setupBit, afterOut]

@[simp] theorem afterOut_dtogTx (e : Word) : dtogTx (afterOut e) = dtogTx e := by
  simp [dtogTx, afterOut]

@[simp] theorem afterOut_statRx (e : Word) : statRx (afterOut e) = statCode .nak := by
  apply BitVec.eq_of_getLsbD_eq
  intro i hi
  interval_cases i <;> simp [statRx, afterOut, statCode]

@[simp] theorem afterOut_statTx (e : Word) : statTx (afterOut e) = statTx e := by
  apply BitVec.eq_of_getLsbD_eq
  intro i hi
  interval_cases i <;> simp [statTx, afterOut]

@[simp] theorem afterOut_ctrTx (e : Word) : ctrTx (afterOut e) = ctrTx e := by
  simp [ctrTx, afterOut]

@[simp] theorem afterOut_epKind (e : Word) : epKind (afterOut e) = epKind e := by
  simp [epKind, afterOut]

@[simp] theorem afterOut_epType (e : Word) : epType (afterOut e) = epType e := by
  apply BitVec.eq_of_getLsbD_eq
  intro i hi
  interval_cases i <;> simp [epType, afterOut]

@[simp] theorem afterOut_epAddr (e : Word) : epAddr (afterOut e) = epAddr e := by
  apply BitVec.eq_of_getLsbD_eq
  intro i hi
  interval_cases i <;> simp [epAddr, afterOut]

@[simp] theorem afterIn_ctrTx (e : Word) : ctrTx (afterIn e) = true := by
  simp [ctrTx, afterIn]

@[simp] theorem afterIn_dtogTx (e : Word) : dtogTx (afterIn e) = !dtogTx e := by
  simp [dtogTx, afterIn]

@[simp] theorem afterIn_setupBit (e : Word) : setupBit (afterIn e) = setupBit e := by
  simp [setupBit, afterIn]

@[simp] theorem afterIn_dtogRx (e : Word) : dtogRx (afterIn e) = dtogRx e := by
  simp [dtogRx, afterIn]

@[simp] theorem afterIn_statTx (e : Word) : statTx (afterIn e) = statCode .nak := by
  apply BitVec.eq_of_getLsbD_eq
  intro i hi
  interval_cases i <;> simp [statTx, afterIn, statCode]

@[simp] theorem afterIn_statRx (e : Word) : statRx (afterIn e) = statRx e := by
  apply BitVec.eq_of_getLsbD_eq
  intro i hi
  interval_cases i <;> simp [statRx, afterIn]

@[simp] theorem afterIn_ctrRx (e : Word) : ctrRx (afterIn e) = ctrRx e := by
  simp [ctrRx, afterIn]

@[simp] theorem afterIn_epKind (e : Word) : epKind (afterIn e) = epKind e := by
  simp [epKind, afterIn]

@[simp] theorem afterIn_epType (e : Word) : epType (afterIn e) = epType e := by
  apply BitVec.eq_of_getLsbD_eq
  intro i hi
  interval_cases i <;> simp [epType, afterIn]

@[simp] theorem afterIn_epAddr (e : Word) : epAddr (afterIn e) = epAddr e := by
  apply BitVec.eq_of_getLsbD_eq
  intro i hi
  interval_cases i <;> simp [epAddr, afterIn]

@[simp] theorem commitWord_ctrRx (r : HandlerResult) : ctrRx (commitWord r) = false := by
  rcases r with ⟨st, a, b⟩
  cases a <;> cases b <;> simp [ctrRx, commitWord]

@[simp] theorem commitWord_ctrTx (r : HandlerResult) : ctrTx (commitWord r) = false := by
  rcases r with ⟨st, a, b⟩
  cases a <;> cases b <;> simp [ctrTx, commitWord]

@[simp] theorem commitWord_dtogRx (r : HandlerResult) : dtogRx (commitWord r) = (r.resetRx && dtogRx r.status) := by
  rcases r with ⟨st, a, b⟩
  cases a <;> cases b <;> simp [dtogRx, commitWord]

@[simp] theorem commitWord_dtogTx (r : HandlerResult) : dtogTx (commitWord r) = (r.resetTx && dtogTx r.status) := by
  rcases r with ⟨st, a, b⟩
  cases a <;> cases b <;> simp [dtogTx, commitWord]

@[simp] theorem commitWord_setupBit (r : HandlerResult) : setupBit (commitWord r) = setupBit r.status := by
  rcases r with ⟨st, a, b⟩
  cases a <;> cases b <;> simp [setupBit, commitWord]

@[simp] theorem commitWord_statRx (r : HandlerResult) : statRx (commitWord r) = statRx r.status := by
  rcases r with ⟨st, a, b⟩
  apply BitVec.eq_of_getLsbD_eq
  intro i hi
  cases a <;> cases b <;> interval_cases i <;> simp [statRx, commitWord]

@[simp] theorem commitWord_statTx (r : HandlerResult) : statTx (commitWord r) = statTx r.status := by
  rcases r with ⟨st, a, b⟩
  apply BitVec.eq_of_getLsbD_eq
  intro i hi
  cases a <;> cases b <;> interval_cases i <;> simp [statTx, commitWord]

@[simp] theorem commitWord_epKind (r : HandlerResult) : epKind (commitWord r) = epKind r.status := by
  rcases r with ⟨st, a, b⟩
  cases a <;> cases b <;> simp [epKind, commitWord]

@[simp] theorem commitWord_epType (r : HandlerResult) : epType (commitWord r) = epType r.status := by
  rcases r with ⟨st, a, b⟩
  apply BitVec.eq_of_getLsbD_eq
  intro i hi
  cases a <;> cases b <;> interval_cases i <;> simp [epType, commitWord]

@[simp] theorem commitWord_epAddr (r : HandlerResult) : epAddr (commitWord r) = epAddr r.status := by
  rcases r with ⟨st, a, b⟩
  apply BitVec.eq_of_getLsbD_eq
  intro i hi
  cases a <;> cases b <;> interval_cases i <;> simp [epAddr, commitWord]

theorem statRxWrite_bit (s : Word) (st : Stat) (i : Nat) :
    (statRxWrite s st).getLsbD i = if i = 12 then (statRx s ^^^ statCode st).getLsbD 0
      else if i = 13 then (statRx s ^^^ statCode st).getLsbD 1 else false := by
  rcases Nat.lt_or_ge i 16 with h | h
  · interval_cases i <;> simp [statRxWrite]
  · rw [BitVec.getLsbD_of_ge _ _ h, if_neg (by omega), if_neg (by omega)]

theorem statTxWrite_bit (s : Word) (st : Stat) (i : Nat) :
    (statTxWrite s st).getLsbD i = if i = 4 then (statTx s ^^^ statCode st).getLsbD 0
      else if i = 5 then (statTx s ^^^ statCode st).getLsbD 1 else false := by
  rcases Nat.lt_or_ge i 16 with h | h
  · interval_cases i <;> simp [statTxWrite]
  · rw [BitVec.getLsbD_of_ge _ _ h, if_neg (by omega), if_neg (by omega)]

@[simp] theorem statRxWrite_getElem (s : Word) (st : Stat) (i : Nat) (h : i < 16) :
    (statRxWrite s st)[i] = if i = 12 then (statRx s ^^^ statCode st).getLsbD 0
      else if i = 13 then (statRx s ^^^ statCode st).getLsbD 1 else false := by
  rw [← BitVec.getLsbD_eq_getElem, statRxWrite_bit]

@[simp] theorem statTxWrite_getElem (s : Word) (st : Stat) (i : Nat) (h : i < 16) :
    (statTxWrite s st)[i] = if i = 4 then (statTx s ^^^ statCode st).getLsbD 0
      else if i = 5 then (statTx s ^^^ statCode st).getLsbD 1 else false := by
  rw [← BitVec.getLsbD_eq_getElem, statTxWrite_bit]

/-- The write bits of `STAT` for a wanted state: none keeps. -/
def statWriteBits (cur : BitVec 2) (want : Option Stat) : BitVec 2 :=
  match want with
  | none => 0
  | some st => cur ^^^ statCode st

@[simp] theorem mkStatus_ctrRx (s : Word) (rx tx : Option Stat) (rrx rtx : Bool) : ctrRx (mkStatus s rx tx rrx rtx) = ctrRx s := by
  cases rx <;> cases tx <;> cases rrx <;> cases rtx <;> simp [ctrRx, mkStatus]

@[simp] theorem mkStatus_ctrTx (s : Word) (rx tx : Option Stat) (rrx rtx : Bool) : ctrTx (mkStatus s rx tx rrx rtx) = ctrTx s := by
  cases rx <;> cases tx <;> cases rrx <;> cases rtx <;> simp [ctrTx, mkStatus]

@[simp] theorem mkStatus_setupBit (s : Word) (rx tx : Option Stat) (rrx rtx : Bool) : setupBit (mkStatus s rx tx rrx rtx) = setupBit s := by
  cases rx <;> cases tx <;> cases rrx <;> cases rtx <;> simp [setupBit, mkStatus]

@[simp] theorem mkStatus_epKind (s : Word) (rx tx : Option Stat) (rrx rtx : Bool) : epKind (mkStatus s rx tx rrx rtx) = epKind s := by
  cases rx <;> cases tx <;> cases rrx <;> cases rtx <;> simp [epKind, mkStatus]

@[simp] theorem mkStatus_epType (s : Word) (rx tx : Option Stat) (rrx rtx : Bool) : epType (mkStatus s rx tx rrx rtx) = epType s := by
  apply BitVec.eq_of_getLsbD_eq
  intro i hi
  cases rx <;> cases tx <;> cases rrx <;> cases rtx <;> interval_cases i <;> simp [epType, mkStatus]

@[simp] theorem mkStatus_epAddr (s : Word) (rx tx : Option Stat) (rrx rtx : Bool) : epAddr (mkStatus s rx tx rrx rtx) = epAddr s := by
  apply BitVec.eq_of_getLsbD_eq
  intro i hi
  cases rx <;> cases tx <;> cases rrx <;> cases rtx <;> interval_cases i <;> simp [epAddr, mkStatus]

@[simp] theorem mkStatus_dtogRx (s : Word) (rx tx : Option Stat) (rrx rtx : Bool) : dtogRx (mkStatus s rx tx rrx rtx) = (rrx && dtogRx s) := by
  cases rx <;> cases tx <;> cases rrx <;> cases rtx <;> simp [dtogRx, mkStatus]

@[simp] theorem mkStatus_dtogTx (s : Word) (rx tx : Option Stat) (rrx rtx : Bool) : dtogTx (mkStatus s rx tx rrx rtx) = (rtx && dtogTx s) := by
  cases rx <;> cases tx <;> cases rrx <;> cases rtx <;> simp [dtogTx, mkStatus]

@[simp] theorem mkStatus_statRx (s : Word) (rx tx : Option Stat) (rrx rtx : Bool) : statRx (mkStatus s rx tx rrx rtx) = statWriteBits (statRx s) rx := by
  apply BitVec.eq_of_getLsbD_eq
  intro i hi
  cases rx <;> cases tx <;> cases rrx <;> cases rtx <;> interval_cases i <;> simp [statRx, mkStatus, statWriteBits]

@[simp] theorem mkStatus_statTx (s : Word) (rx tx : Option Stat) (rrx rtx : Bool) : statTx (mkStatus s rx tx rrx rtx) = statWriteBits (statTx s) tx := by
  apply BitVec.eq_of_getLsbD_eq
  intro i hi
  cases rx <;> cases tx <;> cases rrx <;> cases rtx <;> interval_cases i <;> simp [statTx, mkStatus, statWriteBits]

@[simp] theorem writeCommitWord_ctrRx (e : Word) : ctrRx (writeCommitWord e) = true := by
  simp [ctrRx, writeCommitWord, mkStatus]

@[simp] theorem writeCommitWord_ctrTx (e : Word) : ctrTx (writeCommitWord e) = true := by
  simp [ctrTx, writeCommitWord, mkStatus]

@[simp] theorem writeCommitWord_setupBit (e : Word) : setupBit (writeCommitWord e) = setupBit e := by
  simp [setupBit, writeCommitWord, mkStatus]

@[simp] theorem writeCommitWord_epKind (e : Word) : epKind (writeCommitWord e) = epKind e := by
  simp [epKind, writeCommitWord, mkStatus]

@[simp] theorem writeCommitWord_epType (e : Word) : epType (writeCommitWord e) = epType e := by
  apply BitVec.eq_of_getLsbD_eq
  intro i hi
  interval_cases i <;> simp [epType, writeCommitWord, mkStatus]

@[simp] theorem writeCommitWord_epAddr (e : Word) : epAddr (writeCommitWord e) = epAddr e := by
  apply BitVec.eq_of_getLsbD_eq
  intro i hi
  interval_cases i <;> simp [epAddr, writeCommitWord, mkStatus]

@[simp] theorem writeCommitWord_dtogRx (e : Word) : dtogRx (writeCommitWord e) = false := by
  simp [dtogRx, writeCommitWord, mkStatus]

@[simp] theorem writeCommitWord_dtogTx (e : Word) : dtogTx (writeCommitWord e) = false := by
  simp [dtogTx, writeCommitWord, mkStatus]

@[simp] theorem writeCommitWord_statRx (e : Word) : statRx (writeCommitWord e) = statRx e ^^^ statCode .nak := by
  apply BitVec.eq_of_getLsbD_eq
  intro i hi
  interval_cases i <;> simp [statRx, writeCommitWord, mkStatus]

@[simp] theorem writeCommitWord_statTx (e : Word) : statTx (writeCommitWord e) = statTx e ^^^ statCode .valid := by
  apply BitVec.eq_of_getLsbD_eq
  intro i hi
  interval_cases i <;> simp [statTx, writeCommitWord, mkStatus]

@[simp] theorem rearmWord_ctrRx (e : Word) : ctrRx (rearmWord e) = false := by
  simp [ctrRx, rearmWord, mkStatus]

@[simp] theorem rearmWord_ctrTx (e : Word) : ctrTx (rearmWord e) = false := by
  simp [ctrTx, rearmWord, mkStatus]

@[simp] theorem rearmWord_setupBit (e : Word) : setupBit (rearmWord e) = setupBit e := by
  simp [setupBit, rearmWord, mkStatus]

@[simp] theorem rearmWord_epKind (e : Word) : epKind (rearmWord e) = epKind e := by
  simp [epKind, rearmWord, mkStatus]

@[simp] theorem rearmWord_epType (e : Word) : epType (rearmWord e) = epType e := by
  apply BitVec.eq_of_getLsbD_eq
  intro i hi
  interval_cases i <;> simp [epType, rearmWord, mkStatus]

@[simp] theorem rearmWord_epAddr (e : Word) : epAddr (rearmWord e) = epAddr e := by
  apply BitVec.eq_of_getLsbD_eq
  intro i hi
  interval_cases i <;> simp [epAddr, rearmWord, mkStatus]

@[simp] theorem rearmWord_dtogRx (e : Word) : dtogRx (rearmWord e) = false := by
  simp [dtogRx, rearmWord, mkStatus]

@[simp] theorem rearmWord_dtogTx (e : Word) : dtogTx (rearmWord e) = false := by
  simp [dtogTx, rearmWord, mkStatus]

@[simp] theorem rearmWord_statRx (e : Word) : statRx (rearmWord e) = statRx e ^^^ statCode .valid := by
  apply BitVec.eq_of_getLsbD_eq
  intro i hi
  interval_cases i <;> simp [statRx, rearmWord, mkStatus]

@[simp] theorem rearmWord_statTx (e : Word) : statTx (rearmWord e) = statTx e ^^^ statCode .nak := by
  apply BitVec.eq_of_getLsbD_eq
  intro i hi
  interval_cases i <;> simp [statTx, rearmWord, mkStatus]

theorem ofNat_low_bit (id i : Nat) (h : i < 4) :
    (BitVec.ofNat 16 id)[i]'(by omega) = (BitVec.ofNat 4 id)[i]'h := by
  have h' : i < 16 := by omega
  simp [BitVec.getElem_eq_testBit_toNat, BitVec.toNat_ofNat, Nat.testBit_mod_two_pow, h, h', -Nat.reducePow]

@[simp] theorem configureWord_ctrRx (id : Nat) (ty : EpType) (e : Word) : ctrRx (configureWord id ty e) = false := by
  cases ty <;> simp [ctrRx, configureWord, EpType.code]

@[simp] theorem configureWord_ctrTx (id : Nat) (ty : EpType) (e : Word) : ctrTx (configureWord id ty e) = false := by
  cases ty <;> simp [ctrTx, configureWord, EpType.code]

@[simp] theorem configureWord_epKind (id : Nat) (ty : EpType) (e : Word) : epKind (configureWord id ty e) = false := by
  cases ty <;> simp [epKind, configureWord, EpType.code]

@[simp] theorem configureWord_epType (id : Nat) (ty : EpType) (e : Word) : epType (configureWord id ty e) = ty.code := by
  apply BitVec.eq_of_getLsbD_eq
  intro i hi
  cases ty <;> interval_cases i <;> simp [epType, configureWord, EpType.code]

@[simp] theorem configureWord_epAddr (id : Nat) (ty : EpType) (e : Word) : epAddr (configureWord id ty e) = BitVec.ofNat 4 id := by
  apply BitVec.eq_of_getLsbD_eq
  intro i hi
  cases ty <;> interval_cases i <;> simp [epAddr, configureWord, EpType.code, ofNat_low_bit]

@[simp] theorem configureWord_dtogRx (id : Nat) (ty : EpType) (e : Word) : dtogRx (configureWord id ty e) = dtogRx e := by
  cases ty <;> simp [dtogRx, configureWord, EpType.code]

@[simp] theorem configureWord_dtogTx (id : Nat) (ty : EpType) (e : Word) : dtogTx (configureWord id ty e) = dtogTx e := by
  cases ty <;> simp [dtogTx, configureWord, EpType.code]

@[simp] theorem configureWord_statRx (id : Nat) (ty : EpType) (e : Word) : statRx (configureWord id ty e) = statRx e ^^^ statCode .valid := by
  apply BitVec.eq_of_getLsbD_eq
  intro i hi
  cases ty <;> interval_cases i <;> simp [statRx, configureWord, EpType.code]

@[simp] theorem configureWord_statTx (id : Nat) (ty : EpType) (e : Word) : statTx (configureWord id ty e) = statTx e ^^^ statCode .nak := by
  apply BitVec.eq_of_getLsbD_eq
  intro i hi
  cases ty <;> interval_cases i <;> simp [statTx, configureWord, EpType.code]

end Sys2Proof.Machine
end

