-- ==== Sys2Proof/Laws/Ops.lean ====
section
/-! SUPPORT. One specification per shared operation: when it answers a next state, and which. Provers cite these and do not
unfold the operations. -/

namespace Sys2Proof.Machine

@[simp] theorem andThen_next {α β : Type} (a : α) (f : α → Res β) : andThen (.next a) f = f a := rfl
@[simp] theorem andThen_fault {α β : Type} (x : Fault) (f : α → Res β) : andThen (.fault x) f = .fault x := rfl
@[simp] theorem andThen_refused {α β : Type} (r : Refusal) (f : α → Res β) : andThen (.refused r) f = .refused r := rfl

/-- Sequencing answers a next state exactly when both parts do. -/
theorem andThen_eq_next {α β : Type} {o : Res α} {f : α → Res β} {b : β} :
    andThen o f = .next b ↔ ∃ a, o = .next a ∧ f a = .next b := by
  cases o <;> simp [andThen]

/-- Sequencing faults exactly when its first part does, or its second after the first. -/
theorem andThen_eq_fault {α β : Type} {o : Res α} {f : α → Res β} {x : Fault} :
    andThen o f = .fault x ↔ o = .fault x ∨ ∃ a, o = .next a ∧ f a = .fault x := by
  cases o <;> simp [andThen]

/-! ### Table accessors after an update -/

theorem State.eprAt_setEpr (s : State) (n m : Nat) (e : Word) :
    (s.setEpr n e).eprAt m = if n = m ∧ n < s.epr.length then e else s.eprAt m := by
  simp only [State.eprAt, State.setEpr_epr, List.getD_eq_getElem?_getD, List.getElem?_set]
  split_ifs with h1 h2 h3 h3 <;> first | rfl | (exfalso; omega) | (subst h1; simp [h2])

theorem State.recAt_setRec (s : State) (n m : Nat) (r : Record) :
    (s.setRec n r).recAt m = if n = m ∧ n < s.recs.length then r else s.recAt m := by
  simp only [State.recAt, State.setRec_recs, List.getD_eq_getElem?_getD, List.getElem?_set]
  split_ifs with h1 h2 h3 h3 <;> first | rfl | (exfalso; omega) | (subst h1; simp [h2])

theorem State.eprAt_regWriteEpr (s : State) (n m : Nat) (w : Word) :
    (s.regWriteEpr n w).eprAt m = if n = m ∧ n < s.epr.length then regWrite (s.eprAt n) w else s.eprAt m :=
  State.eprAt_setEpr _ _ _ _

@[simp] theorem State.eprAt_clearEprs (s : State) (m : Nat) : s.clearEprs.eprAt m = 0 := by
  simp only [State.eprAt, State.clearEprs_epr, List.getD_eq_getElem?_getD, List.getElem?_map]
  cases s.epr[m]? <;> rfl

/-- An endpoint outside the table has the empty record. -/
theorem State.recAt_of_le {s : State} {n : Nat} (h : s.recs.length ≤ n) : s.recAt n = Record.powerUp := by
  simp [State.recAt, List.getElem?_eq_none h]

/-- An endpoint outside the table has no control register. -/
theorem State.eprAt_of_le {s : State} {n : Nat} (h : s.epr.length ≤ n) : s.eprAt n = 0 := by
  simp [State.eprAt, List.getElem?_eq_none h]

/-! ### Packet memory -/

theorem ceil2_le {k n : Nat} (h : n ≤ 2 * k) : 2 * ceil2 n ≤ 2 * k := by simp only [ceil2]; omega

theorem wordsExist_iff (s : State) (a len : Nat) :
    s.wordsExist a len = true ↔ len = 0 ∨ a % 2 = 0 ∧ a + 2 * ceil2 len ≤ s.cfg.pmaSize := by
  simp [State.wordsExist]

theorem bytesExist_iff (s : State) (a len : Nat) : s.bytesExist a len = true ↔ len = 0 ∨ a + len ≤ s.cfg.pmaSize := by
  simp [State.bytesExist]

@[simp] theorem wordsExist_zero (s : State) (a : Nat) : s.wordsExist a 0 = true := by simp [State.wordsExist]

/-- Reading a range back gives the bytes that are there. -/
theorem pmaBytes_eq {s : State} {a : Nat} {b : List Byte} (h : ∀ i, i < b.length → s.pmaByte (a + i) = b.getD i 0) :
    s.pmaBytes a b.length = b := by
  apply List.ext_getElem
  · simp [State.pmaBytes]
  · intro i h1 h2
    simp [State.pmaBytes, h i h2, h2]

@[simp] theorem pmaBytes_length (s : State) (a c : Nat) : (s.pmaBytes a c).length = c := by simp [State.pmaBytes]

theorem pmaBytes_getD (s : State) (a c i : Nat) (h : i < c) : (s.pmaBytes a c).getD i 0 = s.pmaByte (a + i) := by
  simp [State.pmaBytes, h]

/-! ### Queueing a reply -/

/-- The state a successful `ep_write` leaves. -/
def written (n : Nat) (b : List Byte) (s : State) : State :=
  (s.copyWords (s.recAt n).txOff.toNat b).setBt n .countTx (BitVec.ofNat 16 b.length)

theorem epWrite_eq_next {n : Nat} {b : List Byte} {s t : State} :
    epWrite n b s = .next t ↔ TxFits n b s ∧ t = written n b s := by
  unfold epWrite TxFits written
  split_ifs with h1 h2
  · simp [Nat.not_le.mpr h1]
  · simp [Nat.not_lt.mp h1, h2, eq_comm]
  · simp [h2]

theorem epWrite_eq_fault {n : Nat} {b : List Byte} {s : State} {x : Fault} :
    epWrite n b s = .fault x ↔
      (Config.maxPacket < b.length ∧ x = .writeTooLong) ∨
      (b.length ≤ Config.maxPacket ∧ s.wordsExist (s.recAt n).txOff.toNat b.length = false ∧ x = .pmaBadAccess) := by
  unfold epWrite
  split_ifs with h1 h2
  · simp only [h1, Nat.not_le.mpr h1, Host.Outcome.fault.injEq, true_and, false_and, or_false]; exact eq_comm
  · simp [h1, h2]
  · simp only [Bool.not_eq_true] at h2
    simp [h1, h2, Nat.not_lt.mp h1, eq_comm]

/-- Everything a successful `ep_write` does, R146. -/
theorem replyQueued_written (n : Nat) (b : List Byte) (s : State) : ReplyQueued n b s (written n b s) := by
  refine ⟨?_, ?_, ?_, ?_⟩
  · unfold written
    rw [State.copyWords_eq s (s.recAt n).txOff.toNat b]
    rfl
  · simp [written]
  · intro i hi hc
    simp only [inCountTx, not_and, not_lt] at hc
    rw [written, State.pmaByte_setBt_ne _ _ (by omega), State.pmaByte_copyWords_inside _ _ _ _ hi]
  · intro a ha hc
    simp only [inCountTx, not_and, not_lt] at hc
    simp only [inWords, not_and, not_lt] at ha
    rw [written, State.pmaByte_setBt_ne _ _ (by omega), State.pmaByte_copyWords_outside _ _ _ _ (by omega)]

/-- `ep_write` within its contract queues its bytes. -/
theorem epWrite_of_fits {n : Nat} {b : List Byte} {s : State} (h : TxFits n b s) :
    ∃ t, epWrite n b s = .next t ∧ ReplyQueued n b s t :=
  ⟨written n b s, epWrite_eq_next.mpr ⟨h, rfl⟩, replyQueued_written n b s⟩

theorem replyQueued_of_epWrite {n : Nat} {b : List Byte} {s t : State} (h : epWrite n b s = .next t) :
    ReplyQueued n b s t := by
  obtain ⟨-, rfl⟩ := epWrite_eq_next.mp h
  exact replyQueued_written n b s

theorem txFits_nil (n : Nat) (s : State) : TxFits n [] s := by simp [TxFits]

/-- The zero-length acknowledgement always completes, R211. -/
theorem ack_eq_next (s : State) : ack s = .next (written 0 [] s) := epWrite_eq_next.mpr ⟨txFits_nil 0 s, rfl⟩

/-- In a state of the right shape any reply of at most 64 bytes fits. -/
theorem State.Wf.txFits {s : State} (h : s.Wf) (n : Nat) {b : List Byte} (hb : b.length ≤ Config.maxPacket) :
    TxFits n b s := by
  refine ⟨hb, (wordsExist_iff _ _ _).mpr (.inr ?_)⟩
  obtain ⟨h1, -, h2, -⟩ := h.views n
  have := ceil2_le (k := 32) hb
  simp only [Config.maxPacket] at h2
  exact ⟨h1, by omega⟩

/-! ### What an update keeps of a queued reply -/

section
variable (n : Nat) (b : List Byte) (s : State)

@[simp] theorem written_cfg : (written n b s).cfg = s.cfg := by simp [written]
@[simp] theorem written_recs : (written n b s).recs = s.recs := by simp [written]
@[simp] theorem written_dev : (written n b s).dev = s.dev := by simp [written]
@[simp] theorem written_lc : (written n b s).lc = s.lc := by simp [written]
@[simp] theorem written_seq : (written n b s).seq = s.seq := by simp [written]
@[simp] theorem written_scratch : (written n b s).scratch = s.scratch := by simp [written]
@[simp] theorem written_fault : (written n b s).fault = s.fault := by simp [written]
@[simp] theorem written_epr : (written n b s).epr = s.epr := by simp [written]
@[simp] theorem written_istrReset : (written n b s).istrReset = s.istrReset := by simp [written]
@[simp] theorem written_daddr : (written n b s).daddr = s.daddr := by simp [written]
@[simp] theorem written_out : (written n b s).out = s.out := by simp [written]
@[simp] theorem written_draws : (written n b s).draws = s.draws + b.length % 2 := by simp [written]
@[simp] theorem written_script : (written n b s).script = s.script := by simp [written]
@[simp] theorem written_handlerRet : (written n b s).handlerRet = s.handlerRet := by simp [written]
@[simp] theorem written_appBuf : (written n b s).appBuf = s.appBuf := by simp [written]
@[simp] theorem written_recAt (m : Nat) : (written n b s).recAt m = s.recAt m := by simp [written]
@[simp] theorem written_eprAt (m : Nat) : (written n b s).eprAt m = s.eprAt m := by simp [written]

end

/-! ### Reading -/

theorem epRead_eq_next {n : Nat} {s : State} {d : List Byte} :
    epRead n s = .next d ↔ (s.recAt n).rxCount.toNat ≤ Config.rxCapacity ∧
      s.bytesExist (s.recAt n).rxOff.toNat (s.recAt n).rxCount.toNat = true ∧
      d = s.pmaBytes (s.recAt n).rxOff.toNat (s.recAt n).rxCount.toNat := by
  unfold epRead
  simp only
  split_ifs with h1 h2
  · simp [Nat.not_le.mpr h1]
  · simp [Nat.not_lt.mp h1, h2, eq_comm]
  · simp [h2]

theorem epRead_eq_fault {n : Nat} {s : State} {x : Fault} :
    epRead n s = .fault x ↔
      (Config.rxCapacity < (s.recAt n).rxCount.toNat ∧ x = .readTooLong) ∨
      ((s.recAt n).rxCount.toNat ≤ Config.rxCapacity ∧
        s.bytesExist (s.recAt n).rxOff.toNat (s.recAt n).rxCount.toNat = false ∧ x = .pmaBadAccess) := by
  unfold epRead
  simp only
  split_ifs with h1 h2
  · simp only [h1, Nat.not_le.mpr h1, Host.Outcome.fault.injEq, true_and, false_and, or_false]; exact eq_comm
  · simp [h1, h2]
  · simp only [Bool.not_eq_true] at h2
    simp [h1, h2, Nat.not_lt.mp h1, eq_comm]

/-- In a state of the right shape a read of at most 64 bytes completes. -/
theorem State.Wf.bytesExist {s : State} (h : s.Wf) {n c : Nat} (hc : c ≤ Config.rxCapacity) :
    s.bytesExist (s.recAt n).rxOff.toNat c = true := by
  refine (bytesExist_iff _ _ _).mpr (.inr ?_)
  have := (h.views n).2.2.2
  omega

theorem State.Wf.epRead {s : State} (h : s.Wf) {n : Nat} (hc : (s.recAt n).rxCount.toNat ≤ Config.rxCapacity) :
    epRead n s = .next (s.pmaBytes (s.recAt n).rxOff.toNat (s.recAt n).rxCount.toNat) :=
  epRead_eq_next.mpr ⟨hc, h.bytesExist hc, rfl⟩

/-! ### Configuring, committing, re-arming -/

theorem acceptable_iff {c : Params} {id : Nat} {ty : EpType} {tx rx : Word} {h : Handler} :
    acceptable c id ty tx rx h = true ↔ Acceptable c id ty tx rx h := by
  unfold acceptable Acceptable
  simp only [Bool.and_eq_true, decide_eq_true_eq, beq_iff_eq, and_assoc]
  by_cases h0 : id = 0 <;> simp [h0, Config.maxPacket, Config.rxCapacity]

/-- An endpoint register is its ten fields, R28. -/
theorem eprWord_ext {e f : Word} (h1 : ctrRx e = ctrRx f) (h2 : dtogRx e = dtogRx f) (h3 : statRx e = statRx f)
    (h4 : setupBit e = setupBit f) (h5 : epType e = epType f) (h6 : epKind e = epKind f) (h7 : ctrTx e = ctrTx f)
    (h8 : dtogTx e = dtogTx f) (h9 : statTx e = statTx f) (h10 : epAddr e = epAddr f) : e = f := by
  have field : ∀ {k w : Nat} (a b : Word), a.extractLsb' k w = b.extractLsb' k w → ∀ i, i < w →
      a.getLsbD (k + i) = b.getLsbD (k + i) := by
    intro k w a b h i hi
    have := congrArg (fun x => x.getLsbD i) h
    simpa [hi] using this
  apply BitVec.eq_of_getLsbD_eq
  intro i hi
  interval_cases i
  · exact field e f h10 0 (by omega)
  · exact field e f h10 1 (by omega)
  · exact field e f h10 2 (by omega)
  · exact field e f h10 3 (by omega)
  · exact field e f h9 0 (by omega)
  · exact field e f h9 1 (by omega)
  · exact h8
  · exact h7
  · exact h6
  · exact field e f h5 0 (by omega)
  · exact field e f h5 1 (by omega)
  · exact h4
  · exact field e f h3 0 (by omega)
  · exact field e f h3 1 (by omega)
  · exact h2
  · exact h1

/-- A word stored in packet memory as data. -/
def Memory.storeWord (m : List Host.Cell) (a : Nat) (w : Word) : List Host.Cell :=
  Memory.store (Memory.store m a (lowByte w)) (a + 1) (highByte w)

theorem State.setBt_eq (s : State) (n : Nat) (k : BtSlot) (w : Word) :
    s.setBt n k w = { s with pma := Memory.storeWord s.pma (btAddr n k) w } := rfl

/-- The descriptor entry `configure_endpoint` writes. -/
def State.setEntry (s : State) (id : Nat) (tx rx : Word) : State :=
  (((s.setBt id .addrTx tx).setBt id .countTx 0).setBt id .addrRx rx).setBt id .countRx rxCap64

theorem State.setEntry_eq (s : State) (id : Nat) (tx rx : Word) :
    s.setEntry id tx rx = { s with pma := (s.setEntry id tx rx).pma } := by
  simp only [State.setEntry, State.setBt_eq]

/-- `configure_endpoint`'s writes, by field: a record, a control register, packet memory. -/
theorem State.configure_eq (s : State) (id : Nat) (ty : EpType) (tx rx : Word) (h : Handler) :
    s.configure id ty tx rx h =
      { s with recs := s.recs.set id { s.recAt id with handler := h, txOff := tx, rxOff := rx },
               epr := s.epr.set id (regWrite (s.eprAt id) (configureWord id ty (s.eprAt id))),
               pma := (s.setEntry id tx rx).pma } := by
  simp only [State.configure, State.setEntry, State.setBt_eq, State.regWriteEpr, State.setEpr, State.setRec, State.recAt]

/-- A word already written is written again without effect. -/
theorem State.setPmaWord_self {s : State} {a : Nat} {w : Word} (h1 : Memory.lookup s.pma a = some (lowByte w))
    (h2 : Memory.lookup s.pma (a + 1) = some (highByte w)) : s.setPmaWord a w = s := by
  have e1 : s.setPmaByte a (lowByte w) = s := by
    show { s with pma := Memory.store s.pma a (lowByte w) } = s
    rw [Memory.store_of_lookup h1]
  have e2 : s.setPmaByte (a + 1) (highByte w) = s := by
    show { s with pma := Memory.store s.pma (a + 1) (highByte w) } = s
    rw [Memory.store_of_lookup h2]
  rw [State.setPmaWord, State.setPmaPair, e1, e2]

theorem lookup_setPmaWord (s : State) (a : Nat) (w : Word) (b : Nat) :
    Memory.lookup (s.setPmaWord a w).pma b =
      if b = a + 1 then some (highByte w) else if b = a then some (lowByte w) else Memory.lookup s.pma b := by
  simp only [State.setPmaWord, State.setPmaPair, State.setPmaByte_pma, Memory.lookup_store]

theorem State.setBt_self {s : State} {n : Nat} {k : BtSlot} {w : Word}
    (h1 : Memory.lookup s.pma (btAddr n k) = some (lowByte w))
    (h2 : Memory.lookup s.pma (btAddr n k + 1) = some (highByte w)) : s.setBt n k w = s :=
  State.setPmaWord_self h1 h2

theorem lookup_setBt_ne {s : State} {n m : Nat} {k j : BtSlot} {w : Word} (i : Nat) (hi : i < 2) (h : n ≠ m ∨ k ≠ j) :
    Memory.lookup (s.setBt n k w).pma (btAddr m j + i) = Memory.lookup s.pma (btAddr m j + i) := by
  have := btAddr_disjoint h
  rw [State.setBt, lookup_setPmaWord, if_neg (by omega), if_neg (by omega)]

theorem lookup_setBt_low (s : State) (n : Nat) (k : BtSlot) (w : Word) :
    Memory.lookup (s.setBt n k w).pma (btAddr n k) = some (lowByte w) := by
  rw [State.setBt, lookup_setPmaWord, if_neg (by omega), if_pos rfl]

theorem lookup_setBt_high (s : State) (n : Nat) (k : BtSlot) (w : Word) :
    Memory.lookup (s.setBt n k w).pma (btAddr n k + 1) = some (highByte w) := by
  rw [State.setBt, lookup_setPmaWord, if_pos rfl]

theorem State.setEntry_setEntry (s : State) (id : Nat) (tx rx : Word) :
    (s.setEntry id tx rx).setEntry id tx rx = s.setEntry id tx rx := by
  have ne : ∀ (u : State) (k j : BtSlot) (v : Word), j ≠ k →
      Memory.lookup (u.setBt id j v).pma (btAddr id k) = Memory.lookup u.pma (btAddr id k) ∧
      Memory.lookup (u.setBt id j v).pma (btAddr id k + 1) = Memory.lookup u.pma (btAddr id k + 1) :=
    fun u k j v hj => ⟨lookup_setBt_ne 0 (by omega) (.inr hj), lookup_setBt_ne 1 (by omega) (.inr hj)⟩
  have low : ∀ (k : BtSlot) (w : Word), (k, w) ∈ [(BtSlot.addrTx, tx), (.countTx, 0), (.addrRx, rx), (.countRx, rxCap64)] →
      Memory.lookup (s.setEntry id tx rx).pma (btAddr id k) = some (lowByte w) ∧
      Memory.lookup (s.setEntry id tx rx).pma (btAddr id k + 1) = some (highByte w) := by
    intro k w hk
    simp only [List.mem_cons, Prod.mk.injEq, List.not_mem_nil, or_false] at hk
    rcases hk with ⟨rfl, rfl⟩ | ⟨rfl, rfl⟩ | ⟨rfl, rfl⟩ | ⟨rfl, rfl⟩ <;> rw [State.setEntry]
    · rw [(ne _ .addrTx .countRx _ (by decide)).1, (ne _ .addrTx .addrRx _ (by decide)).1,
        (ne _ .addrTx .countTx _ (by decide)).1, (ne _ .addrTx .countRx _ (by decide)).2,
        (ne _ .addrTx .addrRx _ (by decide)).2, (ne _ .addrTx .countTx _ (by decide)).2]
      exact ⟨lookup_setBt_low _ _ _ _, lookup_setBt_high _ _ _ _⟩
    · rw [(ne _ .countTx .countRx _ (by decide)).1, (ne _ .countTx .addrRx _ (by decide)).1,
        (ne _ .countTx .countRx _ (by decide)).2, (ne _ .countTx .addrRx _ (by decide)).2]
      exact ⟨lookup_setBt_low _ _ _ _, lookup_setBt_high _ _ _ _⟩
    · rw [(ne _ .addrRx .countRx _ (by decide)).1, (ne _ .addrRx .countRx _ (by decide)).2]
      exact ⟨lookup_setBt_low _ _ _ _, lookup_setBt_high _ _ _ _⟩
    · exact ⟨lookup_setBt_low _ _ _ _, lookup_setBt_high _ _ _ _⟩
  have self : ∀ k w, (k, w) ∈ [(BtSlot.addrTx, tx), (.countTx, 0), (.addrRx, rx), (.countRx, rxCap64)] →
      (s.setEntry id tx rx).setBt id k w = s.setEntry id tx rx :=
    fun k w hk => State.setBt_self (low k w hk).1 (low k w hk).2
  conv_lhs => rw [State.setEntry]
  rw [self _ _ (by simp), self _ _ (by simp), self _ _ (by simp), self _ _ (by simp)]

/-- Everything an accepted `configure_endpoint` does, R144. -/
theorem configuredAs_configure {s : State} {id : Nat} (h2 : id < s.epr.length) (ty : EpType)
    (tx rx : Word) (h : Handler) : ConfiguredAs id ty tx rx h s (s.configure id ty tx rx h) := by
  have e : (s.configure id ty tx rx h).eprAt id = regWrite (s.eprAt id) (configureWord id ty (s.eprAt id)) := by
    rw [State.configure, State.setRec_eprAt]
    simp only [State.setBt_eprAt]
    rw [State.eprAt_regWriteEpr, if_pos ⟨rfl, h2⟩]
  have p : ∀ a, (s.configure id ty tx rx h).pmaByte a = (s.setEntry id tx rx).pmaByte a := by
    intro a
    rw [State.configure_eq]
    simp only [State.pmaByte]
  have b : ∀ k, (s.configure id ty tx rx h).bt id k = (s.setEntry id tx rx).bt id k := by
    intro k
    simp only [State.bt, State.pmaWord, p]
  refine ⟨by rw [e, State.configure_eq], ?_⟩
  rw [e, b, b, b, b]
  refine ⟨by simp, by simp, by simp, by simp, by simp, by simp, by simp, by simp,
    by simp, by simp, ?_, ?_, ?_, ?_, ?_⟩
  · rw [State.setEntry, State.bt_setBt_ne _ _ (.inr (by decide)), State.bt_setBt_ne _ _ (.inr (by decide)),
      State.bt_setBt_ne _ _ (.inr (by decide)), State.bt_setBt]
  · rw [State.setEntry, State.bt_setBt_ne _ _ (.inr (by decide)), State.bt_setBt_ne _ _ (.inr (by decide)), State.bt_setBt]
  · rw [State.setEntry, State.bt_setBt_ne _ _ (.inr (by decide)), State.bt_setBt]
  · rw [State.setEntry, State.bt_setBt]; rfl
  · intro a ha
    rw [p]
    simp only [inEntry, not_and, not_lt] at ha
    simp only [State.setEntry]
    rw [State.pmaByte_setBt_ne _ _ ?_, State.pmaByte_setBt_ne _ _ ?_, State.pmaByte_setBt_ne _ _ ?_,
      State.pmaByte_setBt_ne _ _ ?_]
    all_goals simp only [btAddr, BtSlot.offset, Config.btableBase] at *; omega

/-- Configuring twice leaves what configuring once leaves, R144. -/
theorem State.configure_configure {s : State} {id : Nat} (h1 : id < s.recs.length) (h2 : id < s.epr.length) (ty : EpType)
    (tx rx : Word) (h : Handler) :
    (s.configure id ty tx rx h).configure id ty tx rx h = s.configure id ty tx rx h := by
  obtain ⟨-, a1, a2, a3, a4, a5, a6, a7, a8, a9, -⟩ := configuredAs_configure h2 ty tx rx h
  generalize ht : s.configure id ty tx rx h = t at *
  have hr : t.recs = s.recs.set id { s.recAt id with handler := h, txOff := tx, rxOff := rx } := by
    rw [← ht, State.configure_eq]
  have he : t.epr.length = s.epr.length := by rw [← ht, State.configure_eq]; simp
  have hp : t.pma = (s.setEntry id tx rx).pma := by rw [← ht, State.configure_eq]
  have hrec : t.recAt id = { s.recAt id with handler := h, txOff := tx, rxOff := rx } := by
    simp [State.recAt, hr, h1]
  have hpma : (t.setEntry id tx rx).pma = t.pma := by
    have : ∀ u v : State, u.pma = v.pma → (u.setEntry id tx rx).pma = (v.setEntry id tx rx).pma := by
      intro u v huv
      simp only [State.setEntry, State.setBt_eq, huv]
    rw [this t (s.setEntry id tx rx) hp, State.setEntry_setEntry, hp]
  have hset : t.epr.set id (regWrite (t.eprAt id) (configureWord id ty (t.eprAt id))) = t.epr := by
    have hw : regWrite (t.eprAt id) (configureWord id ty (t.eprAt id)) = t.eprAt id := by
      apply eprWord_ext <;> simp [a1, a2, a3, a4, a5, a6, a7, a8, a9]
    rw [hw]
    simp [State.eprAt, List.getElem?_eq_getElem (he ▸ h2)]
  have hset2 : t.recs.set id { t.recAt id with handler := h, txOff := tx, rxOff := rx } = t.recs := by
    rw [hrec, hr, List.set_set]
  rw [State.configure_eq, hset, hset2, hpma]

theorem State.eprAt_commit (s : State) (n m : Nat) (r : HandlerResult) :
    (commit n r s).eprAt m = if n = m ∧ n < s.epr.length then regWrite (s.eprAt n) (commitWord r) else s.eprAt m :=
  State.eprAt_setEpr _ _ _ _

theorem State.recAt_snapshot (s : State) (n m : Nat) :
    (snapshot n s).recAt m =
      if n = m ∧ n < s.recs.length then (s.recAt n).snapshot (s.eprAt n) (s.bt n .countRx) else s.recAt m :=
  State.recAt_setRec _ _ _ _

/-- The commit of a status word computed from the live register, R141 and R176. -/
theorem eprBecomes_commit {s : State} {n : Nat} (h : n < s.epr.length) (rx tx : Option Stat) (rrx rtx a b : Bool) :
    EprBecomes ((commit n ⟨mkStatus (s.eprAt n) rx tx rrx rtx, a, b⟩ s).eprAt n) (s.eprAt n) (statOr (statRx (s.eprAt n)) rx)
      (statOr (statTx (s.eprAt n)) tx) (dtogRx (s.eprAt n) && !(a && rrx)) (dtogTx (s.eprAt n) && !(b && rtx)) false false := by
  rw [State.eprAt_commit, if_pos ⟨rfl, h⟩]
  unfold EprBecomes
  cases rx <;> cases tx <;> cases rrx <;> cases rtx <;> cases a <;> cases b <;>
    simp [statWriteBits, statOr]

theorem writeCommit_eq_next {n : Nat} {b : List Byte} {s t : State} :
    writeCommit n b s = .next t ↔
      TxFits n b s ∧ t = (written n b s).regWriteEpr n (writeCommitWord (s.eprAt n)) := by
  simp only [writeCommit, andThen_eq_next, epWrite_eq_next]
  constructor
  · rintro ⟨u, ⟨h, rfl⟩, h2⟩
    simpa [h, eq_comm] using h2
  · rintro ⟨h, rfl⟩
    exact ⟨_, ⟨h, rfl⟩, by simp⟩

theorem configureEndpoint_eq_next {id : Nat} {ty : EpType} {tx rx : Word} {h : Handler} {s t : State} :
    configureEndpoint id ty tx rx h s = .next t ↔
      (s.cfg.numEp ≤ id ∧ t = s) ∨
      (id < s.cfg.numEp ∧ acceptable s.cfg id ty tx rx h = true ∧ t = s.configure id ty tx rx h) := by
  unfold configureEndpoint
  split_ifs with h1 h2
  · simp only [h1, Nat.not_lt.mpr h1, Host.Outcome.next.injEq, true_and, false_and, or_false]; exact eq_comm
  · simp [h1, h2, Nat.not_le.mp h1, eq_comm]
  · simp [h1, h2]

theorem configureEndpoint_eq_fault {id : Nat} {ty : EpType} {tx rx : Word} {h : Handler} {s : State} {x : Fault} :
    configureEndpoint id ty tx rx h s = .fault x ↔
      id < s.cfg.numEp ∧ acceptable s.cfg id ty tx rx h = false ∧ x = .badConfigure := by
  unfold configureEndpoint
  split_ifs with h1 h2
  · simp [Nat.not_lt.mpr h1]
  · simp [h2]
  · simp only [Bool.not_eq_true] at h2
    simp [h2, Nat.not_le.mp h1, eq_comm]

/-- The state the `blocking_read` start leaves, R150. -/
def waiting (n : Nat) (s : State) : State :=
  (((s.setRec n { s.recAt n with rxPending := false }).setScratch (List.replicate 64 0)).regWriteEpr n
    (rearmWord (s.recAt n).status)).setSeq (.wait n s.cfg.waitBudget)

theorem status_setRec_rxPending (s : State) (n : Nat) :
    ((s.setRec n { s.recAt n with rxPending := false }).recAt n).status = (s.recAt n).status := by
  rw [State.recAt_setRec]
  split <;> rfl

theorem blockingReadStart_eq_next {n : Nat} {s t : State} :
    blockingReadStart n s = .next t ↔ s.seq = .idle ∧ t = waiting n s := by
  unfold blockingReadStart waiting
  cases h : s.seq with
  | wait k b => simp
  | idle =>
    have := status_setRec_rxPending s n
    simp only [State.setScratch_recAt, this, true_and]
    simp [eq_comm]

theorem blockingReadStart_eq_fault {n : Nat} {s : State} {x : Fault} :
    blockingReadStart n s = .fault x ↔ s.seq ≠ .idle ∧ x = .nestedWait := by
  unfold blockingReadStart
  cases h : s.seq <;> simp [eq_comm]

theorem State.configured_of {s : State} {n : Nat} (h1 : n < s.cfg.numEp) (h2 : (s.recAt n).handler ≠ .none) :
    s.configured n = true := by
  simp [State.configured, h1, h2]

theorem State.configured_eq_true {s : State} {n : Nat} :
    s.configured n = true ↔ n < s.cfg.numEp ∧ (s.recAt n).handler ≠ .none := by
  simp [State.configured]

theorem waitStarted_waiting {s : State} {n : Nat} (h : n < s.epr.length) : WaitStarted n s (waiting n s) := by
  have e : (waiting n s).eprAt n = regWrite (s.eprAt n) (rearmWord (s.recAt n).status) := by
    rw [waiting, State.setSeq_eprAt, State.eprAt_regWriteEpr]
    simp [h]
  refine ⟨by rw [e]; rfl, ?_⟩
  rw [e]
  refine ⟨rfl, by simp, by simp, by simp, by simp, by simp, ?_, ?_⟩
  · intro h1; simp [h1]
  · intro h1; simp [h1]

/-- `set_line_coding_finish` always completes, R245. -/
theorem setLineCodingFinish_eq_next (s : State) :
    setLineCodingFinish s = .next (written 0 []
      ((s.setLc (LineCoding.ofBytes s.scratch)).emit (.onLineCodingChanged (LineCoding.ofBytes s.scratch).toBytes))) :=
  ack_eq_next _

/-! ### The end of a wait -/

/-- The bytes a `read` of endpoint n gives, R149. -/
def received (n : Nat) (s : State) : List Byte := s.pmaBytes (s.recAt n).rxOff.toNat (s.recAt n).rxCount.toNat

/-- The state in which `wait_finish` queues its acknowledgement, R152 and R245. -/
def recordTaken (n : Nat) (s : State) : State :=
  { s with
    scratch := received n s ++ s.scratch.drop (received n s).length
    recs := s.recs.set n { s.recAt n with status := s.eprAt n }
    seq := .idle
    lc := LineCoding.ofBytes (received n s ++ s.scratch.drop (received n s).length)
    out := s.out ++
      [.onLineCodingChanged (LineCoding.ofBytes (received n s ++ s.scratch.drop (received n s).length)).toBytes] }

/-- The state `wait_finish` leaves. -/
def waitFinished (n : Nat) (s : State) : State :=
  commit n (setupEpilogue ((recordTaken n s).recAt n).status) (written 0 [] (recordTaken n s))

/-- Everything `wait_finish` does, R152. -/
theorem waitFinish_eq_next {n : Nat} {s t : State} :
    waitFinish n s = .next t ↔ (s.recAt n).rxCount.toNat ≤ Config.rxCapacity ∧
      s.bytesExist (s.recAt n).rxOff.toNat (s.recAt n).rxCount.toNat = true ∧ t = waitFinished n s := by
  simp only [waitFinish, andThen_eq_next, setLineCodingFinish_eq_next, Host.Outcome.next.injEq, exists_eq_left',
    epRead_eq_next, written_recAt]
  constructor
  · rintro ⟨d, ⟨h1, h2, rfl⟩, rfl⟩
    exact ⟨h1, h2, rfl⟩
  · rintro ⟨h1, h2, rfl⟩
    exact ⟨_, ⟨h1, h2, rfl⟩, rfl⟩

theorem waitFinish_eq_fault {n : Nat} {s : State} {x : Fault} :
    waitFinish n s = .fault x ↔ epRead n s = .fault x := by
  simp only [waitFinish, andThen_eq_fault, setLineCodingFinish_eq_next, reduceCtorEq, Host.Outcome.next.injEq, and_false,
    exists_false, or_false]

theorem waitFinish_not_refused (n : Nat) (s : State) (r : Refusal) : waitFinish n s ≠ .refused r := by
  unfold waitFinish epRead
  simp only [setLineCodingFinish_eq_next]
  split_ifs <;> simp

theorem recordTaken_recAt {n : Nat} {s : State} (h : n < s.recs.length) :
    (recordTaken n s).recAt n = { s.recAt n with status := s.eprAt n } := by
  simp [recordTaken, State.recAt, h]

theorem recordTaken_eprAt (n m : Nat) (s : State) : (recordTaken n s).eprAt m = s.eprAt m := rfl

/-! ### Wait steps -/

theorem execWaitTick_eq_next {s t : State} :
    execWaitTick s = .next t ↔ ∃ n b, s.seq = .wait n b ∧ (s.recAt n).rxPending = false ∧ 0 < b ∧
      t = s.setSeq (.wait n (b - 1)) := by
  unfold execWaitTick
  cases h : s.seq with
  | idle => simp
  | wait n b =>
    simp only [Seq.wait.injEq]
    split_ifs with h1
    · simp only [Host.Outcome.next.injEq]
      constructor
      · rintro rfl; exact ⟨n, b, ⟨rfl, rfl⟩, h1.1, h1.2, rfl⟩
      · rintro ⟨_, _, ⟨rfl, rfl⟩, -, -, rfl⟩; rfl
    · simp only [false_iff]
      rintro ⟨_, _, ⟨rfl, rfl⟩, h2, h3, -⟩
      exact h1 ⟨h2, h3⟩

theorem execWaitTick_ne_fault (s : State) (x : Fault) : execWaitTick s ≠ .fault x := by
  unfold execWaitTick
  cases s.seq with
  | idle => simp
  | wait n b => simp only; split_ifs <;> simp

theorem execWaitFinish_of_enabled {s : State} {n b : Nat} (h1 : s.seq = .wait n b)
    (h2 : (s.recAt n).rxPending = true ∨ b = 0) : execWaitFinish s = waitFinish n s := by
  unfold execWaitFinish
  simp only [h1, if_pos h2]

theorem execWaitFinish_of_not_enabled {s : State} {n b : Nat} (h1 : s.seq = .wait n b)
    (h2 : ¬ ((s.recAt n).rxPending = true ∨ b = 0)) : execWaitFinish s = .refused .notEnabled := by
  unfold execWaitFinish
  simp only [h1, if_neg h2]

theorem execWaitFinish_eq_next {s t : State} :
    execWaitFinish s = .next t ↔ ∃ n b, s.seq = .wait n b ∧ ((s.recAt n).rxPending = true ∨ b = 0) ∧
      waitFinish n s = .next t := by
  unfold execWaitFinish
  cases h : s.seq with
  | idle => simp
  | wait n b =>
    simp only [Seq.wait.injEq]
    split_ifs with h1
    · constructor
      · intro h2; exact ⟨n, b, ⟨rfl, rfl⟩, h1, h2⟩
      · rintro ⟨_, _, ⟨rfl, rfl⟩, -, h2⟩; exact h2
    · simp only [false_iff]
      rintro ⟨_, _, ⟨rfl, rfl⟩, h2, -⟩
      exact h1 h2

end Sys2Proof.Machine
end

