-- ==== Sys2Proof/Laws/LineCoding.lean ====
section
/-! SUPPORT. The Line Coding's seven bytes: storing and returning them is verbatim, spec/10_state.md R43. -/

namespace Sys2Proof.Machine

/-- The bits of a 32-bit number put together from four bytes. -/
theorem getLsbD_fourBytes (x y z w : Byte) (i : Nat) :
    BitVec.getLsbD (w := 32) (x ++ y ++ z ++ w) i =
      if i < 8 then w.getLsbD i else if i < 16 then z.getLsbD (i - 8)
      else if i < 24 then y.getLsbD (i - 16) else x.getLsbD (i - 24) := by
  refine (BitVec.getLsbD_append (x := x ++ y ++ z) (y := w) (i := i)).trans ?_
  rw [BitVec.getLsbD_append, BitVec.getLsbD_append]
  by_cases h1 : i < 8
  · simp [h1]
  by_cases h2 : i < 16
  · have : i - 8 < 8 := by omega
    simp [h1, h2, this]
  have h3 : ¬ i - 8 < 8 := by omega
  by_cases h4 : i < 24
  · have : i - 16 < 8 := by omega
    simp [h1, h2, h3, h4, this, Nat.sub_sub]
  · have : ¬ i - 16 < 8 := by omega
    simp [h1, h2, h3, h4, this, Nat.sub_sub]

theorem LineCoding.toBytes_ofBytes (b : List Byte) (h : 7 ≤ b.length) : (LineCoding.ofBytes b).toBytes = b.take 7 := by
  match b, h with
  | a0 :: a1 :: a2 :: a3 :: a4 :: a5 :: a6 :: rest, _ =>
    have e : ∀ (x y z w : Byte) (k : Nat) (v : Byte), (∀ i, i < 8 → BitVec.getLsbD (w := 32) (x ++ y ++ z ++ w) (k + i) = v.getLsbD i) →
        BitVec.extractLsb' (n := 32) k 8 (x ++ y ++ z ++ w) = v := by
      intro x y z w k v hv
      apply BitVec.eq_of_getLsbD_eq
      intro i hi
      rw [BitVec.getLsbD_extractLsb', hv i hi]
      simp [hi]
    have e0 := e a3 a2 a1 a0 0 a0 (fun i hi => by rw [getLsbD_fourBytes, if_pos (by omega)]; simp)
    have e1 := e a3 a2 a1 a0 8 a1 (fun i hi => by
      rw [getLsbD_fourBytes, if_neg (by omega), if_pos (by omega), show 8 + i - 8 = i by omega])
    have e2 := e a3 a2 a1 a0 16 a2 (fun i hi => by
      rw [getLsbD_fourBytes, if_neg (by omega), if_neg (by omega), if_pos (by omega), show 16 + i - 16 = i by omega])
    have e3 := e a3 a2 a1 a0 24 a3 (fun i hi => by
      rw [getLsbD_fourBytes, if_neg (by omega), if_neg (by omega), if_neg (by omega), show 24 + i - 24 = i by omega])
    show [_, _, _, _, a4, a5, a6] = [a0, a1, a2, a3, a4, a5, a6]
    exact congrArg₂ List.cons e0 (congrArg₂ List.cons e1 (congrArg₂ List.cons e2 (congrArg₂ List.cons e3 rfl)))

theorem LineCoding.ofBytes_toBytes (l : LineCoding) : LineCoding.ofBytes l.toBytes = l := by
  obtain ⟨r, a, b, c⟩ := l
  have : (LineCoding.ofBytes (LineCoding.toBytes ⟨r, a, b, c⟩)).rate = r := by
    apply BitVec.eq_of_getLsbD_eq
    intro i hi
    refine (getLsbD_fourBytes _ _ _ _ i).trans ?_
    simp only [LineCoding.toBytes, List.getD_cons_zero, List.getD_cons_succ, BitVec.getLsbD_extractLsb']
    split_ifs
    · simp [*]
    · rw [show 8 + (i - 8) = i by omega]; simp; omega
    · rw [show 16 + (i - 16) = i by omega]; simp; omega
    · rw [show 24 + (i - 24) = i by omega]; simp; omega
  show LineCoding.mk _ a b c = _
  rw [LineCoding.mk.injEq]
  exact ⟨this, rfl, rfl, rfl⟩

end Sys2Proof.Machine
end

