-- ==== Sys2Proof/Laws/Requests.lean ====
section
/-! SUPPORT. Everything a request of the SETUP path can do, and the control engine's three paths. -/

namespace Sys2Proof.Machine

/-- The SETUP path runs a request as `exec` does. -/
theorem runRequest_eq_exec {i : Instr} (h : i.format = .setup) (s : State) : runRequest i s = exec i s := by
  cases i <;> first | rfl | cases h

/-- What a request other than SET_LINE_CODING writes before it queues its reply. -/
inductive Prepared (s : State) : Instr → State → Prop
  | same (i : Instr) : Prepared s i s
  | address (wValue wIndex wLength : Word) :
      Prepared s (.setAddress wValue wIndex wLength) (s.setAddress (addressOf wValue))
  | configuration (wValue wIndex wLength : Word) :
      Prepared s (.setConfiguration wValue wIndex wLength) (s.setPhase .configured)
  | event (i : Instr) (e : Event) : Prepared s i (s.emit e)

/-- A reply is of at most 64 bytes, or is a descriptor clamped to the packet's `wLength`. -/
def ReplyBound (c : Params) (i : Instr) (b : List Byte) : Prop :=
  b.length ≤ Config.maxPacket ∨
  ∃ d ∈ descriptors c.desc, ∃ wLength, b = clampReply d wLength ∧ ∀ p, encodeSetup c i = some p → p.wLength = wLength

theorem replyBound_short {c : Params} {i : Instr} {b : List Byte} (h : b.length ≤ Config.maxPacket) : ReplyBound c i b :=
  .inl h

theorem replyBound_descriptor {c : Params} {i : Instr} {d : List Byte} {l : Word} (h : d ∈ descriptors c.desc)
    (hp : ∀ p, encodeSetup c i = some p → p.wLength = l) : ReplyBound c i (clampReply d l) :=
  .inr ⟨d, h, l, rfl, hp⟩

/-- Whether an operation is SET_LINE_CODING. -/
def IsSetLineCoding (i : Instr) : Prop := ∃ toHost wValue wIndex wLength, i = .setLineCoding toHost wValue wIndex wLength

/-- Everything a request does: one preparation and one reply on endpoint 0, or the start of SET_LINE_CODING's wait. -/
theorem exec_request {i : Instr} (h : i.format = .setup) (s : State) :
    (¬ IsSetLineCoding i ∧ ∃ s' b, Prepared s i s' ∧ ReplyBound s.cfg i b ∧ exec i s = epWrite 0 b s') ∨
    (IsSetLineCoding i ∧ exec i s = andThen (blockingReadStart 0 s) fun s1 => .next (s1.setHandlerRet .suspended)) := by
  have plain : ∀ {i : Instr} {b : List Byte}, ¬ IsSetLineCoding i → ReplyBound s.cfg i b → exec i s = epWrite 0 b s →
      (¬ IsSetLineCoding i ∧ ∃ s' b, Prepared s i s' ∧ ReplyBound s.cfg i b ∧ exec i s = epWrite 0 b s') ∨
      (IsSetLineCoding i ∧ exec i s = andThen (blockingReadStart 0 s) fun s1 => .next (s1.setHandlerRet .suspended)) :=
    fun h1 h2 h3 => .inl ⟨h1, s, _, .same _, h2, h3⟩
  have other : ∀ {j : Instr}, (∀ toHost wValue wIndex wLength, j ≠ .setLineCoding toHost wValue wIndex wLength) →
      ¬ IsSetLineCoding j := fun h3 ⟨a, b, c, d, e⟩ => h3 a b c d e
  have nil : ∀ j, ReplyBound s.cfg j [] := fun j => replyBound_short (by simp)
  cases i with
  | getDescriptorDevice w l =>
    exact plain (other (by simp)) (replyBound_descriptor (by simp [descriptors]) (by rintro p ⟨⟩; rfl)) rfl
  | getDescriptorConfiguration w l =>
    exact plain (other (by simp)) (replyBound_descriptor (by simp [descriptors]) (by rintro p ⟨⟩; rfl)) rfl
  | getDescriptorStringLanguage w l =>
    exact plain (other (by simp)) (replyBound_descriptor (by simp [descriptors]) (by rintro p ⟨⟩; rfl)) rfl
  | getDescriptorStringManufacturer w l =>
    exact plain (other (by simp)) (replyBound_descriptor (by simp [descriptors]) (by rintro p ⟨⟩; rfl)) rfl
  | getDescriptorStringProduct w l =>
    exact plain (other (by simp)) (replyBound_descriptor (by simp [descriptors]) (by rintro p ⟨⟩; rfl)) rfl
  | getDescriptorStringSerial w l =>
    exact plain (other (by simp)) (replyBound_descriptor (by simp [descriptors]) (by rintro p ⟨⟩; rfl)) rfl
  | getDescriptorDeviceQualifier w l =>
    exact plain (other (by simp)) (replyBound_descriptor (by simp [descriptors]) (by rintro p ⟨⟩; rfl)) rfl
  | getDescriptorUnknown v w l => exact plain (other (by simp)) (nil _) rfl
  | getStatus v w l => exact plain (other (by simp)) (replyBound_short (b := [0, 0]) (by decide)) rfl
  | stdD2hUnknown b v w l => exact plain (other (by simp)) (nil _) rfl
  | setAddress v w l => exact .inl ⟨other (by simp), _, [], .address v w l, nil _, rfl⟩
  | setConfiguration v w l => exact .inl ⟨other (by simp), _, [], .configuration v w l, nil _, rfl⟩
  | stdH2dUnknown b v w l => exact plain (other (by simp)) (nil _) rfl
  | clearFeatureEndpoint v w l => exact plain (other (by simp)) (nil _) rfl
  | stdEpH2dUnknown b v w l => exact plain (other (by simp)) (nil _) rfl
  | vendorRead r b v w l =>
    exact plain (other (by simp)) (replyBound_short (b := [s.cfg.vendorReadByte]) (by simp [Config.maxPacket])) rfl
  | vendorWrite r b v w l => exact plain (other (by simp)) (nil _) rfl
  | getLineCoding d v w l =>
    exact plain (other (by simp)) (replyBound_short (b := s.lc.toBytes) (by simp [Config.maxPacket, LineCoding.toBytes])) rfl
  | setLineCoding d v w l => exact .inr ⟨⟨d, v, w, l, rfl⟩, rfl⟩
  | setControlLineState d v w l => exact .inl ⟨other (by simp), _, [], .event _ _, nil _, rfl⟩
  | sendBreak d v w l => exact .inl ⟨other (by simp), _, [], .event _ _, nil _, rfl⟩
  | classUnknown d b v w l => exact plain (other (by simp)) (nil _) rfl
  | unknown bm b v w l => exact plain (other (by simp)) (nil _) rfl
  | ep0Setup => cases h
  | ep0Out => cases h
  | ep0In => cases h
  | irqReset => cases h
  | irqCtr e => cases h
  | configureEndpoint a b c d e => cases h
  | write n b => cases h
  | writeCommit n b => cases h
  | read n => cases h
  | blockingRead n => cases h
  | waitTick => cases h
  | waitFinish => cases h

/-- A request that answers a next state has queued a reply after its preparation, or has started the wait. -/
theorem exec_request_eq_next {i : Instr} (h : i.format = .setup) {s t : State} (ht : exec i s = .next t) :
    (¬ IsSetLineCoding i ∧ ∃ s' b, Prepared s i s' ∧ TxFits 0 b s' ∧ t = written 0 b s') ∨
    (IsSetLineCoding i ∧ s.seq = .idle ∧ t = (waiting 0 s).setHandlerRet .suspended) := by
  rcases exec_request h s with ⟨h1, s', b, h2, -, h3⟩ | ⟨h1, h2⟩
  · rw [h3] at ht
    obtain ⟨h4, h5⟩ := epWrite_eq_next.mp ht
    exact .inl ⟨h1, s', b, h2, h4, h5⟩
  · rw [h2] at ht
    obtain ⟨u, h3, h4⟩ := andThen_eq_next.mp ht
    obtain ⟨h5, rfl⟩ := blockingReadStart_eq_next.mp h3
    exact .inr ⟨h1, h5, by simpa [eq_comm] using h4⟩

theorem exec_request_not_refused {i : Instr} (h : i.format = .setup) (s : State) (r : Refusal) : exec i s ≠ .refused r := by
  rcases exec_request h s with ⟨-, s', b, -, -, h3⟩ | ⟨-, h2⟩
  · rw [h3]; unfold epWrite; split_ifs <;> simp
  · rw [h2]; unfold blockingReadStart; cases s.seq <;> simp

/-- A preparation keeps the tables, packet memory and everything the reply needs. -/
theorem Prepared.frame {s s' : State} {i : Instr} (h : Prepared s i s') :
    s' = { s with dev := s'.dev, out := s'.out } ∧ s'.cfg = s.cfg ∧ s'.recs = s.recs ∧ s'.epr = s.epr ∧
    s'.handlerRet = s.handlerRet := by
  cases h <;> exact ⟨rfl, rfl, rfl, rfl, rfl⟩

/-- A request other than SET_LINE_CODING keeps the tables and the value returned so far. -/
theorem exec_request_keeps {i : Instr} (h : i.format = .setup) {s t : State} (ht : exec i s = .next t) :
    (¬ IsSetLineCoding i ∧ t.recs = s.recs ∧ t.epr = s.epr ∧ t.handlerRet = s.handlerRet) ∨
    (IsSetLineCoding i ∧ s.seq = .idle ∧ t = (waiting 0 s).setHandlerRet .suspended) := by
  rcases exec_request_eq_next h ht with ⟨h1, s', b, h2, -, rfl⟩ | h1
  · obtain ⟨-, -, h3, h4, h5⟩ := h2.frame
    exact .inl ⟨h1, by simp [h3], by simp [h4], by simp [h5]⟩
  · exact .inr h1

/-! ### The three paths -/

theorem fetchRequest_zero (s : State) : fetchRequest 0 s = decodeSetup s.cfg s.packet := rfl

/-- The SETUP path: the request its packet selects, then the epilogue or the suspension, R192. -/
theorem setupPath_eq (n : Nat) (s : State) :
    setupPath n s =
      if s.bytesExist (s.recAt n).rxOff.toNat 8 then
        andThen (exec (fetchRequest n s) (s.setHandlerRet .none)) fun s1 => .next (returnResult n s1)
      else .fault .pmaBadAccess := by
  have h : runRequest (fetchRequest n s) (s.setHandlerRet .none) = exec (fetchRequest n s) (s.setHandlerRet .none) :=
    runRequest_eq_exec (decodeSetup_format _ _) _
  rw [setupPath, h]

theorem returnResult_of_suspended {n : Nat} {s : State} (h : s.handlerRet = .suspended) : returnResult n s = s := by
  simp only [returnResult, h]

theorem returnResult_of_none {n : Nat} {s : State} (h : s.handlerRet = .none) :
    returnResult n s = s.setHandlerRet (.done (setupEpilogue (s.recAt n).status)) := by
  simp only [returnResult, h]

theorem returnResult_ne_none (n : Nat) (s : State) : (returnResult n s).handlerRet ≠ .none := by
  unfold returnResult
  cases h : s.handlerRet <;> simp [h]

theorem recAt_congr {s t : State} (h : t.recs = s.recs) (n : Nat) : t.recAt n = s.recAt n := by
  simp only [State.recAt, h]

theorem eprAt_congr {s t : State} (h : t.epr = s.epr) (n : Nat) : t.eprAt n = s.eprAt n := by
  simp only [State.eprAt, h]

/-- Everything a completed SETUP path has done, R192, R193 and R177. -/
theorem setupPath_eq_next {n : Nat} {s t : State} :
    setupPath n s = .next t ↔ s.bytesExist (s.recAt n).rxOff.toNat 8 = true ∧
      ∃ u, exec (fetchRequest n s) (s.setHandlerRet .none) = .next u ∧
        (¬ IsSetLineCoding (fetchRequest n s) ∧ t = u.setHandlerRet (.done (setupEpilogue (s.recAt n).status)) ∨
         IsSetLineCoding (fetchRequest n s) ∧ t = u) := by
  have hf : (fetchRequest n s).format = .setup := decodeSetup_format _ _
  rw [setupPath_eq]
  split_ifs with h
  · simp only [andThen_eq_next, h, true_and, Host.Outcome.next.injEq]
    refine exists_congr fun u => and_congr_right fun hu => ?_
    rcases exec_request_keeps hf hu with ⟨h1, h2, -, h4⟩ | ⟨h1, -, h3⟩
    · rw [returnResult_of_none (by rw [h4]; rfl), recAt_congr h2, State.setHandlerRet_recAt]
      simp [h1, eq_comm]
    · rw [returnResult_of_suspended (by rw [h3]; rfl)]
      simp [h1, eq_comm]
  · simp [h]

/-- The SETUP path faults where its request does. -/
theorem setupPath_eq_fault {n : Nat} {s : State} {x : Fault} :
    setupPath n s = .fault x ↔
      s.bytesExist (s.recAt n).rxOff.toNat 8 = false ∧ x = .pmaBadAccess ∨
      s.bytesExist (s.recAt n).rxOff.toNat 8 = true ∧ exec (fetchRequest n s) (s.setHandlerRet .none) = .fault x := by
  rw [setupPath_eq]
  split_ifs with h
  · simp [h, andThen_eq_fault]
  · simp [h, eq_comm]

theorem State.Wf.packetExists {s : State} (h : s.Wf) (n : Nat) : s.bytesExist (s.recAt n).rxOff.toNat 8 = true :=
  h.bytesExist (by decide)

/-- The handler's path by its flags, R190 and R191, for the flag vectors a snapshot can give. -/
theorem ep0Handler_eq {n : Nat} {s : State} (h : (s.recAt n).setupPending = true → (s.recAt n).rxPending = true) :
    ep0Handler n s =
      if (s.recAt n).rxPending = (s.recAt n).txPending then .fault .flagInvariant
      else if (s.recAt n).rxPending then (if (s.recAt n).setupPending then setupPath n s else outPath n s)
      else inPath n s := by
  unfold ep0Handler flagVector
  cases h1 : (s.recAt n).rxPending <;> cases h2 : (s.recAt n).txPending <;> cases h3 : (s.recAt n).setupPending <;>
    simp_all <;> rfl

end Sys2Proof.Machine
end

