-- ==== Sys2Proof/Laws/Dispatcher.lean ====
section
/-! SUPPORT. What the handlers and the Interrupt Dispatcher do: one specification each. -/

namespace Sys2Proof.Machine

/-! ### The snapshot -/

@[simp] theorem snapshot_cfg (n : Nat) (s : State) : (snapshot n s).cfg = s.cfg := rfl
@[simp] theorem snapshot_epr (n : Nat) (s : State) : (snapshot n s).epr = s.epr := rfl
@[simp] theorem snapshot_eprAt (n m : Nat) (s : State) : (snapshot n s).eprAt m = s.eprAt m := rfl
@[simp] theorem snapshot_pma (n : Nat) (s : State) : (snapshot n s).pma = s.pma := rfl
@[simp] theorem snapshot_dev (n : Nat) (s : State) : (snapshot n s).dev = s.dev := rfl
@[simp] theorem snapshot_daddr (n : Nat) (s : State) : (snapshot n s).daddr = s.daddr := rfl
@[simp] theorem snapshot_seq (n : Nat) (s : State) : (snapshot n s).seq = s.seq := rfl
@[simp] theorem snapshot_handlerRet (n : Nat) (s : State) : (snapshot n s).handlerRet = s.handlerRet := rfl
@[simp] theorem snapshot_lc (n : Nat) (s : State) : (snapshot n s).lc = s.lc := rfl
@[simp] theorem snapshot_scratch (n : Nat) (s : State) : (snapshot n s).scratch = s.scratch := rfl
@[simp] theorem snapshot_fault (n : Nat) (s : State) : (snapshot n s).fault = s.fault := rfl
@[simp] theorem snapshot_istrReset (n : Nat) (s : State) : (snapshot n s).istrReset = s.istrReset := rfl
@[simp] theorem snapshot_out (n : Nat) (s : State) : (snapshot n s).out = s.out := rfl
@[simp] theorem snapshot_draws (n : Nat) (s : State) : (snapshot n s).draws = s.draws := rfl
@[simp] theorem snapshot_script (n : Nat) (s : State) : (snapshot n s).script = s.script := rfl
@[simp] theorem snapshot_appBuf (n : Nat) (s : State) : (snapshot n s).appBuf = s.appBuf := rfl
@[simp] theorem snapshot_pmaByte (n a : Nat) (s : State) : (snapshot n s).pmaByte a = s.pmaByte a := rfl
@[simp] theorem snapshot_bt (n m : Nat) (k : BtSlot) (s : State) : (snapshot n s).bt m k = s.bt m k := rfl

/-- The served endpoint's record after the snapshot. -/
theorem snapshot_recAt_self {n : Nat} {s : State} (h : n < s.recs.length) :
    (snapshot n s).recAt n = (s.recAt n).snapshot (s.eprAt n) (s.bt n .countRx) := by
  rw [State.recAt_snapshot, if_pos ⟨rfl, h⟩]

/-- The snapshot moves no view and binds no handler. -/
theorem snapshot_recAt_static (n m : Nat) (s : State) :
    ((snapshot n s).recAt m).txOff = (s.recAt m).txOff ∧ ((snapshot n s).recAt m).rxOff = (s.recAt m).rxOff ∧
    ((snapshot n s).recAt m).handler = (s.recAt m).handler := by
  rw [State.recAt_snapshot]
  split_ifs with h
  · obtain ⟨rfl, -⟩ := h; exact ⟨rfl, rfl, rfl⟩
  · exact ⟨rfl, rfl, rfl⟩

theorem snapshot_packet (s : State) : (snapshot 0 s).packet = s.packet := by
  simp only [State.packet, (snapshot_recAt_static 0 0 s).2.1]
  rfl

/-- The handler of endpoint 0 on a record just snapshotted, by the two completion flags and `SETUP`. -/
theorem ep0Handler_snapshot {n : Nat} {s : State} (h : n < s.recs.length) :
    ep0Handler n (snapshot n s) =
      if ctrRx (s.eprAt n) = ctrTx (s.eprAt n) then .fault .flagInvariant
      else if ctrRx (s.eprAt n) then
        (if setupBit (s.eprAt n) then setupPath n (snapshot n s) else outPath n (snapshot n s))
      else inPath n (snapshot n s) := by
  rw [ep0Handler_eq (by rw [snapshot_recAt_self h]; simp [Record.snapshot]), snapshot_recAt_self h]
  simp only [Record.snapshot]
  by_cases h1 : ctrRx (s.eprAt n) = true <;> by_cases h2 : setupBit (s.eprAt n) = true <;> simp [h1, h2]

/-! ### Data endpoints -/

theorem inWords_mono {a x len : Nat} (h : len ≤ 64) (hx : inWords a len x) : inWords a 64 x := by
  simp only [inWords, ceil2] at *; omega

/-- `t` is `s` after a handler of endpoint n with this status word has returned within R287's contract: its events, its draws,
its returned word, its transmit view and `COUNT_TX`. -/
def HandlerDone (n : Nat) (status : Word) (s t : State) : Prop :=
  ∃ (es : List (List Byte)) (rx tx : Option Stat) (rrx rtx a b : Bool),
    t = { s with pma := t.pma, draws := t.draws, out := s.out ++ es.map (.handlerEvent n),
                 handlerRet := .done ⟨mkStatus status rx tx rrx rtx, a, b⟩ } ∧
    (∀ a, ¬ inWords (s.recAt n).txOff.toNat 64 a → ¬ inCountTx n a → t.pmaByte a = s.pmaByte a)

theorem handlerDone_return (call : HandlerCall) (seen : List (List Byte)) (s : State) :
    HandlerDone call.endpoint call.status s (handlerReturn call seen s) :=
  ⟨[], _, _, _, _, _, _, by rw [List.map_nil, List.append_nil]; rfl, fun _ _ _ => rfl⟩

theorem HandlerDone.afterWrite {n : Nat} {status : Word} {b : List Byte} {s t : State} (hl : b.length ≤ 64)
    (h : HandlerDone n status (written n b s) t) : HandlerDone n status s t := by
  obtain ⟨es, rx, tx, rrx, rtx, x, y, h2, h3⟩ := h
  obtain ⟨e1, -, -, e4⟩ := replyQueued_written n b s
  refine ⟨es, rx, tx, rrx, rtx, x, y, by rw [h2, e1], fun a ha hc => ?_⟩
  rw [h3 a (by simpa using ha) hc, e4 a (fun hx => ha (inWords_mono hl hx)) hc]

theorem HandlerDone.afterEmit {n : Nat} {status : Word} {e : List Byte} {s t : State}
    (h : HandlerDone n status (s.emit (.handlerEvent n e)) t) : HandlerDone n status s t := by
  obtain ⟨es, rx, tx, rrx, rtx, x, y, h2, h3⟩ := h
  exact ⟨e :: es, rx, tx, rrx, rtx, x, y, by rw [h2]; simp [State.emit], h3⟩

/-- A handler's actions within R287's contract complete where a read does. -/
theorem handlerRun_eq_next {call : HandlerCall} (fuel : Nat) (seen : List (List Byte)) {s : State}
    (h : (s.recAt call.endpoint).txOff.toNat % 2 = 0 ∧ (s.recAt call.endpoint).txOff.toNat + 64 ≤ s.cfg.pmaSize)
    (hr : ∃ d, epRead call.endpoint s = .next d) :
    ∃ t, handlerRun call fuel seen s = .next t ∧ HandlerDone call.endpoint call.status s t := by
  induction fuel generalizing seen s with
  | zero => exact ⟨_, rfl, handlerDone_return call seen s⟩
  | succ fuel ih =>
    unfold handlerRun
    split
    · exact ⟨_, rfl, handlerDone_return call seen s⟩
    · obtain ⟨d, hd⟩ := hr
      rw [hd, andThen_next]
      exact ih _ h ⟨d, hd⟩
    · next b _ =>
      have hl : (b.take Config.maxPacket).length ≤ 64 := by simp [Config.maxPacket]
      have hfit : TxFits call.endpoint (b.take Config.maxPacket) s :=
        ⟨hl, (wordsExist_iff _ _ _).mpr (.inr ⟨h.1, by have := ceil2_le (k := 32) hl; omega⟩)⟩
      have hr1 : ∃ d, epRead call.endpoint (written call.endpoint (b.take Config.maxPacket) s) = .next d := by
        obtain ⟨d, hd⟩ := hr
        obtain ⟨h1, h2, -⟩ := epRead_eq_next.mp hd
        exact ⟨_, epRead_eq_next.mpr ⟨by simpa using h1, by simpa [State.bytesExist] using h2, rfl⟩⟩
      rw [epWrite_eq_next.mpr ⟨hfit, rfl⟩, andThen_next]
      obtain ⟨t, h1, h2⟩ := ih (seen ++ [[]]) (by simpa using h) hr1
      exact ⟨t, h1, h2.afterWrite hl⟩
    · next e _ =>
      obtain ⟨t, h1, h2⟩ := ih (seen ++ [[]]) (s := s.emit (.handlerEvent call.endpoint e)) h hr
      exact ⟨t, h1, h2.afterEmit⟩

/-- The default handler, R287: it reads where a reception is pending, else reports a transmission. -/
theorem passthroughHandler_eq (n : Nat) (s : State) :
    passthroughHandler n s =
      if (s.recAt n).rxPending then
        andThen (epRead n s) fun d => .next { s with
          out := s.out ++ [.dataRx n d]
          handlerRet := .done ⟨mkStatus (s.recAt n).status (some .valid) none false false, false, false⟩ }
      else .next { s with
        out := s.out ++ (if (s.recAt n).txPending then [.dataTxDone n] else [])
        handlerRet := .done ⟨mkStatus (s.recAt n).status none none false false, false, false⟩ } := by
  unfold passthroughHandler
  simp only
  split_ifs with h1 h2
  · rfl
  · rfl
  · simp [State.setHandlerRet]

/-- Any handler within R287's contract completes where a read does. -/
theorem contractHandler_eq_next {n : Nat} {s : State}
    (h : (s.recAt n).txOff.toNat % 2 = 0 ∧ (s.recAt n).txOff.toNat + 64 ≤ s.cfg.pmaSize)
    (hr : ∃ d, epRead n s = .next d) :
    ∃ t, contractHandler n s = .next t ∧ HandlerDone n (s.recAt n).status s t := by
  obtain ⟨t, h1, es, rx, tx, rrx, rtx, x, y, h2, h3⟩ :=
    handlerRun_eq_next (call := handlerCall n s) (Config.handlerBound (handlerCall n s)) [] (s := s.bumpDraws) h hr
  exact ⟨t, h1, es, rx, tx, rrx, rtx, x, y, h2, h3⟩

/-- `DATA_HANDLER` completes with exactly one of the two flags set, as the machine's handler does. -/
theorem dataHandler_eq_next {n : Nat} {s t : State} :
    dataHandler n s = .next t ↔ (s.recAt n).rxPending ≠ (s.recAt n).txPending ∧
      ((s.cfg.dataHandler = .passthrough ∧ passthroughHandler n s = .next t) ∨
       (s.cfg.dataHandler = .unspecified ∧ contractHandler n s = .next t)) := by
  unfold dataHandler
  split_ifs with h
  · simp [h]
  · cases s.cfg.dataHandler <;> simp [h]

/-! ### The correct-transfer path -/

theorem State.configured_lt {s : State} (h : s.cfg.numEp = s.recs.length) {n : Nat} (hn : s.configured n = true) :
    n < s.recs.length := by
  rw [State.configured_eq_true] at hn; omega

/-- The correct-transfer path, R173. -/
theorem execIrqCtr_eq (e : BitVec 4) (s : State) :
    execIrqCtr e s =
      if s.configured e.toNat then
        andThen (invoke e.toNat (snapshot e.toNat (s.setHandlerRet .none))) fun s1 => .next (finishCtr e.toNat s1)
      else .fault .noHandler := rfl

theorem finishCtr_done {n : Nat} {s : State} {r : HandlerResult} (h : s.handlerRet = .done r) :
    finishCtr n s = commit n r (s.setHandlerRet .none) := by simp only [finishCtr, h]

theorem finishCtr_suspended {n : Nat} {s : State} (h : s.handlerRet = .suspended) :
    finishCtr n s = s.setHandlerRet .none := by simp only [finishCtr, h]

theorem commit_eq (n : Nat) (r : HandlerResult) (s : State) :
    commit n r s = { s with epr := s.epr.set n (regWrite (s.eprAt n) (commitWord r)) } := rfl

/-- A commit by fields. -/
theorem commit_self {n : Nat} {r : HandlerResult} {s : State} (h : n < s.epr.length) :
    commit n r s = { s with epr := s.epr.set n ((commit n r s).eprAt n) } := by
  rw [State.eprAt_commit, if_pos ⟨rfl, h⟩]; rfl

/-- The end of a dispatch whose handler returned a result: its commit, and no call left open. -/
theorem finishCtr_eq {n : Nat} {s : State} {r : HandlerResult} (h : s.handlerRet = .done r) (hn : n < s.epr.length) :
    finishCtr n s = { s with epr := s.epr.set n ((finishCtr n s).eprAt n), handlerRet := .none } := by
  rw [finishCtr_done h]
  exact commit_self (s := s.setHandlerRet .none) hn

/-- The served endpoint's register at the end of a dispatch, R176. -/
theorem eprBecomes_finishCtr {n : Nat} {s : State} {e : Word} {rx tx : Option Stat} {rrx rtx a b : Bool}
    (h : s.handlerRet = .done ⟨mkStatus e rx tx rrx rtx, a, b⟩) (he : s.eprAt n = e) (hn : n < s.epr.length) :
    EprBecomes ((finishCtr n s).eprAt n) e (statOr (statRx e) rx) (statOr (statTx e) tx)
      (dtogRx e && !(a && rrx)) (dtogTx e && !(b && rtx)) false false := by
  rw [finishCtr_done h, ← he]
  exact eprBecomes_commit (s := s.setHandlerRet .none) hn rx tx rrx rtx a b

end Sys2Proof.Machine
end

