-- ==== Sys2Proof/Laws/Interrupts.lean ====
section
/-! SUPPORT. The interrupt status register by its fields, and which endpoint `EP_ID` names. -/

namespace Sys2Proof.Machine

theorem getLsbD_istr (s : State) (i : Nat) :
    s.istr.getLsbD i =
      (decide (i = 15) && s.istrCtr || decide (i = 10) && s.istrReset || decide (i < 4) && s.epIdField.getLsbD i) := by
  have h1 : (0x8000#16).getLsbD i = decide (i = 15) := by
    by_cases h : i < 16
    · interval_cases i <;> decide
    · rw [BitVec.getLsbD_of_ge _ _ (by omega)]; simp; omega
  have h2 : (0x0400#16).getLsbD i = decide (i = 10) := by
    by_cases h : i < 16
    · interval_cases i <;> decide
    · rw [BitVec.getLsbD_of_ge _ _ (by omega)]; simp; omega
  have h3 : (s.epIdField.zeroExtend 16).getLsbD i = (decide (i < 4) && s.epIdField.getLsbD i) := by
    rw [BitVec.getLsbD_setWidth]
    by_cases h : i < 4
    · simp [h, show i < 16 by omega]
    · rw [BitVec.getLsbD_of_ge s.epIdField _ (by omega)]; simp
  unfold State.istr
  rw [BitVec.getLsbD_or, BitVec.getLsbD_or, h3]
  cases s.istrCtr <;> cases s.istrReset <;> simp [h1, h2]

theorem mem_pendingEps {s : State} {n : Nat} : n ∈ s.pendingEps ↔ n < s.epr.length ∧ pendingWord (s.eprAt n) = true := by
  simp [State.pendingEps]

theorem istrCtr_iff {s : State} : s.istrCtr = true ↔ ∃ n, n < s.epr.length ∧ pendingWord (s.eprAt n) = true := by
  simp only [State.istrCtr, List.any_eq_true, State.eprAt]
  constructor
  · rintro ⟨e, he, hp⟩
    obtain ⟨n, hn, rfl⟩ := List.getElem_of_mem he
    exact ⟨n, hn, by simpa [hn] using hp⟩
  · rintro ⟨n, hn, hp⟩
    exact ⟨s.epr[n], List.getElem_mem hn, by simpa [hn] using hp⟩

/-- `EP_ID` names a pending endpoint when there is one, R34. -/
theorem epIdField_pending {s : State} (hl : s.epr.length ≤ 16) (h : s.istrCtr = true) :
    s.epIdField.toNat < s.epr.length ∧ pendingWord (s.eprAt s.epIdField.toNat) = true := by
  rw [← mem_pendingEps]
  have key : ∀ n, n ∈ s.pendingEps → (BitVec.ofNat 4 n).toNat = n := by
    intro n hn
    have := (mem_pendingEps.mp hn).1
    rw [BitVec.toNat_ofNat]; omega
  have hne : s.pendingEps ≠ [] := by
    obtain ⟨n, hn⟩ := istrCtr_iff.mp h
    exact List.ne_nil_of_mem (mem_pendingEps.mpr hn)
  unfold State.epIdField
  generalize s.pendingEps = ns at key hne
  match ns, key, hne with
  | [n], key, _ => rw [key n (by simp)]; simp
  | n :: m :: rest, key, _ =>
    have hmod := Nat.mod_lt (Config.drawChoice s.draws) (show 0 < (n :: m :: rest).length by simp)
    have hm : (n :: m :: rest).getD (Config.drawChoice s.draws % (n :: m :: rest).length) 0 ∈ n :: m :: rest := by
      rw [List.getD_eq_getElem?_getD, List.getElem?_eq_getElem hmod]
      exact List.getElem_mem hmod
    rw [key _ hm]; exact hm

/-- A word has all bits of a one-bit mask exactly if it has that bit. -/
theorem and_twoPow_eq (w : Word) (k : Nat) : w &&& BitVec.twoPow 16 k = BitVec.twoPow 16 k ↔ k < 16 → w.getLsbD k = true := by
  rw [BitVec.and_twoPow]
  by_cases hk : k < 16
  · cases h : w.getLsbD k
    · simp only [Bool.false_eq_true, if_false, hk, true_imp_iff, iff_false]
      intro h0
      have := congrArg (fun x => x.getLsbD k) h0
      simp [hk] at this
    · simp
  · have : BitVec.twoPow 16 k = 0#16 := by
      apply BitVec.eq_of_toNat_eq
      rw [BitVec.toNat_twoPow]
      exact Nat.mod_eq_zero_of_dvd (pow_dvd_pow 2 (by omega))
    rw [this]; simp [hk]

/-- The operation the interrupt status selects, R107: the reset path before the correct-transfer path. -/
theorem decodeIstr_istr (s : State) :
    decodeIstr s.istr =
      if s.istrReset then some .irqReset else if s.istrCtr then some (.irqCtr s.epIdField) else none := by
  have h10 := (and_twoPow_eq s.istr 10)
  have h15 := (and_twoPow_eq s.istr 15)
  have hid : s.istr.extractLsb' 0 4 = s.epIdField := by
    apply BitVec.eq_of_getLsbD_eq
    intro i hi
    rw [BitVec.getLsbD_extractLsb', Nat.zero_add, getLsbD_istr]
    simp [hi, show i ≠ 15 by omega, show i ≠ 10 by omega]
  rw [getLsbD_istr] at h10 h15
  simp only [Nat.reduceLT, true_imp_iff, Nat.reduceEqDiff, decide_false, decide_true, Bool.false_and, Bool.true_and,
    Bool.or_false, Bool.false_or, BitVec.twoPow] at h10 h15
  unfold decodeIstr
  rw [hid]
  simp only [show (0x0400 : Word) = 1#16 <<< 10 by decide, show (0x8000 : Word) = 1#16 <<< 15 by decide, h10, h15]

end Sys2Proof.Machine
end

