-- ==== Sys2Proof/Laws/Step.lean ====
section
/-! SUPPORT. A step by its script, when each move is enabled, and the power-up state. -/

namespace Sys2Proof.Machine

theorem step_of_fault {s : State} {x : Fault} (h : s.fault = some x) : step s = .fault x := by
  unfold step
  rw [h]

theorem step_of_move {s : State} {m : Move} {rest : List Move} (h1 : s.fault = none) (h2 : s.script = m :: rest) :
    step s = settle s (runMove m { s with script := rest }) := by
  have e : s.setScript rest = { s with script := rest } := rfl
  rw [← e]
  unfold step
  split
  · next x hx => rw [h1] at hx; cases hx
  · simp only [h2]

theorem step_of_empty {s : State} (h1 : s.fault = none) (h2 : s.script = []) : step s = settle s (engineStep s) := by
  unfold step
  split
  · next x hx => rw [h1] at hx; cases hx
  · simp only [h2]

@[simp] theorem settle_next (s t : State) : settle s (.next t) = .next t := rfl
@[simp] theorem settle_fault (s : State) (x : Fault) : settle s (.fault x) = .next (s.recordFault x) := rfl
@[simp] theorem settle_refused (s : State) (r : Refusal) : settle s (.refused r) = .refused r := rfl

theorem settle_eq_next {s t : State} {o : Host.Outcome State Fault Refusal} :
    settle s o = .next t ↔ o = .next t ∨ ∃ x, o = .fault x ∧ t = s.recordFault x := by
  cases o <;> simp [eq_comm]

theorem recordFault_of_none {s : State} {x : Fault} (h : s.fault = none) : s.recordFault x = { s with fault := some x } := by
  unfold State.recordFault
  split
  · rfl
  · next y hy => rw [h] at hy; cases hy

/-! ### When moves are enabled -/

theorem dispatchEnabled_iff {s : State} :
    dispatchEnabled s = true ↔ s.fault = none ∧ (s.istrReset = true ∨ s.istrCtr = true) ∧
      (s.seq = .idle ∨ s.cfg.reentrant = true) := by
  simp [dispatchEnabled, and_assoc]

theorem waitTickEnabled_iff {s : State} :
    waitTickEnabled s = true ↔ ∃ n b, s.seq = .wait n b ∧ (s.recAt n).rxPending = false ∧ 0 < b := by
  unfold waitTickEnabled
  cases s.seq <;> simp

theorem waitFinishEnabled_iff {s : State} :
    waitFinishEnabled s = true ↔ ∃ n b, s.seq = .wait n b ∧ ((s.recAt n).rxPending = true ∨ b = 0) := by
  unfold waitFinishEnabled
  cases s.seq <;> simp

theorem appConfigureEnabled_iff {id : Nat} {s : State} : appConfigureEnabled id s = true ↔ s.seq = .idle ∧ 1 ≤ id := by
  simp [appConfigureEnabled, appRuns]

theorem appWriteEnabled_iff {id : Nat} {s : State} :
    appWriteEnabled id s = true ↔ s.seq = .idle ∧ 1 ≤ id ∧ id < s.cfg.numEp ∧ (s.recAt id).handler = .data := by
  simp [appWriteEnabled, appRuns, and_assoc]

theorem appReadEnabled_iff {id : Nat} {s : State} :
    appReadEnabled id s = true ↔ s.seq = .idle ∧ id < s.cfg.numEp ∧ (s.recAt id).handler ≠ .none := by
  simp [appReadEnabled, appRuns, State.configured]

theorem tokenAccepted_iff {n : Nat} {addr : BitVec 7} {s : State} : tokenAccepted n addr s = true ↔ Accepts n addr s := by
  simp [tokenAccepted, Accepts, and_assoc]

/-! ### The power-up state -/

@[simp] theorem powerUp_eprAt (c : Params) (n : Nat) : (State.powerUp c).eprAt n = 0 := by
  simp only [State.eprAt, State.powerUp, List.getD_eq_getElem?_getD, List.getElem?_replicate]
  split <;> rfl

@[simp] theorem powerUp_recAt (c : Params) (n : Nat) : (State.powerUp c).recAt n = Record.powerUp := by
  simp only [State.recAt, State.powerUp, List.getD_eq_getElem?_getD, List.getElem?_replicate]
  split <;> rfl

end Sys2Proof.Machine
end

