-- ==== Sys2Proof/Laws/BusSide.lean ====
section
/-! SUPPORT. What the bus side's transactions do: a packet stored, a register changed. -/

namespace Sys2Proof.Machine

theorem getLsbD_fc00 (i : Nat) : (0xFC00 : Word).getLsbD i = decide (10 ≤ i ∧ i < 16) := by
  by_cases h : i < 16
  · interval_cases i <;> decide
  · rw [BitVec.getLsbD_of_ge _ _ (by omega)]; simp; omega

theorem getLsbD_03ff (i : Nat) : (0x03FF : Word).getLsbD i = decide (i < 10) := by
  by_cases h : i < 16
  · interval_cases i <;> decide
  · rw [BitVec.getLsbD_of_ge _ _ (by omega)]; simp; omega

/-- The count field of a `COUNT` word whose count was replaced. -/
theorem countField_withCount (w : Word) {n : Nat} (h : n < 1024) : (countField (withCount w n)).toNat = n := by
  have : countField (withCount w n) = BitVec.ofNat 10 n := by
    apply BitVec.eq_of_getLsbD_eq
    intro i hi
    rw [countField, BitVec.getLsbD_extractLsb', withCount, Nat.zero_add, BitVec.getLsbD_or, BitVec.getLsbD_and,
      BitVec.getLsbD_and, getLsbD_fc00, getLsbD_03ff, BitVec.getLsbD_ofNat, BitVec.getLsbD_ofNat]
    simp [hi, show ¬ 10 ≤ i by omega, show i < 16 by omega]
  rw [this, BitVec.toNat_ofNat]
  omega

/-- The capacity bits of a `COUNT_RX` word are kept, R37. -/
theorem withCount_capacity (w : Word) (n : Nat) : withCount w n &&& 0xFC00 = w &&& 0xFC00 := by
  apply BitVec.eq_of_getLsbD_eq
  intro i hi
  simp only [withCount, BitVec.getLsbD_and, BitVec.getLsbD_or]
  rw [getLsbD_fc00, getLsbD_03ff]
  by_cases h : 10 ≤ i <;> simp [h, hi, show i < 10 ↔ ¬ 10 ≤ i by omega]

/-- A packet stored at an offset and its length in `COUNT_RX`. -/
def stored (n a : Nat) (b : List Byte) (s : State) : State :=
  (s.copyWords a b).setBt n .countRx (withCount ((s.copyWords a b).bt n .countRx) b.length)

@[simp] theorem stored_eprAt (n a m : Nat) (b : List Byte) (s : State) : (stored n a b s).eprAt m = s.eprAt m := by
  simp [stored]

@[simp] theorem stored_recAt (n a m : Nat) (b : List Byte) (s : State) : (stored n a b s).recAt m = s.recAt m := by
  simp [stored]

theorem stored_eq (n a : Nat) (b : List Byte) (s : State) :
    stored n a b s = { s with pma := (stored n a b s).pma, draws := s.draws + b.length % 2 } := by
  rw [stored, State.setBt_eq, State.copyWords_eq]

@[simp] theorem stored_cfg (n a : Nat) (b : List Byte) (s : State) : (stored n a b s).cfg = s.cfg := by rw [stored_eq]
@[simp] theorem stored_recs (n a : Nat) (b : List Byte) (s : State) : (stored n a b s).recs = s.recs := by rw [stored_eq]
@[simp] theorem stored_dev (n a : Nat) (b : List Byte) (s : State) : (stored n a b s).dev = s.dev := by rw [stored_eq]
@[simp] theorem stored_lc (n a : Nat) (b : List Byte) (s : State) : (stored n a b s).lc = s.lc := by rw [stored_eq]
@[simp] theorem stored_seq (n a : Nat) (b : List Byte) (s : State) : (stored n a b s).seq = s.seq := by rw [stored_eq]
@[simp] theorem stored_scratch (n a : Nat) (b : List Byte) (s : State) : (stored n a b s).scratch = s.scratch := by rw [stored_eq]
@[simp] theorem stored_fault (n a : Nat) (b : List Byte) (s : State) : (stored n a b s).fault = s.fault := by rw [stored_eq]
@[simp] theorem stored_epr (n a : Nat) (b : List Byte) (s : State) : (stored n a b s).epr = s.epr := by rw [stored_eq]
@[simp] theorem stored_istrReset (n a : Nat) (b : List Byte) (s : State) : (stored n a b s).istrReset = s.istrReset := by rw [stored_eq]
@[simp] theorem stored_daddr (n a : Nat) (b : List Byte) (s : State) : (stored n a b s).daddr = s.daddr := by rw [stored_eq]
@[simp] theorem stored_out (n a : Nat) (b : List Byte) (s : State) : (stored n a b s).out = s.out := by rw [stored_eq]
@[simp] theorem stored_script (n a : Nat) (b : List Byte) (s : State) : (stored n a b s).script = s.script := by rw [stored_eq]
@[simp] theorem stored_handlerRet (n a : Nat) (b : List Byte) (s : State) : (stored n a b s).handlerRet = s.handlerRet := by rw [stored_eq]
@[simp] theorem stored_appBuf (n a : Nat) (b : List Byte) (s : State) : (stored n a b s).appBuf = s.appBuf := by rw [stored_eq]

/-- Bytes in packet memory decide the words read from it. -/
theorem bt_congr {s t : State} {n : Nat} {k : BtSlot} (h : ∀ a, btAddr n k ≤ a → a < btAddr n k + 2 → t.pmaByte a = s.pmaByte a) :
    t.bt n k = s.bt n k := by
  simp only [State.bt, State.pmaWord]
  rw [h _ (by omega) (by omega), h _ (by omega) (by omega)]

theorem getLsbD_pmaWord_congr {s t : State} (h : t.pma = s.pma) (a : Nat) : t.pmaWord a = s.pmaWord a := by
  simp only [State.pmaWord, State.pmaByte, h]

/-- Everything the storing of a packet does, R273 and R274. -/
theorem received_stored {n a : Nat} {b : List Byte} (hb : b.length < 1024) (s : State) (e : Word) :
    Received n a b s ((stored n a b s).setEpr n e) ∨ s.epr.length ≤ n := by
  by_cases hn : s.epr.length ≤ n
  · exact .inr hn
  refine .inl ⟨?_, ?_, ?_, ?_, ?_⟩
  · have he : ((stored n a b s).setEpr n e).eprAt n = e := by
      rw [State.eprAt_setEpr, if_pos ⟨rfl, by rw [stored_eq]; show n < s.epr.length; omega⟩]
    rw [he]
    apply State.ext <;> simp [State.setEpr]
    simp [stored]
  · intro i hi hc
    show (stored n a b s).pmaByte (a + i) = _
    simp only [inCountRx, not_and, not_lt] at hc
    rw [stored, State.pmaByte_setBt_ne _ _ (by omega), State.pmaByte_copyWords_inside _ _ _ _ hi]
  · intro x hx hc
    show (stored n a b s).pmaByte x = _
    simp only [inCountRx, not_and, not_lt] at hc
    simp only [inWords, not_and, not_lt] at hx
    rw [stored, State.pmaByte_setBt_ne _ _ (by omega), State.pmaByte_copyWords_outside _ _ _ _ (by omega)]
  · show (countField ((stored n a b s).bt n .countRx)).toNat = _
    rw [stored]
    simp [countField_withCount _ hb]
  · intro h
    show (stored n a b s).bt n .countRx &&& _ = _
    have : (s.copyWords a b).bt n .countRx = s.bt n .countRx := by
      refine bt_congr fun x h1 h2 => State.pmaByte_copyWords_outside _ _ _ _ ?_
      have := h x ⟨h1, h2⟩
      simp only [inWords, not_and, not_lt] at this
      omega
    rw [stored, State.bt_setBt, withCount_capacity, this]

/-- Everything a SETUP transaction does, R273. -/
theorem busSetup_eq (addr : BitVec 7) (p : Setup) (s : State) :
    busSetup addr p s =
      if setupAccepted addr s then
        if s.wordsExist (s.bt 0 .addrRx).toNat 8 then
          .next ((stored 0 (s.bt 0 .addrRx).toNat p.toBytes s).setEpr 0 (afterSetup (s.eprAt 0)))
        else .fault .pmaBadAccess
      else .next s := by
  have : busSetup addr p s =
      if setupAccepted addr s then
        if s.wordsExist (s.bt 0 .addrRx).toNat 8 then
          .next ((stored 0 (s.bt 0 .addrRx).toNat p.toBytes s).setEpr 0
            (afterSetup ((stored 0 (s.bt 0 .addrRx).toNat p.toBytes s).eprAt 0)))
        else .fault .pmaBadAccess
      else .next s := rfl
  rw [this, stored_eprAt]

/-- Everything an OUT transaction does, R274. -/
theorem busOut_eq (n : Nat) (addr : BitVec 7) (pid : Bool) (d : List Byte) (s : State) :
    busOut n addr pid d s =
      if outStores n addr pid d s then
        if s.wordsExist (s.bt n .addrRx).toNat d.length then
          .next ((stored n (s.bt n .addrRx).toNat d s).setEpr n (afterOut (s.eprAt n)))
        else .fault .pmaBadAccess
      else .next s := by
  have : busOut n addr pid d s =
      if outStores n addr pid d s then
        if s.wordsExist (s.bt n .addrRx).toNat d.length then
          .next ((stored n (s.bt n .addrRx).toNat d s).setEpr n
            (afterOut ((stored n (s.bt n .addrRx).toNat d s).eprAt n)))
        else .fault .pmaBadAccess
      else .next s := rfl
  rw [this, stored_eprAt]

/-- Everything an IN transaction does, R275. -/
theorem busIn_eq (n : Nat) (addr : BitVec 7) (s : State) :
    busIn n addr s =
      if transferAccepted n addr s then
        if statTx (s.eprAt n) = statCode .valid then
          if s.bytesExist (s.bt n .addrTx).toNat (countField (s.bt n .countTx)).toNat then
            .next { s with
              out := s.out ++ [.wire n (dtogTx (s.eprAt n))
                (s.pmaBytes (s.bt n .addrTx).toNat (countField (s.bt n .countTx)).toNat)]
              epr := s.epr.set n (afterIn (s.eprAt n)) }
          else .fault .pmaBadAccess
        else if statTx (s.eprAt n) = statCode .stall then .next { s with out := s.out ++ [.wireStall n] }
        else .next s
      else .next s := rfl

end Sys2Proof.Machine
end

