-- ==== Sys2Proof/Laws/StepCases.lean ====
section
/-! SUPPORT. Everything a step can do, said once: it records a fault, or it runs one of a few things in its state with the move
taken off the script and possibly one draw taken. -/

namespace Sys2Proof.Machine

/-- What ran in a step from `s`; `u` is `s` with the move off its script, `t` the outcome. -/
inductive StepBody (s u t : State) : Prop where
  /-- Nothing: the move was not enabled, or the engine is idle. -/
  | idle (h : t = u)
  /-- A move of the bus side. -/
  | bus (m : Move) (hm : m.ofBus = true) (hs : s.script.head? = some m) (h : runMove m u = .next t)
  /-- The reset path alone. -/
  | reset (h1 : s.istrReset = true) (h : execIrqReset u = .next t) (h2 : t.istrCtr = false)
  /-- The reset path, then the correct-transfer path. -/
  | resetCtr (v : State) (h1 : s.istrReset = true) (h2 : execIrqReset u = .next v) (h3 : v.istrCtr = true)
      (h : execIrqCtr v.epIdField v.bumpDraws = .next t)
  /-- The correct-transfer path alone. -/
  | ctr (h1 : s.istrReset = false) (h2 : u.istrCtr = true) (h : execIrqCtr u.epIdField u.bumpDraws = .next t)
  /-- One iteration of the busy-wait. -/
  | waitTick (h : execWaitTick u = .next t)
  /-- The end of the busy-wait. -/
  | waitFinish (h : execWaitFinish u = .next t)
  /-- The application configures a data endpoint. -/
  | appConfigure (id : Nat) (ty : EpType) (tx rx : Word) (h1 : s.seq = .idle) (h2 : 1 ≤ id)
      (h : configureEndpoint id ty tx rx .data u = .next t)
  /-- The application writes to a data endpoint. -/
  | appWrite (id : Nat) (b : List Byte) (h1 : s.seq = .idle) (h2 : 1 ≤ id) (h3 : id < s.cfg.numEp)
      (h4 : (s.recAt id).handler = .data) (h : writeCommit id b u = .next t)
  /-- The application reads. -/
  | appRead (id : Nat) (h1 : s.seq = .idle) (d : List Byte) (h2 : epRead id u = .next d) (h : t = { u with appBuf := d })
  /-- A bench move (log 16). -/
  | bench (code more : List Byte) (i : Instr) (h1 : s.script.head? = some (.bench code))
      (h2 : decode .bop u.cfg code = .ok (i, more)) (h : exec i u = .next t)

/-- Nothing but the script and the draw counter differs between `s` and the state in which its step runs. -/
def Unscripted (s u : State) : Prop :=
  (∃ (script : List Move) (draws : Nat), u = { s with script := script, draws := draws }) ∧ ∀ m ∈ u.script, m ∈ s.script

theorem dispatch_cases {s u t : State} (he : dispatchEnabled u = true) (hr : u.istrReset = s.istrReset)
    (h : dispatch u = .next t) : StepBody s u t := by
  unfold dispatch at h
  obtain ⟨v, h1, h2⟩ := andThen_eq_next.mp h
  split_ifs at h1 with h3
  · unfold serveTransfer at h2
    split_ifs at h2 with h4
    · exact .resetCtr v (hr ▸ h3) h1 h4 h2
    · cases h2
      exact .reset (hr ▸ h3) h1 (by simpa using h4)
  · cases h1
    have h3' : u.istrReset = false := by simpa using h3
    unfold serveTransfer at h2
    obtain ⟨-, h5 | h5, -⟩ := dispatchEnabled_iff.mp he
    · exact absurd h5 h3
    · rw [if_pos h5] at h2
      exact .ctr (hr ▸ h3') h5 h2

theorem waitStep_cases {s u t : State} (h : waitStep u = .next t) : StepBody s u t := by
  unfold waitStep at h
  split_ifs at h
  · exact .waitTick h
  · exact .waitFinish h
  · cases h; exact .idle rfl

theorem engineStep_cases {s t : State} (h : engineStep s = .next t) : ∃ u, Unscripted s u ∧ StepBody s u t := by
  have same : Unscripted s s := ⟨⟨s.script, s.draws, rfl⟩, fun _ h => h⟩
  have drawn : Unscripted s s.bumpDraws := ⟨⟨s.script, s.draws + 1, rfl⟩, fun _ h => h⟩
  unfold engineStep at h
  split_ifs at h with h1 h2 h3
  · exact ⟨s, same, dispatch_cases h1 rfl h⟩
  · exact ⟨s.bumpDraws, drawn, dispatch_cases h1 rfl h⟩
  · exact ⟨s.bumpDraws, drawn, waitStep_cases h⟩
  · exact ⟨s, same, waitStep_cases h⟩

theorem runMove_cases {s t : State} {m : Move} {rest : List Move} (hs : s.script = m :: rest)
    (h : runMove m { s with script := rest } = .next t) : StepBody s { s with script := rest } t := by
  have hh : s.script.head? = some m := by rw [hs]; rfl
  have nothing : ∀ {x : State}, (.next x : Host.Outcome State Fault Refusal) = .next t → t = x := fun h => by cases h; rfl
  cases m with
  | dispatch =>
    simp only [runMove] at h
    split_ifs at h with h1
    · exact dispatch_cases h1 rfl h
    · exact .idle (nothing h)
  | waitTick =>
    simp only [runMove] at h
    split_ifs at h with h1
    · exact .waitTick h
    · exact .idle (nothing h)
  | waitFinish =>
    simp only [runMove] at h
    split_ifs at h with h1
    · exact .waitFinish h
    · exact .idle (nothing h)
  | busReset => exact .bus _ rfl hh h
  | busSetup addr p => exact .bus _ rfl hh h
  | busOut n addr pid d => exact .bus _ rfl hh h
  | busIn n addr => exact .bus _ rfl hh h
  | appConfigure id ty tx rx =>
    simp only [runMove] at h
    split_ifs at h with h1
    · obtain ⟨h2, h3⟩ := appConfigureEnabled_iff.mp h1
      exact .appConfigure id ty tx rx h2 h3 h
    · exact .idle (nothing h)
  | appWrite id d =>
    simp only [runMove] at h
    split_ifs at h with h1
    · obtain ⟨h2, h3, h4, h5⟩ := appWriteEnabled_iff.mp h1
      have hc : State.configured { s with script := rest } id = true := State.configured_of h4 (by rw [h5]; simp)
      have e : exec (.writeCommit id d) { s with script := rest } = execWriteCommit id d { s with script := rest } := rfl
      rw [e, execWriteCommit, if_pos hc] at h
      exact .appWrite id d h2 h3 h4 h5 h
    · exact .idle (nothing h)
  | appRead id =>
    simp only [runMove] at h
    split_ifs at h with h1
    · obtain ⟨h2, h3, h4⟩ := appReadEnabled_iff.mp h1
      have hc : State.configured { s with script := rest } id = true := State.configured_of h3 h4
      have e : exec (.read id) { s with script := rest } = execRead id { s with script := rest } := rfl
      rw [e, execRead, if_pos hc] at h
      obtain ⟨d, h5, h6⟩ := andThen_eq_next.mp h
      exact .appRead id h2 d h5 (nothing h6)
    · exact .idle (nothing h)
  | bench code =>
    simp only [runMove] at h
    cases hd : decode .bop s.cfg code with
    | ok r => rw [hd] at h; exact .bench code r.2 r.1 hh hd h
    | error why => rw [hd] at h; cases h

/-- Everything a step can do. -/
theorem step_cases {s t : State} (h : step s = .next t) :
    s.fault = none ∧
    ((∃ x, t = { s with fault := some x } ∧
        ((∃ m rest, s.script = m :: rest ∧ runMove m { s with script := rest } = .fault x) ∨
         (s.script = [] ∧ engineStep s = .fault x))) ∨
      ∃ u, Unscripted s u ∧ StepBody s u t) := by
  have hf : s.fault = none := by
    by_contra hc
    obtain ⟨x, hx⟩ := Option.ne_none_iff_exists'.mp hc
    rw [step_of_fault hx] at h
    cases h
  refine ⟨hf, ?_⟩
  obtain hs | ⟨m, rest, hs⟩ : s.script = [] ∨ ∃ m rest, s.script = m :: rest := by
    rcases s.script with _ | ⟨m, rest⟩ <;> simp
  · rw [step_of_empty hf hs, settle_eq_next] at h
    rcases h with h | ⟨x, h1, rfl⟩
    · exact .inr (engineStep_cases h)
    · exact .inl ⟨x, recordFault_of_none hf, .inr ⟨hs, h1⟩⟩
  · rw [step_of_move hf hs, settle_eq_next] at h
    rcases h with h | ⟨x, h1, rfl⟩
    · refine .inr ⟨_, ⟨⟨rest, s.draws, rfl⟩, fun m' hm => ?_⟩, runMove_cases hs h⟩
      rw [hs]; exact List.mem_cons_of_mem _ hm
    · exact .inl ⟨x, recordFault_of_none hf, .inl ⟨m, rest, hs, h1⟩⟩

end Sys2Proof.Machine
end

