-- ==== Sys2Proof/Laws/Invariant.lean ====
section
/-! SUPPORT. The shape of a state, kept by every operation of the engine and every move of the bus side. -/

namespace Sys2Proof.Machine

/-- Two states with the same views and bindings. -/
def SameViews (s t : State) : Prop :=
  ∀ n, (t.recAt n).txOff = (s.recAt n).txOff ∧ (t.recAt n).rxOff = (s.recAt n).rxOff ∧
    (t.recAt n).handler = (s.recAt n).handler

theorem SameViews.of_recs {s t : State} (h : t.recs = s.recs) : SameViews s t := fun n => by
  rw [recAt_congr h]; exact ⟨rfl, rfl, rfl⟩

theorem SameViews.setRec {s : State} {n : Nat} {r : Record} (h1 : r.txOff = (s.recAt n).txOff)
    (h2 : r.rxOff = (s.recAt n).rxOff) (h3 : r.handler = (s.recAt n).handler) : SameViews s (s.setRec n r) := fun m => by
  rw [State.recAt_setRec]
  split_ifs with h
  · obtain ⟨rfl, -⟩ := h; exact ⟨h1, h2, h3⟩
  · exact ⟨rfl, rfl, rfl⟩

theorem SameViews.trans {s t u : State} (h1 : SameViews s t) (h2 : SameViews t u) : SameViews s u := fun n => by
  obtain ⟨a1, a2, a3⟩ := h1 n
  obtain ⟨b1, b2, b3⟩ := h2 n
  exact ⟨b1.trans a1, b2.trans a2, b3.trans a3⟩

/-- A change that moves no view, binds no handler and keeps sizes keeps the shape. -/
theorem State.Wf.congr {s t : State} (h : s.Wf) (hc : t.cfg = s.cfg) (hr : t.recs.length = s.recs.length)
    (he : t.epr.length = s.epr.length) (hp : Memory.wf t.pma) (hi : ∀ c ∈ t.pma, c.1 < s.cfg.pmaSize)
    (hl : t.scratch.length = 64) (hv : SameViews s t) : t.Wf where
  cfgOk := by rw [hc]; exact h.cfgOk
  recsLength := by rw [hr, hc]; exact h.recsLength
  eprLength := by rw [he, hc]; exact h.eprLength
  pmaOk := hp
  pmaInside := by rw [hc]; exact hi
  scratchLength := hl
  views := fun n => by
    obtain ⟨h1, h2, -⟩ := hv n
    have := h.views n
    simp only [Record.viewsFit, h1, h2, hc] at this ⊢
    exact this
  binding := fun n => by rw [(hv n).2.2]; exact h.binding n

/-- A change outside tables, packet memory and `SCRATCH` keeps the shape. -/
theorem State.Wf.of_eq {s t : State} (h : s.Wf) (hc : t.cfg = s.cfg) (hr : t.recs = s.recs) (he : t.epr = s.epr)
    (hp : t.pma = s.pma) (hl : t.scratch = s.scratch) : t.Wf :=
  h.congr hc (by rw [hr]) (by rw [he]) (by rw [hp]; exact h.pmaOk) (by rw [hp]; exact h.pmaInside)
    (by rw [hl]; exact h.scratchLength) (SameViews.of_recs hr)

theorem State.Wf.setEpr {s : State} (h : s.Wf) (n : Nat) (e : Word) : (s.setEpr n e).Wf :=
  h.congr rfl rfl (by simp [State.setEpr]) h.pmaOk h.pmaInside h.scratchLength (SameViews.of_recs rfl)

theorem State.Wf.commit {s : State} (h : s.Wf) (n : Nat) (r : HandlerResult) : (commit n r s).Wf := h.setEpr _ _

theorem State.Wf.setRec {s : State} (h : s.Wf) {n : Nat} {r : Record} (h1 : r.txOff = (s.recAt n).txOff)
    (h2 : r.rxOff = (s.recAt n).rxOff) (h3 : r.handler = (s.recAt n).handler) : (s.setRec n r).Wf :=
  h.congr rfl (by simp [State.setRec]) rfl h.pmaOk h.pmaInside h.scratchLength (SameViews.setRec h1 h2 h3)

theorem State.Wf.snapshot {s : State} (h : s.Wf) (n : Nat) : (snapshot n s).Wf := h.setRec rfl rfl rfl

/-- A write to a descriptor entry of the table keeps packet memory's form and size. -/
theorem State.Wf.setBt {s : State} (h : s.Wf) {n : Nat} (hn : n < s.cfg.numEp) (k : BtSlot) (w : Word) : (s.setBt n k w).Wf :=
  h.congr rfl rfl rfl (State.setBt_wf _ _ _ h.pmaOk)
    (State.setPmaWord_below _ _ h.pmaInside (by
      have h1 := h.cfgOk.2.1
      have h2 := h.cfgOk.2.2.2.1
      cases k <;> simp only [btAddr, BtSlot.offset, Config.btableBase] <;> omega))
    h.scratchLength (SameViews.of_recs rfl)

theorem State.Wf.copyWords {s : State} (h : s.Wf) {a : Nat} {b : List Byte} (he : s.wordsExist a b.length = true) :
    (s.copyWords a b).Wf :=
  h.congr (by simp) (by simp) (by simp) (State.copyWords_wf _ _ h.pmaOk)
    (State.copyWords_below _ _ h.pmaInside (((wordsExist_iff _ _ _).mp he).imp id And.right))
    (by simpa using h.scratchLength) (SameViews.of_recs (by simp))

theorem State.Wf.written {s : State} (h : s.Wf) {n : Nat} (hn : n < s.cfg.numEp) {b : List Byte} (hf : TxFits n b s) :
    (written n b s).Wf := (h.copyWords hf.2).setBt (by simpa using hn) _ _

theorem State.Wf.stored {s : State} (h : s.Wf) {n a : Nat} (hn : n < s.cfg.numEp) {b : List Byte}
    (he : s.wordsExist a b.length = true) : (stored n a b s).Wf := (h.copyWords he).setBt (by simpa using hn) _ _

theorem State.Wf.setEntry {s : State} (h : s.Wf) {n : Nat} (hn : n < s.cfg.numEp) (tx rx : Word) : (s.setEntry n tx rx).Wf :=
  (((h.setBt hn _ _).setBt (by simpa using hn) _ _).setBt (by simpa using hn) _ _).setBt (by simpa using hn) _ _

theorem State.Wf.configure {s : State} (h : s.Wf) {n : Nat} (hn : n < s.cfg.numEp) {ty : EpType} {tx rx : Word} {hd : Handler}
    (ha : acceptable s.cfg n ty tx rx hd = true) : (s.configure n ty tx rx hd).Wf := by
  have hs := h.setEntry hn tx rx
  obtain ⟨-, a1, a2, a3, a4, a5, a6⟩ := acceptable_iff.mp ha
  rw [State.configure_eq]
  have hcfg : (s.setEntry n tx rx).cfg = s.cfg := by rw [State.setEntry_eq]
  have hrec : ∀ m, State.recAt
      { s with
        recs := s.recs.set n { s.recAt n with handler := hd, txOff := tx, rxOff := rx },
        epr := s.epr.set n (regWrite (s.eprAt n) (configureWord n ty (s.eprAt n))),
        pma := (s.setEntry n tx rx).pma } m =
      if n = m ∧ n < s.recs.length then { s.recAt n with handler := hd, txOff := tx, rxOff := rx } else s.recAt m :=
    fun m => State.recAt_setRec s n m _
  refine ⟨h.cfgOk, by simpa using h.recsLength, by simpa using h.eprLength, hs.pmaOk, hcfg ▸ hs.pmaInside,
    h.scratchLength, fun m => ?_, fun m => ?_⟩
  · rw [hrec]
    split_ifs with hm
    · exact ⟨a1, a2, a3, a4⟩
    · exact h.views m
  · rw [hrec]
    split_ifs with hm
    · obtain ⟨rfl, -⟩ := hm
      refine ⟨fun hc => ?_, fun hc h0 => ?_⟩
      · by_contra h0
        have h1 : hd = .control := hc
        rw [a6 h0] at h1; cases h1
      · have h1 : hd = .data := hc
        rw [a5 h0] at h1; cases h1
    · exact h.binding m

theorem State.Wf.waiting {s : State} (h : s.Wf) (n : Nat) : (waiting n s).Wf := by
  have h1 : (s.setRec n { s.recAt n with rxPending := false }).Wf := h.setRec rfl rfl rfl
  have h2 : ((s.setRec n { s.recAt n with rxPending := false }).setScratch (List.replicate 64 0)).Wf :=
    h1.congr rfl rfl rfl h1.pmaOk h1.pmaInside (by simp) (SameViews.of_recs rfl)
  exact (h2.setEpr n _).of_eq rfl rfl rfl rfl rfl

theorem State.Wf.recordTaken {s : State} (h : s.Wf) {n : Nat} (hc : (s.recAt n).rxCount.toNat ≤ 64) : (recordTaken n s).Wf := by
  refine h.congr rfl (by simp [Machine.recordTaken]) rfl h.pmaOk h.pmaInside ?_ ?_
  · simp [Machine.recordTaken, received, h.scratchLength]; omega
  · exact SameViews.setRec (s := s) (n := n) (r := { s.recAt n with status := s.eprAt n }) rfl rfl rfl

theorem State.Wf.lt_of_handler {s : State} (h : s.Wf) {n : Nat} (hn : (s.recAt n).handler ≠ .none) : n < s.cfg.numEp := by
  by_contra hc
  exact hn (by rw [State.recAt_of_le (by rw [h.recsLength]; omega)]; rfl)

theorem State.Wf.waitFinished {s : State} (h : s.Wf) {n : Nat} (hc : (s.recAt n).rxCount.toNat ≤ 64) :
    (waitFinished n s).Wf :=
  ((h.recordTaken hc).written h.cfgOk.1 (txFits_nil _ _)).commit _ _

/-- A request keeps the shape. -/
theorem State.Wf.request {s t : State} (h : s.Wf) {i : Instr} (hf : i.format = .setup) (ht : exec i s = .next t) : t.Wf := by
  rcases exec_request_eq_next hf ht with ⟨-, s', b, hp, hfit, rfl⟩ | ⟨-, -, rfl⟩
  · obtain ⟨e, e1, -⟩ := hp.frame
    refine State.Wf.written ?_ (by rw [e1]; exact h.cfgOk.1) hfit
    rw [e]
    exact h.of_eq rfl rfl rfl rfl rfl
  · exact (h.waiting 0).of_eq rfl rfl rfl rfl rfl

theorem State.Wf.setupPath {s t : State} (h : s.Wf) {n : Nat} (ht : setupPath n s = .next t) : t.Wf := by
  obtain ⟨-, u, hu, h1⟩ := setupPath_eq_next.mp ht
  have hs : (s.setHandlerRet .none).Wf := h.of_eq rfl rfl rfl rfl rfl
  have := hs.request (decodeSetup_format _ _) hu
  rcases h1 with ⟨-, rfl⟩ | ⟨-, rfl⟩
  · exact this.of_eq rfl rfl rfl rfl rfl
  · exact this

theorem commitAddress_eq (s : State) :
    commitAddress s = { s with daddr := (commitAddress s).daddr, dev := (commitAddress s).dev } := by
  unfold commitAddress
  split <;> rfl

theorem State.Wf.inPath {s t : State} (h : s.Wf) {n : Nat} (ht : inPath n s = .next t) : t.Wf := by
  simp only [Machine.inPath, Host.Outcome.next.injEq] at ht
  rw [← ht, commitAddress_eq]
  exact h.of_eq rfl rfl rfl rfl rfl

theorem State.Wf.outPath {s t : State} (h : s.Wf) {n : Nat} (ht : outPath n s = .next t) : t.Wf := by
  simp only [Machine.outPath, Host.Outcome.next.injEq] at ht
  rw [← ht]
  exact h.of_eq rfl rfl rfl rfl rfl

/-- The handler of endpoint 0 by the path it takes. -/
theorem ep0Handler_eq_next {n : Nat} {s t : State} (h : ep0Handler n s = .next t) :
    setupPath n s = .next t ∨ outPath n s = .next t ∨ inPath n s = .next t := by
  unfold ep0Handler at h
  split at h
  · exact .inl h
  · exact .inr (.inl h)
  · exact .inr (.inr h)
  · cases h

/-- A handler's actions within the contract write packet memory, draws, events and the returned value only. -/
theorem handlerRun_fields {call : HandlerCall} {fuel : Nat} {seen : List (List Byte)} {s t : State}
    (ht : handlerRun call fuel seen s = .next t) :
    ∃ (es : List Event) (rx tx : Option Stat) (rrx rtx a b : Bool),
      t = { s with pma := t.pma, draws := t.draws, out := s.out ++ es,
                   handlerRet := .done ⟨mkStatus call.status rx tx rrx rtx, a, b⟩ } := by
  induction fuel generalizing seen s with
  | zero => cases ht; exact ⟨[], _, _, _, _, _, _, by rw [List.append_nil]; rfl⟩
  | succ fuel ih =>
    unfold handlerRun at ht
    split at ht
    · cases ht; exact ⟨[], _, _, _, _, _, _, by rw [List.append_nil]; rfl⟩
    · obtain ⟨d, -, h1⟩ := andThen_eq_next.mp ht
      exact ih h1
    · obtain ⟨u, h1, h2⟩ := andThen_eq_next.mp ht
      obtain ⟨-, rfl⟩ := epWrite_eq_next.mp h1
      obtain ⟨es, rx, tx, rrx, rtx, x, y, e⟩ := ih h2
      refine ⟨es, rx, tx, rrx, rtx, x, y, ?_⟩
      rw [e, (replyQueued_written _ _ s).1]
    · next b _ =>
      obtain ⟨es, rx, tx, rrx, rtx, x, y, e⟩ := ih ht
      exact ⟨.handlerEvent call.endpoint b :: es, rx, tx, rrx, rtx, x, y, by rw [e]; simp [State.emit]⟩

theorem State.Wf.handlerRun {call : HandlerCall} {fuel : Nat} {seen : List (List Byte)} {s t : State} (h : s.Wf)
    (hn : call.endpoint < s.cfg.numEp) (ht : handlerRun call fuel seen s = .next t) : t.Wf := by
  induction fuel generalizing seen s with
  | zero => cases ht; exact h.of_eq rfl rfl rfl rfl rfl
  | succ fuel ih =>
    unfold Machine.handlerRun at ht
    split at ht
    · cases ht; exact h.of_eq rfl rfl rfl rfl rfl
    · obtain ⟨d, -, h1⟩ := andThen_eq_next.mp ht
      exact ih h hn h1
    · obtain ⟨u, h1, h2⟩ := andThen_eq_next.mp ht
      obtain ⟨h3, rfl⟩ := epWrite_eq_next.mp h1
      exact ih (h.written hn h3) (by simpa using hn) h2
    · exact ih (s := s.emit _) (h.of_eq rfl rfl rfl rfl rfl) hn ht

/-- Everything a data handler's call may do to the state, default or any within the contract. -/
theorem dataHandler_fields {s t : State} {n : Nat} (ht : dataHandler n s = .next t) :
    ∃ (es : List Event) (rx tx : Option Stat) (rrx rtx a b : Bool),
      t = { s with pma := t.pma, draws := t.draws, out := s.out ++ es,
                   handlerRet := .done ⟨mkStatus (s.recAt n).status rx tx rrx rtx, a, b⟩ } := by
  obtain ⟨-, ⟨-, ht⟩ | ⟨-, ht⟩⟩ := dataHandler_eq_next.mp ht
  · rw [passthroughHandler_eq] at ht
    split_ifs at ht with h1 h2
    · obtain ⟨d, -, h3⟩ := andThen_eq_next.mp ht
      cases h3
      exact ⟨_, some .valid, none, false, false, false, false, rfl⟩
    · cases ht
      exact ⟨_, none, none, false, false, false, false, rfl⟩
    · cases ht
      exact ⟨_, none, none, false, false, false, false, rfl⟩
  · exact handlerRun_fields (call := handlerCall n s) (s := s.bumpDraws) ht

theorem State.Wf.dataHandler {s t : State} (h : s.Wf) {n : Nat} (hn : n < s.cfg.numEp) (ht : dataHandler n s = .next t) :
    t.Wf := by
  obtain ⟨-, ⟨-, ht⟩ | ⟨-, ht⟩⟩ := dataHandler_eq_next.mp ht
  · rw [passthroughHandler_eq] at ht
    split_ifs at ht with h1 h2
    · obtain ⟨d, -, h3⟩ := andThen_eq_next.mp ht
      cases h3
      exact h.of_eq rfl rfl rfl rfl rfl
    · cases ht; exact h.of_eq rfl rfl rfl rfl rfl
    · cases ht; exact h.of_eq rfl rfl rfl rfl rfl
  · have hb : s.bumpDraws.Wf := h.of_eq rfl rfl rfl rfl rfl
    exact hb.handlerRun (call := handlerCall n s) hn ht

theorem State.Wf.invoke {s t : State} (h : s.Wf) {n : Nat} (hn : n < s.cfg.numEp) (ht : invoke n s = .next t) : t.Wf := by
  unfold Machine.invoke at ht
  split at ht
  · rcases ep0Handler_eq_next ht with h1 | h1 | h1
    · exact h.setupPath h1
    · exact h.outPath h1
    · exact h.inPath h1
  · exact h.dataHandler hn ht
  · cases ht

theorem State.Wf.finishCtr {s : State} (h : s.Wf) (n : Nat) : (finishCtr n s).Wf := by
  have : (s.setHandlerRet .none).Wf := h.of_eq rfl rfl rfl rfl rfl
  unfold Machine.finishCtr
  split
  · exact this.commit _ _
  · exact this
  · exact h

theorem State.Wf.irqCtr {s t : State} (h : s.Wf) {e : BitVec 4} (ht : execIrqCtr e s = .next t) : t.Wf := by
  rw [execIrqCtr_eq] at ht
  split_ifs at ht with hc
  obtain ⟨u, h1, h2⟩ := andThen_eq_next.mp ht
  cases h2
  have hs : (s.setHandlerRet .none).Wf := h.of_eq rfl rfl rfl rfl rfl
  exact ((hs.snapshot _).invoke (State.configured_eq_true.mp hc).1 h1).finishCtr _

/-- The reset path, by the state `configure_endpoint` leaves. -/
theorem execIrqReset_eq_next {s t : State} (h : execIrqReset s = .next t) :
    (s.cfg.numEp ≤ 0 ∧ t = { s with daddr := 0x80, dev := ⟨0, .default⟩, istrReset := false }) ∨
    (0 < s.cfg.numEp ∧ acceptable s.cfg 0 .control Config.ep0TxOffset Config.ep0RxOffset .control = true ∧
      t = { s.configure 0 .control Config.ep0TxOffset Config.ep0RxOffset .control with
            daddr := 0x80, dev := ⟨0, .default⟩, istrReset := false }) := by
  obtain ⟨u, h1, h2⟩ := andThen_eq_next.mp h
  rcases configureEndpoint_eq_next.mp h1 with ⟨h3, rfl⟩ | ⟨h3, h4, rfl⟩
  · exact .inl ⟨h3, by cases h2; rfl⟩
  · exact .inr ⟨h3, h4, by cases h2; rfl⟩

/-- The reset path writes tables, packet memory, `DEV`, `DADDR` and `ISTR.RESET` only. -/
theorem execIrqReset_fields {s t : State} (h : execIrqReset s = .next t) :
    t = { s with recs := t.recs, epr := t.epr, pma := t.pma, daddr := 0x80, dev := ⟨0, .default⟩, istrReset := false } := by
  rcases execIrqReset_eq_next h with ⟨-, rfl⟩ | ⟨-, -, rfl⟩
  · rfl
  · have := State.configure_eq s 0 .control Config.ep0TxOffset Config.ep0RxOffset .control
    generalize s.configure 0 .control Config.ep0TxOffset Config.ep0RxOffset .control = u at this
    rw [this]

theorem State.Wf.irqReset {s t : State} (h : s.Wf) (ht : execIrqReset s = .next t) : t.Wf := by
  rcases execIrqReset_eq_next ht with ⟨-, rfl⟩ | ⟨h1, h2, rfl⟩
  · exact h.of_eq rfl rfl rfl rfl rfl
  · exact (h.configure h1 h2).of_eq rfl rfl rfl rfl rfl

theorem State.Wf.configureEndpoint {s t : State} (h : s.Wf) {id : Nat} {ty : EpType} {tx rx : Word} {hd : Handler}
    (ht : configureEndpoint id ty tx rx hd s = .next t) : t.Wf := by
  rcases configureEndpoint_eq_next.mp ht with ⟨-, rfl⟩ | ⟨h1, h2, rfl⟩
  · exact h
  · exact h.configure h1 h2

theorem State.Wf.writeCommit {s t : State} (h : s.Wf) {n : Nat} (hn : n < s.cfg.numEp) {b : List Byte}
    (ht : writeCommit n b s = .next t) : t.Wf := by
  obtain ⟨h1, rfl⟩ := writeCommit_eq_next.mp ht
  exact (h.written hn h1).setEpr _ _

theorem State.Wf.waitTick {s t : State} (h : s.Wf) (ht : execWaitTick s = .next t) : t.Wf := by
  obtain ⟨n, b, -, -, -, rfl⟩ := execWaitTick_eq_next.mp ht
  exact h.of_eq rfl rfl rfl rfl rfl

theorem State.Wf.waitFinish {s t : State} (h : s.Wf) (ht : execWaitFinish s = .next t) : t.Wf := by
  obtain ⟨n, b, -, -, h1⟩ := execWaitFinish_eq_next.mp ht
  obtain ⟨h2, -, rfl⟩ := waitFinish_eq_next.mp h1
  exact h.waitFinished h2

/-- Every move of the bus side keeps the shape. -/
theorem State.Wf.bus {s t : State} (h : s.Wf) {m : Move} (hm : m.ofBus = true) (ht : runMove m s = .next t) : t.Wf := by
  cases m with
  | busReset =>
    simp only [runMove, Host.Outcome.next.injEq] at ht
    rw [← ht]
    exact h.congr rfl rfl (by simp [busReset]) h.pmaOk h.pmaInside h.scratchLength (SameViews.of_recs rfl)
  | busSetup addr p =>
    simp only [runMove, busSetup_eq] at ht
    split_ifs at ht with h1 h2
    · cases ht
      exact (h.stored h.cfgOk.1 h2).setEpr _ _
    · cases ht; exact h
  | busOut n addr pid d =>
    simp only [runMove, busOut_eq] at ht
    split_ifs at ht with h1 h2
    · cases ht
      have hn : n < s.cfg.numEp := by
        simp only [outStores, transferAccepted, Bool.and_eq_true] at h1
        exact (tokenAccepted_iff.mp h1.1.1.1.1).2.2.2.1
      exact (h.stored hn h2).setEpr _ _
    · cases ht; exact h
  | busIn n addr =>
    simp only [runMove, busIn_eq] at ht
    split_ifs at ht <;> cases ht
    · exact (h.setEpr n (afterIn (s.eprAt n))).of_eq rfl rfl rfl rfl rfl
    · exact h.of_eq rfl rfl rfl rfl rfl
    · exact h
    · exact h
  | dispatch => cases hm
  | waitTick => cases hm
  | waitFinish => cases hm
  | appConfigure id ty tx rx => cases hm
  | appWrite id d => cases hm
  | appRead id => cases hm
  | bench code => cases hm

end Sys2Proof.Machine
end

