-- ==== Sys2Proof/Laws/Engine.lean ====
section
/-! SUPPORT. What the engine's operations change outside packet memory: the fields of a completed dispatch, and the forms of
`exec`. -/

namespace Sys2Proof.Machine

theorem finishCtr_fields (n : Nat) (s : State) :
    finishCtr n s = { s with epr := (finishCtr n s).epr, handlerRet := (finishCtr n s).handlerRet } := by
  unfold finishCtr
  split <;> rfl

theorem finishCtr_epr_length (n : Nat) (s : State) : (finishCtr n s).epr.length = s.epr.length := by
  unfold finishCtr
  split
  · exact List.length_set ..
  · rfl
  · rfl

/-- The end of a dispatch changes the register of the served endpoint only. -/
theorem finishCtr_eprAt_ne {n m : Nat} (h : m ≠ n) (s : State) : (finishCtr n s).eprAt m = s.eprAt m := by
  unfold finishCtr
  split
  · rw [State.eprAt_commit, if_neg (by rintro ⟨rfl, -⟩; exact h rfl)]; rfl
  · rfl
  · rfl

/-- The end of a dispatch in which the handler returned leaves no call open. -/
theorem finishCtr_handlerRet (n : Nat) (s : State) : (finishCtr n s).handlerRet = .none := by
  unfold finishCtr
  split
  · rfl
  · rfl
  · assumption

/-- Everything a completed correct-transfer path has been: a data endpoint's handler, or one of endpoint 0's three paths. -/
theorem irqCtr_cases {s t : State} (hs : s.Wf) {e : BitVec 4} (ht : execIrqCtr e s = .next t) :
    e.toNat < s.cfg.numEp ∧
    ((∃ v, (s.recAt e.toNat).handler = .data ∧ dataHandler e.toNat (snapshot e.toNat (s.setHandlerRet .none)) = .next v ∧
        t = finishCtr e.toNat v) ∨
     (e.toNat = 0 ∧ (s.recAt 0).handler = .control ∧ ∃ v, t = finishCtr 0 v ∧
       ((ctrRx (s.eprAt 0) = true ∧ setupBit (s.eprAt 0) = true ∧ setupPath 0 (snapshot 0 (s.setHandlerRet .none)) = .next v) ∨
        (ctrRx (s.eprAt 0) = true ∧ setupBit (s.eprAt 0) = false ∧ outPath 0 (snapshot 0 (s.setHandlerRet .none)) = .next v) ∨
        (ctrRx (s.eprAt 0) = false ∧ ctrTx (s.eprAt 0) = true ∧
          inPath 0 (snapshot 0 (s.setHandlerRet .none)) = .next v)))) := by
  rw [execIrqCtr_eq] at ht
  split_ifs at ht with hc
  obtain ⟨hlt, -⟩ := State.configured_eq_true.mp hc
  refine ⟨hlt, ?_⟩
  obtain ⟨v, h1, h2⟩ := andThen_eq_next.mp ht
  cases h2
  unfold invoke at h1
  rw [(snapshot_recAt_static _ _ _).2.2, State.setHandlerRet_recAt] at h1
  cases hh : (s.recAt e.toNat).handler with
  | none => rw [hh] at h1; cases h1
  | data => rw [hh] at h1; exact .inl ⟨v, rfl, h1, rfl⟩
  | control =>
    rw [hh] at h1
    have he : e.toNat = 0 := (hs.binding _).1 hh
    have h0 : 0 < (s.setHandlerRet .none).recs.length := by
      have := hs.cfgOk.1
      show 0 < s.recs.length
      rw [hs.recsLength]; omega
    rw [he] at h1 hh ⊢
    simp only [ep0Handler_snapshot h0, State.setHandlerRet_eprAt] at h1
    refine .inr ⟨rfl, hh, v, rfl, ?_⟩
    cases a : ctrRx (s.eprAt 0) <;> cases b : ctrTx (s.eprAt 0) <;> cases c : setupBit (s.eprAt 0) <;> simp_all

/-- What an operation calls, by its form. -/
inductive ExecForm (i : Instr) (s : State) : Prop where
  | request (h : i.format = .setup)
  | setup (h : exec i s = setupPath 0 s)
  | out (h : exec i s = outPath 0 s)
  | inToken (h : exec i s = inPath 0 s)
  | irqReset (h : exec i s = execIrqReset s)
  | irqCtr (e : BitVec 4) (h : exec i s = execIrqCtr e s)
  | configure (id : Nat) (ty : EpType) (tx rx : Word) (hd : Handler) (h : exec i s = configureEndpoint id ty tx rx hd s)
  | write (n : Nat) (b : List Byte) (hn : s.configured n = true) (h : exec i s = epWrite n b s)
  | writeCommit (n : Nat) (b : List Byte) (hn : s.configured n = true) (h : exec i s = writeCommit n b s)
  | read (n : Nat) (hn : s.configured n = true) (h : exec i s = andThen (epRead n s) fun d => .next (s.setAppBuf d))
  | blockingRead (n : Nat) (hn : s.configured n = true) (h : exec i s = blockingReadStart n s)
  | unconfigured (h : exec i s = .refused .unconfiguredEndpoint)
  | waitTick (h : exec i s = execWaitTick s)
  | waitFinish (h : exec i s = execWaitFinish s)

theorem exec_form (i : Instr) (s : State) : ExecForm i s := by
  cases i with
  | ep0Setup => exact .setup rfl
  | ep0Out => exact .out rfl
  | ep0In => exact .inToken rfl
  | irqReset => exact .irqReset rfl
  | irqCtr e => exact .irqCtr e rfl
  | configureEndpoint id ty tx rx hd => exact .configure id ty tx rx hd rfl
  | write n b =>
    have e : exec (.write n b) s = execWrite n b s := rfl
    rw [execWrite] at e
    split_ifs at e with h
    · exact .write n b h e
    · exact .unconfigured e
  | writeCommit n b =>
    have e : exec (.writeCommit n b) s = execWriteCommit n b s := rfl
    rw [execWriteCommit] at e
    split_ifs at e with h
    · exact .writeCommit n b h e
    · exact .unconfigured e
  | read n =>
    have e : exec (.read n) s = execRead n s := rfl
    rw [execRead] at e
    split_ifs at e with h
    · exact .read n h e
    · exact .unconfigured e
  | blockingRead n =>
    have e : exec (.blockingRead n) s = execBlockingRead n s := rfl
    rw [execBlockingRead] at e
    split_ifs at e with h
    · exact .blockingRead n h e
    · exact .unconfigured e
  | waitTick => exact .waitTick rfl
  | waitFinish => exact .waitFinish rfl
  | _ => exact .request rfl

/-- Every operation of the engine keeps the shape. -/
theorem State.Wf.exec {s t : State} (h : s.Wf) {i : Instr} (ht : exec i s = .next t) : t.Wf := by
  cases exec_form i s with
  | request hf => exact h.request hf ht
  | setup e => exact h.setupPath (e ▸ ht)
  | out e => exact h.outPath (e ▸ ht)
  | inToken e => exact h.inPath (e ▸ ht)
  | irqReset e => exact h.irqReset (e ▸ ht)
  | irqCtr _ e => exact h.irqCtr (e ▸ ht)
  | configure _ _ _ _ _ e => exact h.configureEndpoint (e ▸ ht)
  | write n b hn e =>
    obtain ⟨h1, rfl⟩ := epWrite_eq_next.mp (e ▸ ht)
    exact h.written (State.configured_eq_true.mp hn).1 h1
  | writeCommit n b hn e => exact h.writeCommit (State.configured_eq_true.mp hn).1 (e ▸ ht)
  | read n hn e =>
    obtain ⟨d, -, h2⟩ := andThen_eq_next.mp (e ▸ ht)
    cases h2
    exact h.of_eq rfl rfl rfl rfl rfl
  | blockingRead n hn e =>
    obtain ⟨-, rfl⟩ := blockingReadStart_eq_next.mp (e ▸ ht)
    exact h.waiting n
  | unconfigured e => rw [e] at ht; cases ht
  | waitTick e => exact h.waitTick (e ▸ ht)
  | waitFinish e => exact h.waitFinish (e ▸ ht)

end Sys2Proof.Machine
end

