-- ==== Sys2Proof/Laws/Extends.lean ====
section
/-! SUPPORT. What no operation of the engine does: change the parameters, the script or the fault, take back an event, set a
completion flag, change a `SETUP` bit. -/

namespace Sys2Proof.Machine

/-- `t` comes after `s` in a run of the engine: nothing read-only changed, `OUT` only grew. -/
structure Extends (s t : State) : Prop where
  cfg : t.cfg = s.cfg
  script : t.script = s.script
  fault : t.fault = s.fault
  out : ∃ es, t.out = s.out ++ es

theorem Extends.of_eq {s t : State} (h1 : t.cfg = s.cfg) (h2 : t.script = s.script) (h3 : t.fault = s.fault)
    (h4 : t.out = s.out) : Extends s t := ⟨h1, h2, h3, [], by simpa using h4⟩

theorem Extends.trans {s t u : State} (h1 : Extends s t) (h2 : Extends t u) : Extends s u := by
  obtain ⟨a, ha⟩ := h1.out
  obtain ⟨b, hb⟩ := h2.out
  exact ⟨h2.cfg.trans h1.cfg, h2.script.trans h1.script, h2.fault.trans h1.fault, a ++ b, by rw [hb, ha, List.append_assoc]⟩

theorem extends_written (n : Nat) (b : List Byte) (s : State) : Extends s (written n b s) :=
  .of_eq (by simp) (by simp) (by simp) (by simp)

theorem extends_configure (id : Nat) (ty : EpType) (tx rx : Word) (h : Handler) (s : State) :
    Extends s (s.configure id ty tx rx h) := by
  rw [State.configure_eq]
  exact .of_eq rfl rfl rfl rfl

theorem extends_finishCtr (n : Nat) (s : State) : Extends s (finishCtr n s) := by
  rw [finishCtr_fields]
  exact .of_eq rfl rfl rfl rfl

theorem Prepared.extends {s t : State} {i : Instr} (h : Prepared s i t) : Extends s t := by
  cases h with
  | event i e => exact ⟨rfl, rfl, rfl, [e], rfl⟩
  | _ => exact .of_eq rfl rfl rfl rfl

theorem extends_request {s t : State} {i : Instr} (hf : i.format = .setup) (ht : exec i s = .next t) : Extends s t := by
  rcases exec_request_eq_next hf ht with ⟨-, s', b, h, -, rfl⟩ | ⟨-, -, rfl⟩
  · exact h.extends.trans (extends_written _ _ _)
  · exact .of_eq rfl rfl rfl rfl

theorem extends_setupPath {s t : State} {n : Nat} (ht : setupPath n s = .next t) : Extends s t := by
  obtain ⟨-, u, hu, h⟩ := setupPath_eq_next.mp ht
  have h0 : Extends s (s.setHandlerRet .none) := .of_eq rfl rfl rfl rfl
  have h1 : Extends s u := h0.trans (extends_request (decodeSetup_format _ _) hu)
  rcases h with ⟨-, rfl⟩ | ⟨-, rfl⟩
  · exact h1.trans (.of_eq rfl rfl rfl rfl)
  · exact h1

theorem extends_outPath {s t : State} {n : Nat} (ht : outPath n s = .next t) : Extends s t := by
  cases ht
  exact .of_eq rfl rfl rfl rfl

theorem extends_inPath {s t : State} {n : Nat} (ht : inPath n s = .next t) : Extends s t := by
  simp only [inPath, Host.Outcome.next.injEq] at ht
  rw [← ht, commitAddress_eq]
  exact .of_eq rfl rfl rfl rfl

theorem extends_dataHandler {s t : State} {n : Nat} (ht : dataHandler n s = .next t) : Extends s t := by
  obtain ⟨es, rx, tx, rrx, rtx, a, b, e⟩ := dataHandler_fields ht
  rw [e]
  exact ⟨rfl, rfl, rfl, es, rfl⟩

theorem extends_invoke {s t : State} {n : Nat} (ht : invoke n s = .next t) : Extends s t := by
  unfold invoke at ht
  split at ht
  · rcases ep0Handler_eq_next ht with h | h | h
    · exact extends_setupPath h
    · exact extends_outPath h
    · exact extends_inPath h
  · exact extends_dataHandler ht
  · cases ht

theorem extends_irqCtr {s t : State} {e : BitVec 4} (ht : execIrqCtr e s = .next t) : Extends s t := by
  rw [execIrqCtr_eq] at ht
  split_ifs at ht
  obtain ⟨u, h1, h2⟩ := andThen_eq_next.mp ht
  cases h2
  have h0 : Extends s (snapshot e.toNat (s.setHandlerRet .none)) := .of_eq rfl rfl rfl rfl
  exact h0.trans ((extends_invoke h1).trans (extends_finishCtr _ _))

theorem extends_irqReset {s t : State} (ht : execIrqReset s = .next t) : Extends s t := by
  rcases execIrqReset_eq_next ht with ⟨-, rfl⟩ | ⟨-, -, rfl⟩
  · exact .of_eq rfl rfl rfl rfl
  · have := extends_configure 0 .control Config.ep0TxOffset Config.ep0RxOffset .control s
    generalize s.configure 0 .control Config.ep0TxOffset Config.ep0RxOffset .control = u at this
    exact this.trans (.of_eq rfl rfl rfl rfl)

theorem extends_waitFinished (n : Nat) (s : State) : Extends s (waitFinished n s) := by
  have h1 : Extends s (recordTaken n s) := ⟨rfl, rfl, rfl, _, rfl⟩
  exact h1.trans ((extends_written 0 [] _).trans (.of_eq rfl rfl rfl rfl))

/-- Every operation of the engine extends the run. -/
theorem extends_exec {s t : State} {i : Instr} (ht : exec i s = .next t) : Extends s t := by
  cases exec_form i s with
  | request hf => exact extends_request hf ht
  | setup e => exact extends_setupPath (e ▸ ht)
  | out e => exact extends_outPath (e ▸ ht)
  | inToken e => exact extends_inPath (e ▸ ht)
  | irqReset e => exact extends_irqReset (e ▸ ht)
  | irqCtr _ e => exact extends_irqCtr (e ▸ ht)
  | configure _ _ _ _ _ e =>
    rcases configureEndpoint_eq_next.mp (e ▸ ht) with ⟨-, rfl⟩ | ⟨-, -, rfl⟩
    · exact .of_eq rfl rfl rfl rfl
    · exact extends_configure _ _ _ _ _ _
  | write n b hn e =>
    obtain ⟨-, rfl⟩ := epWrite_eq_next.mp (e ▸ ht)
    exact extends_written _ _ _
  | writeCommit n b hn e =>
    obtain ⟨-, rfl⟩ := writeCommit_eq_next.mp (e ▸ ht)
    exact (extends_written n b s).trans (.of_eq rfl rfl rfl rfl)
  | read n hn e =>
    obtain ⟨d, -, h2⟩ := andThen_eq_next.mp (e ▸ ht)
    cases h2
    exact .of_eq rfl rfl rfl rfl
  | blockingRead n hn e =>
    obtain ⟨-, rfl⟩ := blockingReadStart_eq_next.mp (e ▸ ht)
    exact .of_eq rfl rfl rfl rfl
  | unconfigured e => rw [e] at ht; cases ht
  | waitTick e =>
    obtain ⟨n, b, -, -, -, rfl⟩ := execWaitTick_eq_next.mp (e ▸ ht)
    exact .of_eq rfl rfl rfl rfl
  | waitFinish e =>
    obtain ⟨n, b, -, -, h1⟩ := execWaitFinish_eq_next.mp (e ▸ ht)
    obtain ⟨-, -, rfl⟩ := waitFinish_eq_next.mp h1
    exact extends_waitFinished _ _

/-- No completion flag of any endpoint is set by going from `s` to `t`, and no `SETUP` bit changes. -/
def FlagsFall (s t : State) : Prop :=
  ∀ n, (ctrRx (t.eprAt n) = true → ctrRx (s.eprAt n) = true) ∧ (ctrTx (t.eprAt n) = true → ctrTx (s.eprAt n) = true) ∧
    setupBit (t.eprAt n) = setupBit (s.eprAt n)

theorem FlagsFall.of_epr {s t : State} (h : t.epr = s.epr) : FlagsFall s t := fun n => by
  rw [eprAt_congr h]; exact ⟨id, id, rfl⟩

theorem FlagsFall.trans {s t u : State} (h1 : FlagsFall s t) (h2 : FlagsFall t u) : FlagsFall s u := fun n => by
  obtain ⟨a1, a2, a3⟩ := h1 n
  obtain ⟨b1, b2, b3⟩ := h2 n
  exact ⟨fun h => a1 (b1 h), fun h => a2 (b2 h), b3.trans a3⟩

/-- A register write never sets a completion flag and never changes `SETUP`, R30. -/
theorem flagsFall_regWriteEpr (n : Nat) (w : Word) (s : State) : FlagsFall s (s.regWriteEpr n w) := fun m => by
  rw [State.eprAt_regWriteEpr]
  split_ifs with h
  · obtain ⟨rfl, -⟩ := h
    rw [regWrite_ctrRx, regWrite_ctrTx, regWrite_setupBit, Bool.and_eq_true, Bool.and_eq_true]
    exact ⟨fun h => h.1, fun h => h.1, rfl⟩
  · exact ⟨id, id, rfl⟩

end Sys2Proof.Machine
end

