-- ==== Sys2Proof/Laws/Frames.lean ====
section
/-! SUPPORT. What a dispatch and its parts leave as it was: completion flags, Line Coding, views, `seq`, register fields. -/

namespace Sys2Proof.Machine

theorem flagsFall_request {s t : State} {i : Instr} (hf : i.format = .setup) (ht : exec i s = .next t) : FlagsFall s t := by
  rcases exec_request_eq_next hf ht with ⟨-, s', b, h, -, rfl⟩ | ⟨-, -, rfl⟩
  · obtain ⟨-, -, -, h4, -⟩ := h.frame
    exact .of_epr (by simp [h4])
  · exact (flagsFall_regWriteEpr 0 (rearmWord (s.recAt 0).status) s).trans (.of_epr rfl)

theorem flagsFall_commit (n : Nat) (r : HandlerResult) (s : State) : FlagsFall s (commit n r s) := flagsFall_regWriteEpr _ _ _

theorem flagsFall_finishCtr (n : Nat) (s : State) : FlagsFall s (finishCtr n s) := by
  unfold finishCtr
  split
  · have h0 : FlagsFall s (s.setHandlerRet .none) := .of_epr rfl
    exact h0.trans (flagsFall_commit _ _ _)
  · exact .of_epr rfl
  · exact .of_epr rfl

theorem flagsFall_setupPath {s t : State} {n : Nat} (ht : setupPath n s = .next t) : FlagsFall s t := by
  obtain ⟨-, u, hu, h⟩ := setupPath_eq_next.mp ht
  have h0 : FlagsFall s (s.setHandlerRet .none) := .of_epr rfl
  have h1 := h0.trans (flagsFall_request (decodeSetup_format _ _) hu)
  rcases h with ⟨-, rfl⟩ | ⟨-, rfl⟩
  · exact h1.trans (.of_epr rfl)
  · exact h1

theorem flagsFall_inPath {s t : State} {n : Nat} (ht : inPath n s = .next t) : FlagsFall s t := by
  simp only [inPath, Host.Outcome.next.injEq] at ht
  rw [← ht, commitAddress_eq]; exact .of_epr rfl

theorem flagsFall_invoke {s t : State} {n : Nat} (ht : invoke n s = .next t) : FlagsFall s t := by
  unfold invoke at ht
  split at ht
  · rcases ep0Handler_eq_next ht with h | h | h
    · exact flagsFall_setupPath h
    · cases h; exact .of_epr rfl
    · exact flagsFall_inPath h
  · obtain ⟨es, rx, tx, rrx, rtx, a, b, e⟩ := dataHandler_fields ht
    exact .of_epr (by rw [e])
  · cases ht

theorem flagsFall_irqCtr {s t : State} {e : BitVec 4} (ht : execIrqCtr e s = .next t) : FlagsFall s t := by
  rw [execIrqCtr_eq] at ht
  split_ifs at ht
  obtain ⟨u, h1, h2⟩ := andThen_eq_next.mp ht
  cases h2
  have h0 : FlagsFall s (snapshot e.toNat (s.setHandlerRet .none)) := .of_epr rfl
  exact h0.trans ((flagsFall_invoke h1).trans (flagsFall_finishCtr _ _))

theorem flagsFall_configure (id : Nat) (ty : EpType) (tx rx : Word) (h : Handler) (s : State) : FlagsFall s (s.configure id ty tx rx h) := by
  have h0 := flagsFall_regWriteEpr id (configureWord id ty (s.eprAt id)) s
  exact h0.trans (.of_epr (by rw [State.configure_eq]; rfl))

theorem flagsFall_irqReset {s t : State} (ht : execIrqReset s = .next t) : FlagsFall s t := by
  rcases execIrqReset_eq_next ht with ⟨-, rfl⟩ | ⟨-, -, rfl⟩
  · exact .of_epr rfl
  · have := flagsFall_configure 0 .control Config.ep0TxOffset Config.ep0RxOffset .control s
    generalize s.configure 0 .control Config.ep0TxOffset Config.ep0RxOffset .control = u at this
    exact this.trans (.of_epr rfl)

theorem exec_request_lc {s t : State} {i : Instr} (hf : i.format = .setup) (ht : exec i s = .next t) : t.lc = s.lc := by
  rcases exec_request_eq_next hf ht with ⟨-, s', b, h, -, rfl⟩ | ⟨-, -, rfl⟩
  · obtain ⟨e, -⟩ := h.frame
    rw [written_lc, e]
  · rfl

theorem setupPath_lc {s t : State} {n : Nat} (ht : setupPath n s = .next t) : t.lc = s.lc := by
  obtain ⟨-, u, hu, h⟩ := setupPath_eq_next.mp ht
  have h1 := exec_request_lc (decodeSetup_format _ _) hu
  rcases h with ⟨-, rfl⟩ | ⟨-, rfl⟩
  · exact h1
  · exact h1

theorem inPath_lc {s t : State} {n : Nat} (ht : inPath n s = .next t) : t.lc = s.lc := by
  simp only [inPath, Host.Outcome.next.injEq] at ht
  rw [← ht, commitAddress_eq]; rfl

theorem invoke_lc {s t : State} {n : Nat} (ht : invoke n s = .next t) : t.lc = s.lc := by
  unfold invoke at ht
  split at ht
  · rcases ep0Handler_eq_next ht with h | h | h
    · exact setupPath_lc h
    · cases h; rfl
    · exact inPath_lc h
  · obtain ⟨es, rx, tx, rrx, rtx, a, b, e⟩ := dataHandler_fields ht
    rw [e]
  · cases ht

theorem irqCtr_lc {s t : State} {e : BitVec 4} (ht : execIrqCtr e s = .next t) : t.lc = s.lc := by
  rw [execIrqCtr_eq] at ht
  split_ifs at ht
  obtain ⟨u, h1, h2⟩ := andThen_eq_next.mp ht
  cases h2
  have := invoke_lc h1
  rw [finishCtr_fields]; exact this

theorem configure_lc (id : Nat) (ty : EpType) (tx rx : Word) (h : Handler) (s : State) : (s.configure id ty tx rx h).lc = s.lc := by
  rw [State.configure_eq]

theorem irqReset_lc {s t : State} (ht : execIrqReset s = .next t) : t.lc = s.lc := by
  rw [execIrqReset_fields ht]

theorem unscripted_wf {s u : State} (h : s.Wf) (hu : Unscripted s u) : u.Wf := by
  obtain ⟨⟨sc, dr, rfl⟩, -⟩ := hu
  exact h.of_eq rfl rfl rfl rfl rfl

/-- What a dispatch leaves in `seq`: the same, idle, or a fresh wait for endpoint 0. -/
def SeqStays (s t : State) : Prop := t.seq = s.seq ∨ t.seq = .idle ∨ (t.seq = .wait 0 s.cfg.waitBudget)

theorem sameViews_request {s t : State} {i : Instr} (hf : i.format = .setup) (ht : exec i s = .next t) :
   SameViews s t ∧ SeqStays s t := by
  rcases exec_request_eq_next hf ht with ⟨-, s', b, h, -, rfl⟩ | ⟨-, -, rfl⟩
  · obtain ⟨e, -, h2, -⟩ := h.frame
    exact ⟨.of_recs (by simp [h2]), .inl (by rw [written_seq, e])⟩
  · exact ⟨SameViews.setRec (s := s) (n := 0) (r := { s.recAt 0 with rxPending := false }) rfl rfl rfl, .inr (.inr rfl)⟩

theorem sameViews_setupPath {s t : State} {n : Nat} (ht : setupPath n s = .next t) : SameViews s t ∧ SeqStays s t := by
  obtain ⟨-, u, hu, h⟩ := setupPath_eq_next.mp ht
  have h1 := sameViews_request (decodeSetup_format _ _) hu
  rcases h with ⟨-, rfl⟩ | ⟨-, rfl⟩
  · exact h1
  · exact h1

theorem sameViews_irqCtr {s t : State} (hs : s.Wf) {e : BitVec 4} (ht : execIrqCtr e s = .next t) : SameViews s t ∧ SeqStays s t ∧ t.handlerRet = .none := by
  have h0 : SameViews s (snapshot e.toNat (s.setHandlerRet .none)) := fun n => snapshot_recAt_static e.toNat n _
  obtain ⟨-, ⟨v, -, h1, rfl⟩ | ⟨he, -, v, rfl, h1⟩⟩ := irqCtr_cases hs ht
  · refine ⟨?_, ?_, finishCtr_handlerRet _ _⟩
    · rw [finishCtr_fields]
      obtain ⟨es, rx, tx, rrx, rtx, a, b, e'⟩ := dataHandler_fields h1
      exact h0.trans (.of_recs (by rw [e']))
    · rw [finishCtr_fields]
      obtain ⟨es, rx, tx, rrx, rtx, a, b, e'⟩ := dataHandler_fields h1
      exact .inl (by rw [e']; rfl)
  · rw [he] at h0
    have key : SameViews (snapshot 0 (s.setHandlerRet .none)) v ∧ SeqStays (snapshot 0 (s.setHandlerRet .none)) v := by
      rcases h1 with ⟨-, -, h1⟩ | ⟨-, -, h1⟩ | ⟨-, -, h1⟩
      · exact sameViews_setupPath h1
      · cases h1; exact ⟨.of_recs rfl, .inl rfl⟩
      · simp only [inPath, Host.Outcome.next.injEq] at h1
        rw [← h1, commitAddress_eq]; exact ⟨.of_recs rfl, .inl rfl⟩
    refine ⟨?_, ?_, finishCtr_handlerRet _ _⟩
    · rw [finishCtr_fields]
      exact h0.trans key.1
    · rw [finishCtr_fields]
      exact key.2

theorem irqReset_ep0 {s t : State} (hs : s.Wf) (ht : execIrqReset s = .next t) : pendingWord (t.eprAt 0) = false ∧ ∀ n, n ≠ 0 → t.eprAt n = s.eprAt n := by
  have h0 := hs.cfgOk.1
  rcases execIrqReset_eq_next ht with ⟨h, -⟩ | ⟨h1, h2, rfl⟩
  · omega
  · have he : ∀ n, (s.configure 0 .control Config.ep0TxOffset Config.ep0RxOffset .control).eprAt n = (s.regWriteEpr 0 (configureWord 0 .control (s.eprAt 0))).eprAt n := by
      intro n; apply eprAt_congr; rw [State.configure_eq]; rfl
    generalize hv : s.configure 0 .control Config.ep0TxOffset Config.ep0RxOffset .control = u at he
    refine ⟨?_, fun n hn => ?_⟩
    · show pendingWord (u.eprAt 0) = false
      rw [he, State.eprAt_regWriteEpr, if_pos ⟨rfl, by rw [hs.eprLength]; exact h1⟩]
      simp [pendingWord]
    · show u.eprAt n = _
      rw [he, State.eprAt_regWriteEpr, if_neg (by rintro ⟨rfl, -⟩; exact hn rfl)]

/-- Two control register values have the same type, kind and address. -/
def SameFields (e f : Word) : Prop := epType e = epType f ∧ epKind e = epKind f ∧ epAddr e = epAddr f

theorem sameFields_commit (cur e : Word) (rx tx : Option Stat) (rrx rtx a b : Bool) : SameFields (regWrite cur (commitWord ⟨mkStatus e rx tx rrx rtx, a, b⟩)) e := by
  unfold SameFields; simp

theorem sameFields_rearm (cur e : Word) : SameFields (regWrite cur (rearmWord e)) e := by unfold SameFields; simp

theorem sameFields_writeCommit (cur e : Word) : SameFields (regWrite cur (writeCommitWord e)) e := by unfold SameFields; simp

theorem eprFieldsOk_configure (cur : Word) (id : Nat) (hid : id < 8) (ty : EpType) (hty : ty ≠ .isochronous) : eprFieldsOk id (regWrite cur (configureWord id ty cur)) := by
  unfold eprFieldsOk; simp
  refine ⟨by cases ty <;> first | decide | exact absurd rfl hty, ?_⟩
  omega

/-- Every endpoint keeps the type, kind and address of its register. -/
def EprKeep (s t : State) : Prop := ∀ n, t.eprAt n = s.eprAt n ∨ SameFields (t.eprAt n) (s.eprAt n)

theorem eprKeep_of_epr {s t : State} (h : t.epr = s.epr) : EprKeep s t := fun n => .inl (eprAt_congr h n)

theorem EprKeep.trans {s t u : State} (h1 : EprKeep s t) (h2 : EprKeep t u) : EprKeep s u := by
  intro n
  have a : SameFields (t.eprAt n) (s.eprAt n) := by rcases h1 n with h | h; rw [h]; exact ⟨rfl, rfl, rfl⟩; exact h
  have b : SameFields (u.eprAt n) (t.eprAt n) := by rcases h2 n with h | h; rw [h]; exact ⟨rfl, rfl, rfl⟩; exact h
  exact .inr ⟨b.1.trans a.1, b.2.1.trans a.2.1, b.2.2.trans a.2.2⟩

theorem eprKeep_regWriteEpr {s : State} {n : Nat} {w : Word} (h : SameFields (regWrite (s.eprAt n) w) (s.eprAt n)) : EprKeep s (s.regWriteEpr n w) := by
  intro m; rw [State.eprAt_regWriteEpr]; split
  · next hh => obtain ⟨rfl, -⟩ := hh; exact .inr h
  · exact .inl rfl

theorem eprKeep_irqCtr {s t : State} (hs : s.Wf) {e : BitVec 4} (ht : execIrqCtr e s = .next t) : EprKeep s t := by
  obtain ⟨hlt, hcases⟩ := irqCtr_cases hs ht
  have hr : e.toNat < (s.setHandlerRet .none).recs.length := by show e.toNat < s.recs.length; rw [hs.recsLength]; exact hlt
  have hst : ((snapshot e.toNat (s.setHandlerRet .none)).recAt e.toNat).status = s.eprAt e.toNat := by
    rw [snapshot_recAt_self hr]; rfl
  have fin : ∀ {v : State} {n : Nat} {x : Word} {rx tx : Option Stat} {rrx rtx a b : Bool}, v.epr = s.epr → x = s.eprAt n → v.handlerRet = .done ⟨mkStatus x rx tx rrx rtx, a, b⟩ → EprKeep s (finishCtr n v) := by
    intro v n x rx tx rrx rtx a b h1 hx h2
    rw [finishCtr_done h2]
    have h3 : EprKeep s (v.setHandlerRet .none) := eprKeep_of_epr h1
    refine h3.trans ?_
    unfold commit
    apply eprKeep_regWriteEpr
    have h4 : (v.setHandlerRet .none).eprAt n = s.eprAt n := eprAt_congr (t := v.setHandlerRet .none) (s := s) h1 n
    rw [h4, ← hx]
    exact sameFields_commit _ _ _ _ _ _ _ _
  rcases hcases with ⟨v, -, h1, rfl⟩ | ⟨he, -, v, rfl, h1⟩
  · obtain ⟨es, rx, tx, rrx, rtx, a, b, e'⟩ := dataHandler_fields h1
    rw [hst] at e'
    exact fin (x := s.eprAt e.toNat) (by rw [e']; rfl) rfl (by rw [e'])
  · rw [he] at hst hr
    rcases h1 with ⟨-, -, h1⟩ | ⟨-, -, h1⟩ | ⟨-, -, h1⟩
    · obtain ⟨-, u, hu, h⟩ := setupPath_eq_next.mp h1
      rcases exec_request_keeps (decodeSetup_format _ _) hu with ⟨h3, h4, h5, h6⟩ | ⟨h3, -, h4⟩
      · rcases h with ⟨-, rfl⟩ | ⟨h, -⟩
        · rw [hst]; exact fin (x := s.eprAt 0) (by show u.epr = _; rw [h5]; rfl) rfl rfl
        · exact absurd h h3
      · rcases h with ⟨h, -⟩ | ⟨-, rfl⟩
        · exact absurd h3 h
        · rw [h4, finishCtr_suspended rfl]
          have h7 : EprKeep s ((snapshot 0 (s.setHandlerRet .none)).setHandlerRet .none) := eprKeep_of_epr rfl
          refine h7.trans ?_
          have h8 := eprKeep_regWriteEpr (s := (snapshot 0 (s.setHandlerRet .none)).setHandlerRet .none) (n := 0) (w := rearmWord (s.eprAt 0)) (sameFields_rearm _ _)
          refine h8.trans (eprKeep_of_epr ?_)
          rw [← hst]; rfl
    · cases h1
      rw [hst]; exact fin (x := s.eprAt 0) rfl rfl rfl
    · simp only [inPath, Host.Outcome.next.injEq] at h1
      rw [← h1, hst]; exact fin (x := s.eprAt 0) (by show (commitAddress _).epr = _; rw [commitAddress_eq]; rfl) rfl rfl

end Sys2Proof.Machine
end

