-- ==== Sys2Proof/Laws/Outcomes.lean ====
section
/-! SUPPORT. Which outcomes the operations never have: a refusal, an access outside packet memory, `NoHandler`. -/

namespace Sys2Proof.Machine

/-- The outcome is no refusal. -/
def NotRefused (o : Host.Outcome State Fault Refusal) : Prop := ∀ r, o ≠ .refused r

theorem andThen_notRefused {α : Type} {o : Res α} {f : α → Res State} (h1 : ∀ r, o ≠ .refused r) (h2 : ∀ a, NotRefused (f a)) : NotRefused (andThen o f) := by
  intro r
  cases o with
  | next a => exact h2 a r
  | fault x => simp
  | refused r' => exact absurd rfl (h1 r')

theorem epWrite_notRefused (n : Nat) (b : List Byte) (s : State) : NotRefused (epWrite n b s) := by
  intro r; unfold epWrite; split_ifs <;> simp

theorem epRead_notRefused (n : Nat) (s : State) (r : Refusal) : epRead n s ≠ .refused r := by
  unfold epRead; simp only; split_ifs <;> simp

theorem setupPath_notRefused (n : Nat) (s : State) : NotRefused (setupPath n s) := by
  rw [setupPath_eq]
  split
  · exact andThen_notRefused (exec_request_not_refused (decodeSetup_format _ _) _) (fun a r => by simp)
  · intro r; simp

theorem handlerRun_notRefused (call : HandlerCall) (fuel : Nat) (seen : List (List Byte)) (s : State) :
    NotRefused (handlerRun call fuel seen s) := by
  induction fuel generalizing seen s with
  | zero => intro r; simp [handlerRun]
  | succ fuel ih =>
    unfold handlerRun
    split
    · intro r; simp
    · exact andThen_notRefused (epRead_notRefused _ _) (fun _ => ih _ _)
    · exact andThen_notRefused (epWrite_notRefused _ _ _) (fun _ => ih _ _)
    · exact ih _ _

theorem dataHandler_notRefused (n : Nat) (s : State) : NotRefused (dataHandler n s) := by
  unfold dataHandler
  split_ifs
  · intro r; simp
  split
  · rw [passthroughHandler_eq]
    split
    · exact andThen_notRefused (epRead_notRefused _ _) (fun a r => by simp)
    · intro r; simp
  · exact handlerRun_notRefused _ _ _ _

theorem invoke_notRefused (n : Nat) (s : State) : NotRefused (invoke n s) := by
  unfold invoke
  split
  · unfold ep0Handler
    split
    · exact setupPath_notRefused _ _
    · intro r; simp [outPath]
    · intro r; simp [inPath]
    · intro r; simp
  · exact dataHandler_notRefused _ _
  · intro r; simp

theorem execIrqCtr_notRefused (e : BitVec 4) (s : State) : NotRefused (execIrqCtr e s) := by
  rw [execIrqCtr_eq]
  split
  · exact andThen_notRefused (invoke_notRefused _ _) (fun a r => by simp)
  · intro r; simp

theorem configureEndpoint_notRefused (id : Nat) (ty : EpType) (tx rx : Word) (h : Handler) (s : State) : NotRefused (configureEndpoint id ty tx rx h s) := by
  intro r; unfold configureEndpoint; split_ifs <;> simp

theorem dispatch_notRefused (s : State) : NotRefused (dispatch s) := by
  refine andThen_notRefused ?_ (fun a => ?_)
  · intro r; split
    · exact andThen_notRefused (configureEndpoint_notRefused _ _ _ _ _ _) (fun a r => by simp) r
    · simp
  · unfold serveTransfer; split
    · exact execIrqCtr_notRefused _ _
    · intro r; simp

theorem execWaitTick_notRefused {s : State} (h : waitTickEnabled s = true) : NotRefused (execWaitTick s) := by
  obtain ⟨n, b, h1, h2, h3⟩ := waitTickEnabled_iff.mp h
  intro r hr
  have := execWaitTick_eq_next.mpr ⟨n, b, h1, h2, h3, rfl⟩
  rw [this] at hr; cases hr

theorem execWaitFinish_notRefused {s : State} (h : waitFinishEnabled s = true) : NotRefused (execWaitFinish s) := by
  obtain ⟨n, b, h1, h2⟩ := waitFinishEnabled_iff.mp h
  intro r
  rw [execWaitFinish_of_enabled h1 h2]; exact waitFinish_not_refused _ _ _

theorem waitStep_notRefused (s : State) : NotRefused (waitStep s) := by
  unfold waitStep
  split
  · exact execWaitTick_notRefused (by assumption)
  · split
    · exact execWaitFinish_notRefused (by assumption)
    · intro r; simp

theorem engineStep_notRefused (s : State) : NotRefused (engineStep s) := by
  unfold engineStep
  split_ifs
  · exact dispatch_notRefused _
  · exact dispatch_notRefused _
  · exact waitStep_notRefused _
  · exact waitStep_notRefused _

theorem runMove_notRefused {m : Move} (s : State) (h : m.ofSpec = true) : NotRefused (runMove m s) := by
  cases m with
  | dispatch => simp only [runMove]; split; exact dispatch_notRefused _; intro r; simp
  | waitTick => simp only [runMove]; split; exact execWaitTick_notRefused (by assumption); intro r; simp
  | waitFinish => simp only [runMove]; split; exact execWaitFinish_notRefused (by assumption); intro r; simp
  | busReset => intro r; simp [runMove]
  | busSetup a p => simp only [runMove, busSetup_eq]; intro r; split_ifs <;> simp
  | busOut n a p d => simp only [runMove, busOut_eq]; intro r; split_ifs <;> simp
  | busIn n a => simp only [runMove, busIn_eq]; intro r; split_ifs <;> simp
  | appConfigure id ty tx rx => simp only [runMove]; split; exact configureEndpoint_notRefused _ _ _ _ _ _; intro r; simp
  | appWrite id d =>
    simp only [runMove]; split
    · next hh =>
      obtain ⟨h2, h3, h4, h5⟩ := appWriteEnabled_iff.mp hh
      have e : exec (.writeCommit id d) s = execWriteCommit id d s := rfl
      rw [e, execWriteCommit, if_pos (State.configured_of h4 (by rw [h5]; simp))]
      exact andThen_notRefused (epWrite_notRefused _ _ _) (fun a r => by simp)
    · intro r; simp
  | appRead id =>
    simp only [runMove]; split
    · next hh =>
      obtain ⟨h2, h3, h4⟩ := appReadEnabled_iff.mp hh
      have e : exec (.read id) s = execRead id s := rfl
      rw [e, execRead, if_pos (State.configured_of h3 h4)]
      exact andThen_notRefused (epRead_notRefused _ _) (fun a r => by simp)
    · intro r; simp
  | bench c => cases h

theorem epWrite_ne_pmaBadAccess {s : State} (h : s.Wf) (n : Nat) (b : List Byte) : epWrite n b s ≠ .fault .pmaBadAccess := by
  rw [Ne, epWrite_eq_fault]
  rintro (⟨-, h1⟩ | ⟨h1, h2, -⟩)
  · cases h1
  · rw [(h.txFits n h1).2] at h2; cases h2

theorem epRead_ne_pmaBadAccess {s : State} (h : s.Wf) (n : Nat) : epRead n s ≠ .fault .pmaBadAccess := by
  rw [Ne, epRead_eq_fault]
  rintro (⟨-, h1⟩ | ⟨h1, h2, -⟩)
  · cases h1
  · rw [h.bytesExist h1] at h2; cases h2

theorem exec_request_ne_pmaBadAccess {s : State} (h : s.Wf) {i : Instr} (hf : i.format = .setup) : exec i s ≠ .fault .pmaBadAccess := by
  rcases exec_request hf s with ⟨-, s', b, hp, -, e⟩ | ⟨-, e⟩
  · rw [e]
    obtain ⟨e2, -⟩ := hp.frame
    refine epWrite_ne_pmaBadAccess ?_ 0 b
    rw [e2]; exact h.of_eq rfl rfl rfl rfl rfl
  · rw [e, Ne, andThen_eq_fault, blockingReadStart_eq_fault]
    rintro (⟨-, h1⟩ | ⟨a, -, h1⟩) <;> cases h1

theorem setupPath_ne_pmaBadAccess {s : State} (h : s.Wf) (n : Nat) : setupPath n s ≠ .fault .pmaBadAccess := by
  rw [Ne, setupPath_eq_fault]
  have hs : (s.setHandlerRet .none).Wf := h.of_eq rfl rfl rfl rfl rfl
  rintro (⟨h1, -⟩ | ⟨-, h1⟩)
  · rw [h.packetExists] at h1; cases h1
  · exact exec_request_ne_pmaBadAccess hs (decodeSetup_format _ _) h1

theorem handlerRun_ne_pmaBadAccess {call : HandlerCall} (fuel : Nat) (seen : List (List Byte)) {s : State} (h : s.Wf)
    (hn : call.endpoint < s.cfg.numEp) : handlerRun call fuel seen s ≠ .fault .pmaBadAccess := by
  induction fuel generalizing seen s with
  | zero => simp [handlerRun]
  | succ fuel ih =>
    unfold handlerRun
    split
    · simp
    · rw [Ne, andThen_eq_fault]
      rintro (h1 | ⟨a, -, h1⟩)
      · exact epRead_ne_pmaBadAccess h _ h1
      · exact ih _ h hn h1
    · rw [Ne, andThen_eq_fault]
      rintro (h1 | ⟨a, h1, h2⟩)
      · exact epWrite_ne_pmaBadAccess h _ _ h1
      · obtain ⟨h3, rfl⟩ := epWrite_eq_next.mp h1
        exact ih _ (h.written hn h3) (by simpa using hn) h2
    · exact ih (s := s.emit _) _ (h.of_eq rfl rfl rfl rfl rfl) hn

theorem dataHandler_ne_pmaBadAccess {s : State} (h : s.Wf) (n : Nat) (hn : n < s.cfg.numEp) : dataHandler n s ≠ .fault .pmaBadAccess := by
  unfold dataHandler
  split_ifs
  · simp
  split
  · rw [passthroughHandler_eq]
    split
    · rw [Ne, andThen_eq_fault]
      rintro (h1 | ⟨a, -, h1⟩)
      · exact epRead_ne_pmaBadAccess h _ h1
      · cases h1
    · simp
  · have hb : s.bumpDraws.Wf := h.of_eq rfl rfl rfl rfl rfl
    exact handlerRun_ne_pmaBadAccess (call := handlerCall n s) _ _ hb hn

theorem execIrqCtr_ne_pmaBadAccess {s : State} (h : s.Wf) (e : BitVec 4) : execIrqCtr e s ≠ .fault .pmaBadAccess := by
  rw [execIrqCtr_eq]
  split
  · next hc =>
    rw [Ne, andThen_eq_fault]
    have hs : (s.setHandlerRet .none).Wf := h.of_eq rfl rfl rfl rfl rfl
    have hw := hs.snapshot e.toNat
    rintro (h1 | ⟨a, -, h1⟩)
    · unfold invoke at h1
      split at h1
      · unfold ep0Handler at h1
        split at h1
        · exact setupPath_ne_pmaBadAccess hw _ h1
        · cases h1
        · cases h1
        · cases h1
      · exact dataHandler_ne_pmaBadAccess hw _ (State.configured_eq_true.mp hc).1 h1
      · cases h1
    · cases h1
  · simp

/-- The outcome is not the fault `NoHandler`. -/
def NotNoHandler {α : Type} (o : Res α) : Prop := o ≠ .fault .noHandler

theorem andThen_notNoHandler {α β : Type} {o : Res α} {f : α → Res β} (h1 : NotNoHandler o) (h2 : ∀ a, NotNoHandler (f a)) : NotNoHandler (andThen o f) := by
  cases o with
  | next a => exact h2 a
  | fault x => simpa [NotNoHandler] using h1
  | refused r => simp [NotNoHandler]

theorem next_notNoHandler {α : Type} (a : α) : NotNoHandler (.next a : Res α) := by simp [NotNoHandler]

theorem epWrite_notNoHandler (n : Nat) (b : List Byte) (s : State) : NotNoHandler (epWrite n b s) := by
  unfold NotNoHandler epWrite; split_ifs <;> simp

theorem epRead_notNoHandler (n : Nat) (s : State) : NotNoHandler (epRead n s) := by
  unfold NotNoHandler epRead; simp only; split_ifs <;> simp

theorem exec_request_notNoHandler {i : Instr} (hf : i.format = .setup) (s : State) : NotNoHandler (exec i s) := by
  rcases exec_request hf s with ⟨-, s', b, hp, -, e⟩ | ⟨-, e⟩
  · rw [e]; exact epWrite_notNoHandler _ _ _
  · rw [e]; refine andThen_notNoHandler ?_ (fun a => next_notNoHandler _)
    unfold NotNoHandler blockingReadStart; split <;> simp

theorem setupPath_notNoHandler (n : Nat) (s : State) : NotNoHandler (setupPath n s) := by
  rw [setupPath_eq]
  split
  · exact andThen_notNoHandler (exec_request_notNoHandler (decodeSetup_format _ _) _) (fun a => next_notNoHandler _)
  · simp [NotNoHandler]

theorem handlerRun_notNoHandler (call : HandlerCall) (fuel : Nat) (seen : List (List Byte)) (s : State) :
    NotNoHandler (handlerRun call fuel seen s) := by
  induction fuel generalizing seen s with
  | zero => exact next_notNoHandler _
  | succ fuel ih =>
    unfold handlerRun
    split
    · exact next_notNoHandler _
    · exact andThen_notNoHandler (epRead_notNoHandler _ _) (fun _ => ih _ _)
    · exact andThen_notNoHandler (epWrite_notNoHandler _ _ _) (fun _ => ih _ _)
    · exact ih _ _

theorem dataHandler_notNoHandler (n : Nat) (s : State) : NotNoHandler (dataHandler n s) := by
  unfold dataHandler
  split_ifs
  · simp [NotNoHandler]
  split
  · rw [passthroughHandler_eq]
    split
    · exact andThen_notNoHandler (epRead_notNoHandler _ _) (fun a => next_notNoHandler _)
    · exact next_notNoHandler _
  · exact handlerRun_notNoHandler _ _ _ _

theorem execIrqCtr_notNoHandler {s : State} (e : BitVec 4) (hc : s.configured e.toNat = true) : NotNoHandler (execIrqCtr e s) := by
  rw [execIrqCtr_eq, if_pos hc]
  refine andThen_notNoHandler ?_ (fun a => next_notNoHandler _)
  unfold invoke
  rw [(snapshot_recAt_static _ _ _).2.2, State.setHandlerRet_recAt]
  have := (State.configured_eq_true.mp hc).2
  split
  · unfold ep0Handler
    split
    · exact setupPath_notNoHandler _ _
    · exact next_notNoHandler _
    · exact next_notNoHandler _
    · simp [NotNoHandler]
  · exact dataHandler_notNoHandler _ _
  · next h => exact absurd h this

theorem configureEndpoint_notNoHandler (id : Nat) (ty : EpType) (tx rx : Word) (h : Handler) (s : State) : NotNoHandler (configureEndpoint id ty tx rx h s) := by
  unfold NotNoHandler configureEndpoint; split_ifs <;> simp

theorem execWaitFinish_notNoHandler (s : State) : NotNoHandler (execWaitFinish s) := by
  unfold execWaitFinish
  split
  · simp [NotNoHandler]
  · split
    · unfold waitFinish
      refine andThen_notNoHandler (epRead_notNoHandler _ _) (fun a => ?_)
      simp only [setLineCodingFinish_eq_next]
      exact next_notNoHandler _
    · simp [NotNoHandler]

end Sys2Proof.Machine
end

