-- ==== Sys2Proof/Laws/PerInstr.lean ====
section
/-! SUPPORT. For every operation: how many bytes its encoding has, by its format (spec/30_encoding.md R100, R107, R108, R110). -/

namespace Sys2Proof.Laws.Encoded

open Sys2Proof

/-- The length of a well-formed operation's encoding: a packet has 8 bytes, a flag vector one, an interrupt status two, a
Register Bridge operation its selector and at most 257 operand bytes. -/
def Statement (i : Instr) : Prop :=
  ∀ c : Params, wellFormed c i = true →
    match i.format with
    | .setup => (encode c i).length = 8
    | .flags => (encode c i).length = 1
    | .istr => (encode c i).length = 2
    | .bop => 1 ≤ (encode c i).length ∧ (encode c i).length ≤ longestInstr

theorem getDescriptorDevice (wIndex wLength : Word) : Statement (.getDescriptorDevice wIndex wLength) :=
  fun _ _ => rfl

theorem getDescriptorConfiguration (wIndex wLength : Word) : Statement (.getDescriptorConfiguration wIndex wLength) :=
  fun _ _ => rfl

theorem getDescriptorStringLanguage (wIndex wLength : Word) : Statement (.getDescriptorStringLanguage wIndex wLength) :=
  fun _ _ => rfl

theorem getDescriptorStringManufacturer (wIndex wLength : Word) : Statement (.getDescriptorStringManufacturer wIndex wLength) :=
  fun _ _ => rfl

theorem getDescriptorStringProduct (wIndex wLength : Word) : Statement (.getDescriptorStringProduct wIndex wLength) :=
  fun _ _ => rfl

theorem getDescriptorStringSerial (wIndex wLength : Word) : Statement (.getDescriptorStringSerial wIndex wLength) :=
  fun _ _ => rfl

theorem getDescriptorDeviceQualifier (wIndex wLength : Word) : Statement (.getDescriptorDeviceQualifier wIndex wLength) :=
  fun _ _ => rfl

theorem getDescriptorUnknown (wValue wIndex wLength : Word) : Statement (.getDescriptorUnknown wValue wIndex wLength) :=
  fun _ _ => rfl

theorem getStatus (wValue wIndex wLength : Word) : Statement (.getStatus wValue wIndex wLength) :=
  fun _ _ => rfl

theorem stdD2hUnknown (bRequest : Byte) (wValue wIndex wLength : Word) : Statement (.stdD2hUnknown bRequest wValue wIndex wLength) :=
  fun _ _ => rfl

theorem setAddress (wValue wIndex wLength : Word) : Statement (.setAddress wValue wIndex wLength) :=
  fun _ _ => rfl

theorem setConfiguration (wValue wIndex wLength : Word) : Statement (.setConfiguration wValue wIndex wLength) :=
  fun _ _ => rfl

theorem stdH2dUnknown (bRequest : Byte) (wValue wIndex wLength : Word) : Statement (.stdH2dUnknown bRequest wValue wIndex wLength) :=
  fun _ _ => rfl

theorem clearFeatureEndpoint (wValue wIndex wLength : Word) : Statement (.clearFeatureEndpoint wValue wIndex wLength) :=
  fun _ _ => rfl

theorem stdEpH2dUnknown (bRequest : Byte) (wValue wIndex wLength : Word) : Statement (.stdEpH2dUnknown bRequest wValue wIndex wLength) :=
  fun _ _ => rfl

theorem vendorRead (recipient : BitVec 5) (bRequest : Byte) (wValue wIndex wLength : Word) : Statement (.vendorRead recipient bRequest wValue wIndex wLength) :=
  fun _ _ => rfl

theorem vendorWrite (recipient : BitVec 5) (bRequest : Byte) (wValue wIndex wLength : Word) : Statement (.vendorWrite recipient bRequest wValue wIndex wLength) :=
  fun _ _ => rfl

theorem getLineCoding (toHost : Bool) (wValue wIndex wLength : Word) : Statement (.getLineCoding toHost wValue wIndex wLength) :=
  fun _ _ => rfl

theorem setLineCoding (toHost : Bool) (wValue wIndex wLength : Word) : Statement (.setLineCoding toHost wValue wIndex wLength) :=
  fun _ _ => rfl

theorem setControlLineState (toHost : Bool) (wValue wIndex wLength : Word) : Statement (.setControlLineState toHost wValue wIndex wLength) :=
  fun _ _ => rfl

theorem sendBreak (toHost : Bool) (wValue wIndex wLength : Word) : Statement (.sendBreak toHost wValue wIndex wLength) :=
  fun _ _ => rfl

theorem classUnknown (toHost : Bool) (bRequest : Byte) (wValue wIndex wLength : Word) : Statement (.classUnknown toHost bRequest wValue wIndex wLength) :=
  fun _ _ => rfl

theorem unknown (bmRequestType bRequest : Byte) (wValue wIndex wLength : Word) : Statement (.unknown bmRequestType bRequest wValue wIndex wLength) :=
  fun _ _ => rfl

theorem ep0Setup : Statement (.ep0Setup) :=
  fun _ _ => rfl

theorem ep0Out : Statement (.ep0Out) :=
  fun _ _ => rfl

theorem ep0In : Statement (.ep0In) :=
  fun _ _ => rfl

theorem irqReset : Statement (.irqReset) :=
  fun _ _ => rfl

theorem irqCtr (epId : BitVec 4) : Statement (.irqCtr epId) :=
  fun _ _ => rfl

theorem configureEndpoint (id : Nat) (type : EpType) (txOffset rxOffset : Word) (handler : Handler) : Statement (.configureEndpoint id type txOffset rxOffset handler) :=
  fun _ _ => (by decide : 1 ≤ 8 ∧ 8 ≤ longestInstr)

theorem write (n : Nat) (bytes : List Byte) : Statement (.write n bytes) := by
  intro c h
  simp only [wellFormed, Bool.and_eq_true, decide_eq_true_eq] at h
  have e : (encode c (.write n bytes)).length = bytes.length + 3 := rfl
  simp only [Instr.format, e, longestInstr]
  omega

theorem writeCommit (n : Nat) (bytes : List Byte) : Statement (.writeCommit n bytes) := by
  intro c h
  simp only [wellFormed, Bool.and_eq_true, decide_eq_true_eq] at h
  have e : (encode c (.writeCommit n bytes)).length = bytes.length + 3 := rfl
  simp only [Instr.format, e, longestInstr]
  omega

theorem read (n : Nat) : Statement (.read n) :=
  fun _ _ => (by decide : 1 ≤ 2 ∧ 2 ≤ longestInstr)

theorem blockingRead (n : Nat) : Statement (.blockingRead n) :=
  fun _ _ => (by decide : 1 ≤ 2 ∧ 2 ≤ longestInstr)

theorem waitTick : Statement (.waitTick) :=
  fun _ _ => (by decide : 1 ≤ 1 ∧ 1 ≤ longestInstr)

theorem waitFinish : Statement (.waitFinish) :=
  fun _ _ => (by decide : 1 ≤ 1 ∧ 1 ≤ longestInstr)

end Sys2Proof.Laws.Encoded
end

