-- ==== Sys2Proof/Laws/Rows.lean ====
section
/-! SUPPORT. The packet decoder of spec/30_encoding.md R109: a row matched field by field, and the operation a packet encodes. -/

namespace Sys2Proof.Machine

theorem append_injective {m n : Nat} {a b : BitVec m} {x y : BitVec n} (h : a ++ x = b ++ y) : a = b ∧ x = y := by
  constructor
  · apply BitVec.eq_of_getLsbD_eq
    intro i hi
    have := congrArg (fun w => w.getLsbD (n + i)) h
    simpa [BitVec.getLsbD_append] using this
  · apply BitVec.eq_of_getLsbD_eq
    intro i hi
    have := congrArg (fun w => w.getLsbD i) h
    simpa [BitVec.getLsbD_append, hi] using this

theorem append_and_eq {m n : Nat} (a b c : BitVec m) (x y z : BitVec n) : (a ++ x) &&& (b ++ y) = (c ++ z) ↔ a &&& b = c ∧ x &&& y = z := by
  rw [BitVec.and_append]
  constructor
  · exact append_injective
  · rintro ⟨rfl, rfl⟩; rfl

theorem packet_row_match (p : Setup) (mv vv : Word) (mr vr mb vb : Byte) {M V : BitVec 64} (hM : M = (0#16 ++ 0#16 ++ mv ++ mr ++ mb : BitVec 64)) (hV : V = (0#16 ++ 0#16 ++ vv ++ vr ++ vb : BitVec 64)) :
    (p.word &&& M == V) = (p.wValue &&& mv == vv && p.bRequest &&& mr == vr && p.bmRequestType &&& mb == vb) := by
  subst hM hV
  rw [Bool.eq_iff_iff]
  simp only [beq_iff_eq, Bool.and_eq_true]
  unfold Setup.word
  have e1 := append_and_eq (p.wLength ++ p.wIndex ++ p.wValue ++ p.bRequest) (0#16 ++ 0#16 ++ mv ++ mr) (0#16 ++ 0#16 ++ vv ++ vr) p.bmRequestType mb vb
  have e2 := append_and_eq (p.wLength ++ p.wIndex ++ p.wValue) (0#16 ++ 0#16 ++ mv) (0#16 ++ 0#16 ++ vv) p.bRequest mr vr
  have e3 := append_and_eq (p.wLength ++ p.wIndex) (0#16 ++ 0#16) (0#16 ++ 0#16) p.wValue mv vv
  have e4 : (p.wLength ++ p.wIndex) &&& (0#16 ++ 0#16) = (0#16 ++ 0#16 : BitVec (16+16)) := by
    have : (0#16 ++ 0#16 : BitVec (16+16)) = 0 := by decide
    rw [this]; exact BitVec.and_zero
  constructor
  · intro h
    obtain ⟨h1, h2⟩ := e1.mp h
    obtain ⟨h3, h4⟩ := e2.mp h1
    obtain ⟨h5, h6⟩ := e3.mp h3
    exact ⟨⟨h6, h4⟩, h2⟩
  · rintro ⟨⟨h6, h4⟩, h2⟩
    exact e1.mpr ⟨e2.mpr ⟨e3.mpr ⟨e4, h6⟩, h4⟩, h2⟩

theorem selector_match (v : Word) : (0x680 ||| (v.zeroExtend 64 <<< 16) : BitVec 64) = (0#16 ++ 0#16 ++ v ++ 0x06#8 ++ 0x80#8 : BitVec 64) := by
  have e : (0#16 ++ 0#16 : BitVec (16+16)) ++ v = (v.zeroExtend 48) := by
    apply BitVec.eq_of_getLsbD_eq
    intro i hi
    refine (BitVec.getLsbD_append (x := (0#16 ++ 0#16 : BitVec (16+16))) (y := v) (i := i)).trans ?_
    rw [show (0#16 ++ 0#16 : BitVec (16+16)) = 0 by decide]
    have : (v.zeroExtend 48).getLsbD i = (decide (i < 48) && v.getLsbD i) := BitVec.getLsbD_setWidth ..
    rw [this]
    by_cases h : i < 16
    · simp [h]; omega
    · simp [h]; intro _; exact BitVec.getLsbD_of_ge v i (by omega)
  apply BitVec.eq_of_getLsbD_eq
  intro i hi
  refine Eq.trans ?_ (BitVec.getLsbD_append (x := (0#16 ++ 0#16 ++ v ++ 0x06#8 : BitVec 56)) (y := 0x80#8) (i := i)).symm
  have e2 := BitVec.getLsbD_append (x := (0#16 ++ 0#16 ++ v : BitVec 48)) (y := 0x06#8) (i := i - 8)
  rw [e2, e]
  have : (v.zeroExtend 48).getLsbD (i - 8 - 8) = (decide (i - 8 - 8 < 48) && v.getLsbD (i - 8 - 8)) := BitVec.getLsbD_setWidth ..
  rw [this]
  have h2 : (v.zeroExtend 64 <<< 16).getLsbD i = (decide (i < 64) && !decide (i < 16) && v.getLsbD (i - 16)) := by
    rw [BitVec.getLsbD_shiftLeft]
    have : (v.zeroExtend 64).getLsbD (i - 16) = (decide (i - 16 < 64) && v.getLsbD (i-16)) := BitVec.getLsbD_setWidth ..
    rw [this]; simp [hi, show i - 16 < 64 by omega]
  rw [BitVec.getLsbD_or, h2]
  by_cases h : i < 16
  · interval_cases i <;> simp
  · have h3 : (0x680#64).getLsbD i = false := by
      interval_cases i <;> first | omega | decide
    simp [h, hi, show ¬ i < 8 by omega, show ¬ i - 8 < 8 by omega, show i - 8 - 8 = i - 16 by omega]
    rw [BitVec.getLsbD_eq_getElem hi] at h3
    rw [h3]; simp; intro _; omega

/-- A well-formed request is what its packet decodes to. -/
theorem decodeSetup_of_encodeSetup {c : Params} {i : Instr} {p : Setup} (hc : c.wf) (hw : wellFormed c i = true) (h : encodeSetup c i = some p) : decodeSetup c p = i := by
  obtain ⟨-, -, -, -, m0, p0, s0, mp, ms, ps⟩ := hc
  have selinj : ∀ a b : Byte, stringSelector a = stringSelector b → a = b := by
    intro a b hab
    unfold stringSelector at hab
    have h2 : (a.zeroExtend 16 : Word) = b.zeroExtend 16 := by simpa using hab
    have h3 := congrArg BitVec.toNat h2
    have ha := a.isLt; have hb := b.isLt
    apply BitVec.eq_of_toNat_eq
    simpa [Nat.mod_eq_of_lt, show a.toNat < 65536 by omega, show b.toNat < 65536 by omega] using h3
  have sel0 : ∀ a : Byte, a ≠ 0 → stringSelector a ≠ 0x0300 := by
    intro a ha h
    exact ha (selinj a 0 (by rw [h]; decide))
  have selhi : ∀ a : Byte, stringSelector a ≠ 0x0100 ∧ stringSelector a ≠ 0x0200 ∧ stringSelector a ≠ 0x0600 := by
    intro a; unfold stringSelector
    have := a.isLt
    refine ⟨?_, ?_, ?_⟩ <;> (intro h; have h := congrArg BitVec.toNat h; simp at h; omega)
  obtain ⟨sm1, sm2, sm3⟩ := selhi c.idxManufacturer
  obtain ⟨sp1, sp2, sp3⟩ := selhi c.idxProduct
  obtain ⟨ss1, ss2, ss3⟩ := selhi c.idxSerial
  have sm0 := sel0 _ m0
  have sp0 := sel0 _ p0
  have ss0 := sel0 _ s0
  have dmp : stringSelector c.idxProduct ≠ stringSelector c.idxManufacturer := fun h => mp (selinj _ _ h).symm
  have dms : stringSelector c.idxSerial ≠ stringSelector c.idxManufacturer := fun h => ms (selinj _ _ h).symm
  have dps : stringSelector c.idxSerial ≠ stringSelector c.idxProduct := fun h => ps (selinj _ _ h).symm
  have vr : ∀ r : BitVec 5, ((0b110#3 ++ r : Byte) ≠ 0x80 ∧ (0b110#3 ++ r : Byte) ≠ 0x00 ∧ (0b110#3 ++ r : Byte) ≠ 0x02 ∧ (0b110#3 ++ r : Byte) &&& 0xE0 = 0xC0 ∧ (0b110#3 ++ r : Byte).extractLsb' 0 5 = r) := by decide
  have vw : ∀ r : BitVec 5, ((0b010#3 ++ r : Byte) ≠ 0x80 ∧ (0b010#3 ++ r : Byte) ≠ 0x00 ∧ (0b010#3 ++ r : Byte) ≠ 0x02 ∧ (0b010#3 ++ r : Byte) &&& 0xE0 = 0x40 ∧ (0b010#3 ++ r : Byte).extractLsb' 0 5 = r) := by decide
  have vw2 : ∀ r : BitVec 5, (0b010#3 ++ r : Byte) &&& 0xE0 ≠ 0xC0 := by decide
  cases i with
  | getDescriptorStringManufacturer w l =>
    cases h; show decodeDescriptor c ⟨0x80, 6, _, w, l⟩ = _; simp only [decodeDescriptor]
    rw [if_neg sm1, if_neg sm2, if_neg sm0]; simp
  | getDescriptorStringProduct w l =>
    cases h; show decodeDescriptor c ⟨0x80, 6, _, w, l⟩ = _; simp only [decodeDescriptor]
    rw [if_neg sp1, if_neg sp2, if_neg sp0, if_neg dmp]; simp
  | getDescriptorStringSerial w l =>
    cases h; show decodeDescriptor c ⟨0x80, 6, _, w, l⟩ = _; simp only [decodeDescriptor]
    rw [if_neg ss1, if_neg ss2, if_neg ss0, if_neg dms, if_neg dps]; simp
  | getDescriptorDeviceQualifier w l =>
    cases h; show decodeDescriptor c ⟨0x80, 6, 0x0600, w, l⟩ = _; simp only [decodeDescriptor]
    rw [if_neg (by decide), if_neg (by decide), if_neg (by decide), if_neg sm3.symm, if_neg sp3.symm, if_neg ss3.symm]; simp
  | getDescriptorUnknown v w l =>
    cases h
    simp only [wellFormed, descriptorSelectors, Bool.not_eq_true', List.contains_eq_mem, decide_eq_false_iff_not, List.mem_cons, List.not_mem_nil, or_false, not_or] at hw
    obtain ⟨a1, a2, a3, a4, a5, a6, a7⟩ := hw
    change v ≠ stringSelector _ at a4; change v ≠ stringSelector _ at a5; change v ≠ stringSelector _ at a6
    show decodeDescriptor c ⟨0x80, 6, _, w, l⟩ = _; simp only [decodeDescriptor]
    rw [if_neg a1, if_neg a2, if_neg a3, if_neg a4, if_neg a5, if_neg a6, if_neg a7]
  | vendorRead r b v w l =>
    cases h
    obtain ⟨a1, a2, a3, a4, a5⟩ := vr r
    simp only [decodeSetup]
    rw [if_neg a1, if_neg a2, if_neg a3, if_pos a4, a5]
  | vendorWrite r b v w l =>
    cases h
    obtain ⟨a1, a2, a3, a4, a5⟩ := vw r
    simp only [decodeSetup]
    rw [if_neg a1, if_neg a2, if_neg a3, if_neg (vw2 r), if_pos a4, a5]
  | unknown bm b v w l =>
    cases h
    simp only [wellFormed, knownRequestType, Bool.not_eq_true', Bool.or_eq_false_iff, beq_eq_false_iff_ne] at hw
    obtain ⟨⟨⟨⟨a1, a2⟩, a3⟩, a4⟩, a5⟩ := hw
    simp only [decodeSetup]
    rw [if_neg a1, if_neg a2, if_neg a3, if_neg, if_neg, if_neg a5]
    · intro h; apply a4
      have : bm &&& 0x60 = (bm &&& 0xE0) &&& 0x60 := by rw [BitVec.and_assoc]; rfl
      rw [this, h]; rfl
    · intro h; apply a4
      have : bm &&& 0x60 = (bm &&& 0xE0) &&& 0x60 := by rw [BitVec.and_assoc]; rfl
      rw [this, h]; rfl
  | getLineCoding d v w l => cases h; cases d <;> simp [decodeSetup, classType, decodeClass]
  | setLineCoding d v w l => cases h; cases d <;> simp [decodeSetup, classType, decodeClass]
  | setControlLineState d v w l => cases h; cases d <;> simp [decodeSetup, classType, decodeClass]
  | sendBreak d v w l => cases h; cases d <;> simp [decodeSetup, classType, decodeClass]
  | classUnknown d b v w l =>
    cases h
    simp only [wellFormed, Bool.and_eq_true, bne_iff_ne] at hw
    obtain ⟨⟨⟨a1, a2⟩, a3⟩, a4⟩ := hw
    have hd : decodeSetup c ⟨classType d, b, v, w, l⟩ = decodeClass ⟨classType d, b, v, w, l⟩ := by cases d <;> simp [decodeSetup, classType]
    rw [hd]; simp only [decodeClass]
    rw [if_neg a2, if_neg a1, if_neg a3, if_neg a4]; cases d <;> rfl
  | stdD2hUnknown b v w l =>
    cases h
    simp only [wellFormed, Bool.and_eq_true, bne_iff_ne] at hw
    simp only [decodeSetup]
    rw [if_pos trivial, if_neg hw.2, if_neg hw.1]
  | stdH2dUnknown b v w l =>
    cases h
    simp only [wellFormed, Bool.and_eq_true, bne_iff_ne] at hw
    simp only [decodeSetup]
    rw [if_neg (by decide), if_pos trivial, if_neg hw.1, if_neg hw.2]
  | stdEpH2dUnknown b v w l =>
    cases h
    simp only [wellFormed, bne_iff_ne] at hw
    simp only [decodeSetup]
    rw [if_neg (by decide), if_neg (by decide), if_pos trivial, if_neg hw]
  | _ => first | (cases h; rfl) | cases h

end Sys2Proof.Machine
end

