-- ==== Sys2Proof/Tests/Slice0.lean ====
section
/-! SUPPORT. Tests of the model: ill-formed operations, words written out from the encodings, and single steps whose expected
values are the vectors of spec/95_test_vectors.md, named in each comment; and for every statement with hypotheses a witness
`test_witness_<statement>`: states and operands that meet them, clause by clause. -/

namespace Sys2Proof.Tests

set_option Elab.async false

open Sys2Proof Sys2Proof.Machine

/-! ### WellFormed refuses an ill-formed term of each check -/

theorem test_illformed_descriptor_selector :
    wellFormed Config.suggested (.getDescriptorUnknown 0x0100 0 0) = false ∧
    wellFormed Config.suggested (.getDescriptorUnknown 0x0200 0 0) = false ∧
    wellFormed Config.suggested (.getDescriptorUnknown 0x0300 0 0) = false ∧
    wellFormed Config.suggested (.getDescriptorUnknown 0x0301 0 0) = false ∧
    wellFormed Config.suggested (.getDescriptorUnknown 0x0302 0 0) = false ∧
    wellFormed Config.suggested (.getDescriptorUnknown 0x0303 0 0) = false ∧
    wellFormed Config.suggested (.getDescriptorUnknown 0x0600 0 0) = false := by decide +kernel

theorem test_illformed_standard_codes :
    wellFormed Config.suggested (.stdD2hUnknown 0x06 0 0 0) = false ∧ wellFormed Config.suggested (.stdD2hUnknown 0x00 0 0 0) = false ∧
    wellFormed Config.suggested (.stdH2dUnknown 0x05 0 0 0) = false ∧ wellFormed Config.suggested (.stdH2dUnknown 0x09 0 0 0) = false ∧
    wellFormed Config.suggested (.stdEpH2dUnknown 0x01 0 0 0) = false := by decide +kernel

theorem test_illformed_class_codes :
    ∀ r ∈ [(0x20 : Byte), 0x21, 0x22, 0x23], wellFormed Config.suggested (.classUnknown true r 0 0 0) = false := by decide +kernel

theorem test_illformed_request_types :
    ∀ b ∈ [(0x80 : Byte), 0x00, 0x02, 0xC0, 0xDF, 0x40, 0x5F, 0x21, 0xA1],
      wellFormed Config.suggested (.unknown b 0 0 0 0) = false := by decide +kernel

theorem test_illformed_operands :
    wellFormed Config.suggested (.irqCtr 8) = false ∧ wellFormed Config.suggested (.configureEndpoint 256 .bulk 0 0 .data) = false ∧
    wellFormed Config.suggested (.write 256 []) = false ∧
    wellFormed Config.suggested (.write 0 (List.replicate 256 0)) = false ∧
    wellFormed Config.suggested (.writeCommit 256 []) = false ∧
    wellFormed Config.suggested (.writeCommit 0 (List.replicate 256 0)) = false ∧
    wellFormed Config.suggested (.read 256) = false ∧ wellFormed Config.suggested (.blockingRead 256) = false := by decide +kernel

/-! ### Decoding: words written out from spec/30_encoding.md R104 to R110 -/

/-- Rows 1 to 8: `bmRequestType` 0x80, `bRequest` 0x06, then `wValue`, `wIndex`, `wLength`, each low byte first. -/
theorem test_decode_get_descriptor :
    decodeTableWord 64 0x0040000001000680 = some (.getDescriptorDevice 0x0000 0x0040) ∧
    decodeTableWord 64 0x00FF000002000680 = some (.getDescriptorConfiguration 0x0000 0x00FF) ∧
    decodeTableWord 64 0x00FF000003000680 = some (.getDescriptorStringLanguage 0x0000 0x00FF) ∧
    decodeTableWord 64 0x00FF040903010680 = some (.getDescriptorStringManufacturer 0x0409 0x00FF) ∧
    decodeTableWord 64 0x00FF040903020680 = some (.getDescriptorStringProduct 0x0409 0x00FF) ∧
    decodeTableWord 64 0x0002040903030680 = some (.getDescriptorStringSerial 0x0409 0x0002) ∧
    decodeTableWord 64 0x000A000006000680 = some (.getDescriptorDeviceQualifier 0x0000 0x000A) ∧
    decodeTableWord 64 0x0040000022000680 = some (.getDescriptorUnknown 0x2200 0x0000 0x0040) := by decide +kernel

/-- Rows 9 to 15. -/
theorem test_decode_standard :
    decodeTableWord 64 0x0000000512340080 = some (.getStatus 0x1234 0x0005 0x0000) ∧
    decodeTableWord 64 0x0001000000000880 = some (.stdD2hUnknown 0x08 0x0000 0x0000 0x0001) ∧
    decodeTableWord 64 0x0000000000050500 = some (.setAddress 0x0005 0x0000 0x0000) ∧
    decodeTableWord 64 0x0000000000010900 = some (.setConfiguration 0x0001 0x0000 0x0000) ∧
    decodeTableWord 64 0x0012000001000700 = some (.stdH2dUnknown 0x07 0x0100 0x0000 0x0012) ∧
    decodeTableWord 64 0x0000008100000102 = some (.clearFeatureEndpoint 0x0000 0x0081 0x0000) ∧
    decodeTableWord 64 0x0000000100000302 = some (.stdEpH2dUnknown 0x03 0x0000 0x0001 0x0000) := by decide +kernel

/-- Rows 16 to 23: vendor `type` 2 in bits 6:5 with the recipient in bits 4:0; class with either direction bit. -/
theorem test_decode_class_vendor_unknown :
    decodeTableWord 64 0x00000000000000C1 = some (.vendorRead 1 0x00 0x0000 0x0000 0x0000) ∧
    decodeTableWord 64 0x0000000012343340 = some (.vendorWrite 0 0x33 0x1234 0x0000 0x0000) ∧
    decodeTableWord 64 0x00070000000021A1 = some (.getLineCoding true 0x0000 0x0000 0x0007) ∧
    decodeTableWord 64 0x0007000000002021 = some (.setLineCoding false 0x0000 0x0000 0x0007) ∧
    decodeTableWord 64 0x0000000000032221 = some (.setControlLineState false 0x0003 0x0000 0x0000) ∧
    decodeTableWord 64 0x00000000FFFF2321 = some (.sendBreak false 0xFFFF 0x0000 0x0000) ∧
    decodeTableWord 64 0x00400000000001A1 = some (.classUnknown true 0x01 0x0000 0x0000 0x0040) ∧
    decodeTableWord 64 0xFFFFFFFFFFFFFFE3 = some (.unknown 0xE3 0xFF 0xFFFF 0xFFFF 0xFFFF) := by decide +kernel

/-- The flag-vector, interrupt-status and bookkeeping tables; with both causes the reset row is first. -/
theorem test_decode_flags_istr :
    decodeTableWord 8 0b101 = some .ep0Setup ∧ decodeTableWord 8 0b001 = some .ep0Out ∧ decodeTableWord 8 0b010 = some .ep0In ∧
    decodeTableWord 16 0x0400 = some .irqReset ∧ decodeTableWord 16 0x8405 = some .irqReset ∧
    decodeTableWord 16 0x8005 = some (.irqCtr 5) ∧
    decode .istr Config.suggested [0x05, 0x00] = .error .noCause := by decide +kernel

/-- Words with only the bits a row of spec/opcode_table.json fixes: the rest of the packet is zeros. -/
theorem test_decode_short_words :
    decodeTableWord 32 0x01000680 = some (.getDescriptorDevice 0 0) ∧ decodeTableWord 16 0x0680 = some (.getDescriptorUnknown 0 0 0) ∧
    decodeTableWord 16 0x0080 = some (.getStatus 0 0 0) ∧ decodeTableWord 16 0x0500 = some (.setAddress 0 0 0) ∧
    decodeTableWord 16 0x2021 = some (.setLineCoding false 0 0 0) ∧ decodeTableWord 8 0xC0 = some (.vendorRead 0 0 0 0 0) ∧
    decodeTableWord 8 0x21 = some (.classUnknown false 0 0 0 0) ∧ decodeTableWord 8 6 = some .waitFinish := by decide +kernel

/-- Register Bridge selectors 0 to 6 with the operand bytes of log 14; selector 7 has no row. -/
theorem test_decode_register_bridge :
    decode .bop Config.suggested [0, 1, 0, 0xC0, 0x00, 0x00, 0x01, 1] = .ok (.configureEndpoint 1 .bulk 192 256 .data, []) ∧
    decode .bop Config.suggested [1, 0, 2, 0xAA, 0xBB, 0xCC] = .ok (.write 0 [0xAA, 0xBB], [0xCC]) ∧
    decode .bop Config.suggested [2, 1, 3, 0x68, 0x69, 0x21] = .ok (.writeCommit 1 [0x68, 0x69, 0x21], []) ∧
    decode .bop Config.suggested [3, 1] = .ok (.read 1, []) ∧ decode .bop Config.suggested [4, 0] = .ok (.blockingRead 0, []) ∧
    decode .bop Config.suggested [5] = .ok (.waitTick, []) ∧ decode .bop Config.suggested [6] = .ok (.waitFinish, []) ∧
    decode .bop Config.suggested [7] = .error .selector ∧
    decode .bop Config.suggested [0, 1, 4, 0, 0, 0, 0, 1] = .error .operand ∧
    decode .bop Config.suggested [1, 0, 2, 0xAA] = .error .tooShort := by decide +kernel

/-- A flag vector with no row, and cut-off words. -/
theorem test_decode_rejects :
    decode .flags Config.suggested [0b011] = .error .flagVector ∧ decode .flags Config.suggested [0b111] = .error .flagVector ∧
    decode .istr Config.suggested [0x0F, 0x00] = .error .noCause ∧
    decode .setup Config.suggested [0x80, 6, 0, 1, 0, 0, 0] = .error .tooShort := by decide +kernel

/-! ### Register words: spec/95_test_vectors.md 2.1 to 2.3 -/

/-- V1 to V9. -/
theorem test_regWrite :
    regWrite 0x0000 0x3220 = 0x3220 ∧ regWrite 0xEA60 0x0A10 = 0x6A70 ∧ regWrite 0xEA60 0xEA60 = 0x8A00 ∧
    regWrite 0xEA60 0x0000 = 0x6860 ∧ regWrite 0xEA60 0x8080 = 0xE860 ∧ regWrite 0x0800 0xFFFF = 0x7F7F ∧
    regWrite 0xFFFF 0x0000 = 0x7870 ∧ regWrite 0xFFFF 0xFFFF = 0x8F8F ∧ regWrite 0x3210 0x0A10 = 0x3200 := by decide +kernel

/-- V10 to V19. -/
theorem test_mkStatus :
    mkStatus 0xEA60 (some .nak) (some .valid) false false = 0x8A10 ∧ mkStatus 0xEA60 (some .valid) (some .nak) false false = 0x9A00 ∧
    mkStatus 0x6AA0 (some .valid) (some .valid) false false = 0x1A90 ∧ mkStatus 0xA230 (some .valid) (some .stall) true true = 0x9220 ∧
    mkStatus 0xA260 (some .valid) (some .stall) true true = 0x9270 ∧ mkStatus 0x3220 none none false false = 0x0200 ∧
    mkStatus 0x3210 (some .nak) (some .valid) false false = 0x1220 ∧ mkStatus 0xA260 (some .nak) (some .valid) false false = 0x8210 ∧
    mkStatus 0xFFFF (some .nak) (some .nak) true true = 0xDFDF ∧ mkStatus 0x0000 (some .valid) (some .valid) true true = 0x3030 := by decide +kernel

/-- V20 to V26: the word written, and the register after it. -/
theorem test_commit :
    commitWord ⟨0x8A10, false, false⟩ = 0x0A10 ∧ regWrite 0xEA60 0x0A10 = 0x6A70 ∧
    commitWord ⟨0x1A90, false, false⟩ = 0x1A10 ∧ regWrite 0x6AA0 0x1A10 = 0x7A30 ∧
    commitWord ⟨0x9220, true, true⟩ = 0x1220 ∧ regWrite 0xA230 0x1220 = 0x3210 ∧
    commitWord ⟨0x9270, true, true⟩ = 0x1270 ∧ regWrite 0xA260 0x1270 = 0x3210 ∧
    commitWord ⟨0x9270, false, false⟩ = 0x1230 ∧ regWrite 0xA260 0x1230 = 0x3250 ∧
    commitWord ⟨0x9001, false, false⟩ = 0x1001 ∧ regWrite 0xE021 0x1001 = 0x7021 ∧
    commitWord ⟨0x0081, false, false⟩ = 0x0001 ∧ regWrite 0x60E1 0x0001 = 0x6061 := by decide +kernel

/-! ### Single steps on the armed state -/

/-- The parameters of the vectors, with two endpoints. -/
def cfg : Params := { Config.suggested with numEp := 2 }

/-- Bytes at rising offsets. -/
def cells (a : Nat) (b : List Byte) : List Host.Cell :=
  match b with
  | [] => []
  | x :: rest => (a, x) :: cells (a + 1) rest

/-- `S0` of spec/95_test_vectors.md with these control registers, `BT[0].COUNT_RX` = 0x8408 and `p` in endpoint 0's receive
buffer; endpoint 1 is a data endpoint at 192 and 256. -/
def armed (e0 e1 : Word) (p : List Byte) : State where
  cfg := cfg
  recs := [⟨.control, 64, 128, 0, false, false, false, 0⟩, ⟨.data, 192, 256, 0, false, false, false, 0⟩]
  dev := ⟨0, .default⟩
  lc := .default
  seq := .idle
  scratch := List.replicate 64 0
  fault := none
  epr := [e0, e1]
  istrReset := false
  daddr := 0x80
  pma := cells 0 [64, 0, 0, 0, 128, 0, 0x08, 0x84, 192, 0, 0, 0, 0, 1, 0x00, 0x84] ++ cells 128 p
  out := []
  draws := 0
  script := []
  handlerRet := .none
  appBuf := []

/-- The state a step or an operation answers. -/
def after (o : Res State) : Option State :=
  match o with
  | .next t => some t
  | .fault _ => none
  | .refused _ => none

/-- What a test reads of a state: endpoint 0's register and queued reply, the Device State and `DADDR`, the events. -/
def seen (t : State) : Word × List Byte × DevState × Byte × List Event :=
  (t.eprAt 0, t.pmaBytes 64 (t.bt 0 .countTx).toNat, t.dev, t.daddr, t.out)

/-- The state is there and a test reads this of it. -/
def shows (o : Option State) (v : Word × List Byte × DevState × Byte × List Event) : Bool := decide (o.map seen = some v)

/-- One dispatch of `S0 + SETUP p`. -/
def served (p : List Byte) : Option State := after (step { armed 0xEA60 0x3021 p with script := [.dispatch] })

/-- `served p` queues `b` and changes nothing else a test reads. -/
def replies (p b : List Byte) : Bool := shows (served p) (0x6A70, b, ⟨0, .default⟩, 0x80, [])

/-- A placed SETUP word of fewer than eight bytes runs at the very next step: SET_CONFIGURATION from two bytes, a descriptor
request from four, whose `wLength` is so 0. -/
theorem test_placed_word_runs :
    shows (after (step (State.reset.withFetchWord 16 0x0900))) (0x6A70, [], ⟨0, .configured⟩, 0, []) ∧
    shows (after (step (State.reset.withFetchWord 32 0x06000680))) (0x6A70, [], ⟨0, .default⟩, 0, []) := by decide +kernel

/-- V30, V31, V32. -/
theorem test_getDescriptorDevice :
    replies [0x80, 6, 0, 1, 0, 0, 0x40, 0] Config.sampleDesc.device ∧
    replies [0x80, 6, 0, 1, 0, 0, 8, 0] [0x12, 0x01, 0x00, 0x02, 0x02, 0x00, 0x00, 0x40] ∧
    replies [0x80, 6, 0, 1, 0, 0, 0, 0] [] := by decide +kernel

/-- V33: an odd length. -/
theorem test_getDescriptorConfiguration :
    replies [0x80, 6, 0, 2, 0, 0, 9, 0] [0x09, 0x02, 0x20, 0x00, 0x01, 0x01, 0x00, 0x80, 0x32] := by decide +kernel

/-- V35 to V39. -/
theorem test_getDescriptorOthers :
    replies [0x80, 6, 0, 3, 0, 0, 0xFF, 0] [0x04, 0x03, 0x09, 0x04] ∧
    replies [0x80, 6, 1, 3, 9, 4, 0xFF, 0] [0x06, 0x03, 0x4B, 0x00, 0x79, 0x00] ∧
    replies [0x80, 6, 2, 3, 9, 4, 0xFF, 0] [0x08, 0x03, 0x43, 0x00, 0x44, 0x00, 0x43, 0x00] ∧
    replies [0x80, 6, 3, 3, 9, 4, 2, 0] [0x04, 0x03] ∧
    replies [0x80, 6, 0, 6, 0, 0, 10, 0] [0x0A, 0x06, 0x00, 0x02, 0x02, 0x00, 0x00, 0x40, 0x01, 0x00] := by decide +kernel

/-- V40, V41c, V44, V45, V46, V48b, V53, V54: acknowledged with no data. -/
theorem test_acknowledged :
    ∀ p ∈ [[0x80, 6, 0, 0x22, 0, 0, 0x40, 0], [0x80, 8, 0, 0, 0, 0, 1, 0], [0x00, 3, 1, 0, 0, 0, 0, 0],
           [0x02, 1, 0, 0, 0x81, 0, 0, 0], [0x02, 3, 0, 0, 1, 0, 0, 0], [0x42, 0, 0, 0, 0, 0, 4, 0],
           [0x21, 0, 0, 0, 0, 0, 4, 0], [0x81, 6, 0, 0x22, 0, 0, 0x40, 0]], replies p [] := by decide +kernel

/-- V41b, V47b, V49: replies of fixed length. -/
theorem test_fixed_replies :
    replies [0x80, 0, 0x34, 0x12, 5, 0, 0, 0] [0x00, 0x00] ∧ replies [0xC1, 0, 0, 0, 0, 0, 0, 0] [0x5A] ∧
    replies [0xA1, 0x21, 0, 0, 0, 0, 7, 0] [0x00, 0xC2, 0x01, 0x00, 0x00, 0x00, 0x08] := by decide +kernel

/-- V42b. -/
theorem test_setAddress :
    shows (served [0x00, 5, 0x85, 1, 0, 0, 0, 0]) (0x6A70, [], ⟨5, .default⟩, 0x80, []) := by decide +kernel

/-- V43b. -/
theorem test_setConfiguration :
    shows (served [0x00, 9, 0, 0, 0, 0, 0, 0]) (0x6A70, [], ⟨0, .configured⟩, 0x80, []) := by decide +kernel

/-- V51, V52. -/
theorem test_line_state_and_break :
    shows (served [0x21, 0x22, 3, 0, 0, 0, 0, 0]) (0x6A70, [], ⟨0, .default⟩, 0x80, [.onControlLineState 0x0003]) ∧
    shows (served [0x21, 0x23, 0xFF, 0xFF, 0, 0, 0, 0]) (0x6A70, [], ⟨0, .default⟩, 0x80, [.onBreak]) := by decide +kernel

/-- V50: the wait starts with the whole budget. -/
theorem test_setLineCoding :
    (served [0x21, 0x20, 0, 0, 0, 0, 7, 0]).map (fun t => (t.eprAt 0, t.seq, (t.recAt 0).rxPending, t.lc, t.handlerRet)) =
      some (0x7A60, .wait 0 3, false, .default, .none) := by decide +kernel

/-- V60: the descriptor of 67 bytes; the fault is recorded and nothing else changes. -/
theorem test_writeTooLong :
    (let s := { armed 0xEA60 0x3021 [0x80, 6, 0, 2, 0, 0, 0x43, 0] with
        cfg := { cfg with desc := { Config.sampleDesc with configuration := List.replicate 67 0 } }, script := [.dispatch] }
     after (step s) = some { s with fault := some .writeTooLong }) := by decide +kernel

/-- V62, V64, and the commit of address 5 by the IN path (2.7). -/
theorem test_out_and_in_paths :
    (after (step { armed 0xA230 0x3021 [] with script := [.dispatch] })).map (fun t => t.eprAt 0) = some 0x3210 ∧
    (after (step { armed 0x6AA0 0x3021 [] with script := [.dispatch], dev := ⟨5, .default⟩ })).map
      (fun t => (t.eprAt 0, t.daddr, t.dev)) = some (0x7A30, 0x85, ⟨5, .addressed⟩) ∧
    (after (step { armed 0x6AA0 0x3021 [] with script := [.dispatch], dev := ⟨5, .configured⟩, daddr := 0x85 })).map
      (fun t => (t.eprAt 0, t.daddr, t.dev)) = some (0x7A30, 0x85, ⟨5, .configured⟩) := by decide +kernel

/-- V66 and V70: the two dispatch faults. -/
theorem test_dispatch_faults :
    (after (step { armed 0xEAE0 0x3021 [] with script := [.dispatch] })).map (fun t => (t.fault, t.eprAt 0)) =
      some (some .flagInvariant, 0xEAE0) ∧
    (after (step { State.powerUp cfg with epr := [0x8000, 0], script := [.dispatch] })).map (fun t => t.fault) =
      some (some .noHandler) := by decide +kernel

/-- R25, R354: both flags on a data endpoint fault, and the completion is not lost. -/
theorem test_data_endpoint_both_flags :
    (after (step { armed 0x3220 0xE0E1 [] with script := [.dispatch] })).map (fun t => (t.fault, t.eprAt 1, t.out)) =
      some (some .flagInvariant, 0xE0E1, []) := by decide +kernel

/-- V67 and V72: the reset path, also with a pending SETUP. -/
theorem test_irqReset :
    (after (step { armed 0x0000 0 [] with script := [.dispatch], istrReset := true, daddr := 0, dev := ⟨5, .configured⟩ })).map
      (fun t => (t.eprAt 0, t.dev, t.daddr, t.istrReset, t.pmaBytes 0 8)) =
      some (0x3220, ⟨0, .default⟩, 0x80, false, [64, 0, 0, 0, 128, 0, 0x00, 0x84]) ∧
    (after (step { armed 0xEA60 0 [] with script := [.dispatch], istrReset := true })).map (fun t => t.eprAt 0) = some 0x3A20 := by decide +kernel

/-- Program P8, moves 5 and 9: the default data handler. -/
theorem test_irqCtr_data :
    (after (exec (.irqCtr 1) { armed 0x3220 0xE021 [] with
        pma := cells 8 [192, 0, 0, 0, 0, 1, 0x02, 0x84] ++ cells 256 [0x6F, 0x6B] })).map
      (fun t => (t.eprAt 1, t.out, (t.recAt 1).rxCount, (t.recAt 1).status)) =
      some (0x7021, [.dataRx 1 [0x6F, 0x6B]], 2, 0xE021) ∧
    (after (exec (.irqCtr 1) (armed 0x3220 0x60E1 []))).map (fun t => (t.eprAt 1, t.out)) = some (0x6061, [.dataTxDone 1]) := by decide +kernel

/-- V27c, V27f, V27h to V27j. -/
theorem test_configureEndpoint :
    (after (exec (.configureEndpoint 0 .control 64 128 .control) (armed 0x6A70 0 []))).map (fun t => t.eprAt 0) = some 0x3A20 ∧
    (after (exec (.configureEndpoint 1 .bulk 192 256 .data) (armed 0x3220 0 []))).map
      (fun t => (t.eprAt 1, t.bt 1 .addrTx, t.bt 1 .countTx, t.bt 1 .addrRx, t.bt 1 .countRx)) =
      some (0x3021, 192, 0, 256, 0x8400) ∧
    exec (.configureEndpoint 2 .bulk 192 256 .data) (armed 0x3220 0 []) = .next (armed 0x3220 0 []) ∧
    exec (.configureEndpoint 1 .isochronous 192 256 .data) (armed 0x3220 0 []) = .fault .badConfigure ∧
    exec (.configureEndpoint 1 .bulk 193 256 .data) (armed 0x3220 0 []) = .fault .badConfigure := by
  refine ⟨by decide +kernel, by decide +kernel, ?_, ?_, ?_⟩ <;> rfl

/-- V28c, V28d, V28f: whole words are written, the count is exact; offset 72 keeps its byte. -/
theorem test_write :
    (after (exec (.write 0 [0x01, 0x02]) { armed 0x3220 0 [] with pma := cells 64 (List.replicate 16 0xAA) })).map
      (fun t => (t.pmaBytes 64 4, t.bt 0 .countTx)) = some ([0x01, 0x02, 0xAA, 0xAA], 2) ∧
    (after (exec (.write 0 [0x00, 0xC2, 0x01, 0x00, 0x00, 0x00, 0x08]) { armed 0x3220 0 [] with pma := cells 64 (List.replicate 16 0xAA) })).map
      (fun t => (t.pmaBytes 64 7, t.pmaByte 72, t.bt 0 .countTx)) = some ([0x00, 0xC2, 0x01, 0x00, 0x00, 0x00, 0x08], 0xAA, 7) ∧
    exec (.write 0 (List.replicate 65 0)) (armed 0x3220 0 []) = .fault .writeTooLong := by
  refine ⟨by decide +kernel, by decide +kernel, rfl⟩

/-- V29a, V29b. -/
theorem test_writeCommit :
    (after (exec (.writeCommit 1 [0x68, 0x69, 0x21]) (armed 0x3220 0x3061 []))).map
      (fun t => (t.eprAt 1, t.bt 1 .countTx, t.pmaBytes 192 3)) = some (0x2071, 3, [0x68, 0x69, 0x21]) ∧
    (after (exec (.writeCommit 1 [0x68, 0x69, 0x21]) (armed 0x3220 0xB061 []))).map (fun t => t.eprAt 1) = some 0xA071 := by decide +kernel

/-- V29c, V29e. -/
theorem test_read :
    (after (exec (.read 0) { armed 0x3220 0 [0x80, 0x25, 0, 0, 0, 0, 0x08, 0xDD] with
        recs := [⟨.control, 64, 128, 7, false, false, false, 0⟩, Record.powerUp] })).map (fun t => t.appBuf) =
      some [0x80, 0x25, 0x00, 0x00, 0x00, 0x00, 0x08] ∧
    after (exec (.read 0) { armed 0x3220 0 [] with
        recs := [⟨.control, 64, 128, 65, false, false, false, 0⟩, Record.powerUp] }) = none := by decide +kernel

/-- Program P4, move 4, as an operation of its own; a second start faults. -/
theorem test_blockingRead :
    (after (exec (.blockingRead 0) { armed 0xEA60 0 [] with
        recs := [⟨.control, 64, 128, 8, true, false, true, 0xEA60⟩, Record.powerUp] })).map (fun t => (t.eprAt 0, t.seq)) =
      some (0x7A60, .wait 0 3) ∧
    after (exec (.blockingRead 0) { armed 0xEA60 0 [] with seq := .wait 0 3 }) = none := by decide +kernel

/-- Program P4, moves 5 and 8; program P5, move 7. -/
theorem test_wait :
    (after (exec .waitTick { armed 0x7A60 0 [] with seq := .wait 0 3 })).map (fun t => t.seq) = some (.wait 0 2) ∧
    (after (exec .waitFinish { armed 0x3210 0 [0x80, 0x25, 0, 0, 0, 0, 0x08] with
        seq := .wait 0 2, recs := [⟨.control, 64, 128, 7, true, false, false, 0xA260⟩, Record.powerUp] })).map
      (fun t => (t.eprAt 0, t.lc.toBytes, t.seq, t.out)) =
      some (0x2230, [0x80, 0x25, 0x00, 0x00, 0x00, 0x00, 0x08], .idle, [.onLineCodingChanged [0x80, 0x25, 0x00, 0x00, 0x00, 0x00, 0x08]]) ∧
    (after (exec .waitFinish { armed 0x7A60 0 [0x21, 0x20, 0, 0, 0, 0, 7, 0] with
        seq := .wait 0 0, recs := [⟨.control, 64, 128, 8, false, false, false, 0xEA60⟩, Record.powerUp] })).map
      (fun t => (t.eprAt 0, t.lc.toBytes)) = some (0x6A70, [0x21, 0x20, 0x00, 0x00, 0x00, 0x00, 0x07]) := by decide +kernel

/-- V73, V74, V77, V78. -/
theorem test_bus_setup :
    (after (step { armed 0xFFFF 0x3021 [] with script := [.busReset] })).map (fun t => (t.epr, t.daddr, t.istrReset)) =
      some ([0, 0], 0, true) ∧
    (after (step { armed 0x3220 0x3021 [] with script := [.busSetup 0 ⟨0x80, 6, 0x0100, 0, 8⟩] })).map
      (fun t => (t.eprAt 0, t.bt 0 .countRx, t.pmaBytes 128 8)) = some (0xEA60, 0x8408, [0x80, 6, 0, 1, 0, 0, 8, 0]) ∧
    (after (step { armed 0xEA60 0x3021 [] with script := [.busSetup 0 ⟨0x80, 6, 0x0100, 0, 8⟩] })).map (fun t => t.eprAt 0) =
      some 0xEA60 ∧
    (after (step { armed 0x3220 0x3021 [] with script := [.busSetup 0 ⟨0x80, 6, 0x0100, 0, 8⟩], daddr := 0x85 })).map
      (fun t => t.eprAt 0) = some 0x3220 := by decide +kernel

/-- V80 to V83. -/
theorem test_bus_out :
    (after (step { armed 0x7A30 0x3021 [] with script := [.busOut 0 0 true []] })).map (fun t => (t.eprAt 0, t.bt 0 .countRx)) =
      some (0xA230, 0x8400) ∧
    (after (step { armed 0x7A30 0x3021 [] with script := [.busOut 0 0 false []] })).map (fun t => t.eprAt 0) = some 0x7A30 ∧
    (after (step { armed 0x7A60 0x3021 [] with script := [.busOut 0 0 true [0x80, 0x25, 0, 0, 0, 0, 8]] })).map
      (fun t => (t.eprAt 0, t.bt 0 .countRx, t.pmaBytes 128 7)) = some (0xA260, 0x8407, [0x80, 0x25, 0, 0, 0, 0, 8]) ∧
    (after (step { armed 0x6A70 0x3021 [] with script := [.busOut 0 0 true [1]] })).map (fun t => t.eprAt 0) = some 0x6A70 := by decide +kernel

/-- V84 to V86. -/
theorem test_bus_in :
    (after (step { armed 0x6A70 0x3021 [] with
        script := [.busIn 0 0], pma := cells 0 [64, 0, 2, 0, 128, 0, 8, 0x84] ++ cells 64 [1, 2] })).map
      (fun t => (t.eprAt 0, t.out)) = some (0x6AA0, [.wire 0 true [1, 2]]) ∧
    (after (step { armed 0x3220 0x3021 [] with script := [.busIn 0 0] })).map (fun t => (t.eprAt 0, t.out)) = some (0x3220, []) ∧
    (after (step { armed 0x3210 0x3021 [] with script := [.busIn 0 0] })).map (fun t => (t.eprAt 0, t.out)) =
      some (0x3210, [.wireStall 0]) := by decide +kernel

/-- R277, V81, V85, V86: what the host sees. -/
theorem test_handshakes :
    hostSees (.busOut 0 0 false []) (armed 0x7A30 0 []) = .ack ∧ hostSees (.busIn 0 0) (armed 0x3220 0 []) = .nak ∧
    hostSees (.busIn 0 0) (armed 0x3210 0 []) = .stall ∧ hostSees (.busIn 0 5) (armed 0x3210 0 []) = .timeout ∧
    hostSees (.busSetup 0 ⟨0, 0, 0, 0, 0⟩) (armed 0xEA60 0 []) = .timeout := by decide +kernel

/-- V69: a dispatch is not enabled during a wait without re-entrancy. -/
theorem test_not_reentrant :
    dispatchEnabled { armed 0xA260 0 [] with seq := .wait 0 2, cfg := { cfg with reentrant := false } } = false ∧
    dispatchEnabled { armed 0xA260 0 [] with seq := .wait 0 2 } = true ∧ dispatchEnabled (armed 0x3220 0x3021 []) = false := by decide +kernel

/-! ### Witnesses of the statements' hypotheses -/

/-- A decidable form of `State.Wf`. -/
def wfCheck (s : State) : Bool :=
  decide s.cfg.wf && decide (s.recs.length = s.cfg.numEp) && decide (s.epr.length = s.cfg.numEp) && decide (Memory.wf s.pma) &&
  s.pma.all (fun c => decide (c.1 < s.cfg.pmaSize)) && decide (s.scratch.length = 64) &&
  (List.range s.recs.length).all fun n =>
    decide ((s.recAt n).txOff.toNat % 2 = 0 ∧ (s.recAt n).rxOff.toNat % 2 = 0 ∧ (s.recAt n).txOff.toNat + 64 ≤ s.cfg.pmaSize ∧
      (s.recAt n).rxOff.toNat + 64 ≤ s.cfg.pmaSize) &&
    decide (((s.recAt n).handler = .control → n = 0) ∧ ((s.recAt n).handler = .data → n ≠ 0))

theorem wf_of_check {s : State} (h : wfCheck s = true) : s.Wf := by
  simp only [wfCheck, Bool.and_eq_true, decide_eq_true_eq, List.all_eq_true, List.mem_range] at h
  obtain ⟨⟨⟨⟨⟨⟨h1, h2⟩, h3⟩, h4⟩, h5⟩, h6⟩, h7⟩ := h
  refine ⟨h1, h2, h3, h4, h5, h6, fun n => ?_, fun n => ?_⟩ <;> rcases Nat.lt_or_ge n s.recs.length with hn | hn
  · exact (h7 n hn).1
  · rw [State.recAt_of_le hn]
    have := h1.2.2.2.1
    simp [Record.viewsFit, Record.powerUp, Config.maxPacket, Config.rxCapacity]
    omega
  · exact (h7 n hn).2
  · rw [State.recAt_of_le hn]; simp [Record.powerUp]

/-- A decidable form of `State.Inv`. -/
def invCheck (s : State) : Bool :=
  wfCheck s && s.script.all Move.ofSpec && decide (s.handlerRet = .none) &&
  match s.seq with
  | .idle => true
  | .wait n b => decide (n = 0 ∧ b ≤ s.cfg.waitBudget ∧ (s.recAt 0).handler = .control)

theorem inv_of_check {s : State} (h : invCheck s = true) : s.Inv := by
  simp only [invCheck, Bool.and_eq_true, decide_eq_true_eq, List.all_eq_true] at h
  obtain ⟨⟨⟨h1, h2⟩, h3⟩, h4⟩ := h
  refine ⟨wf_of_check h1, fun n b hs => ?_, h2, h3⟩
  rw [hs] at h4
  simpa using h4

/-- A decidable form of `State.Bound`. -/
theorem bound_of_check {s : State} (h : s.epr.length = s.recs.length)
    (hn : ∀ n, n < s.recs.length → (s.recAt n).handler = .none → s.eprAt n = 0) : s.Bound := by
  intro n hh
  rcases Nat.lt_or_ge n s.recs.length with hl | hl
  · exact hn n hl hh
  · exact State.eprAt_of_le (h ▸ hl)

theorem next_of_after {o : Res State} (h : (after o).isSome = true) : ∃ t, o = .next t := by
  cases o with
  | next t => exact ⟨t, rfl⟩
  | fault x => cases h
  | refused r => cases h

/-- `armed` with these receive count, pending flag and shadow in `REC[0]`, and a wait. -/
def waiting (e0 : Word) (p : List Byte) (count : BitVec 10) (pending : Bool) (budget : Nat) : State :=
  { armed e0 0x3021 p with
    seq := .wait 0 budget
    recs := [⟨.control, 64, 128, count, pending, false, false, 0xA260⟩, ⟨.data, 192, 256, 0, false, false, false, 0⟩] }

/-- `armed` with a record of endpoint 0 that holds the snapshot of its register. -/
def shadowed (e0 : Word) : State :=
  { armed e0 0x3021 [] with
    recs := [⟨.control, 64, 128, 8, false, false, false, e0⟩, ⟨.data, 192, 256, 0, false, false, false, 0⟩] }

/-- `armed` with a configuration descriptor of 65 bytes. -/
def longStore (e0 : Word) (p : List Byte) : State :=
  { armed e0 0x3021 p with cfg := { cfg with desc := { Config.sampleDesc with configuration := List.replicate 65 0 } } }

theorem test_witness_MkStatusReachesWantedStates :
    statRx 0xEAE0 = statRx 0xEA60 ∧ statTx 0xEAE0 = statTx 0xEA60 ∧ dtogRx 0xEAE0 = dtogRx 0xEA60 ∧
    dtogTx 0xEAE0 = dtogTx 0xEA60 := by decide

theorem test_witness_CommitWritesBack :
    0 < (armed 0xEA60 0x3021 []).epr.length ∧ 1 < (armed 0xEA60 0x3021 []).epr.length ∧
    (0x8A10 : Word) = mkStatus ((armed 0xEA60 0x3021 []).eprAt 0) (some .nak) (some .valid) false false := by decide

theorem test_witness_SnapshotRecordsTheCompletion :
    0 < (armed 0xEA60 0x3021 []).recs.length ∧ 1 < (armed 0xEA60 0x3021 []).recs.length := by decide

/-- An id outside the table; offsets 448, the last that fit in 512 bytes. -/
theorem test_witness_ConfigureEndpointSetsKnownState :
    (armed 0x6A70 0 []).Wf ∧ cfg.numEp ≤ 2 ∧ 1 < cfg.numEp ∧ Acceptable cfg 1 .interrupt 448 448 .data ∧
    Acceptable cfg 0 .control 0 448 .control := by
  refine ⟨wf_of_check (by decide +kernel), by decide, by decide, ?_, ?_⟩ <;> unfold Acceptable <;> decide

/-- Each bad argument alone. -/
theorem test_witness_ConfigureEndpointRefusesBadArguments :
    1 < cfg.numEp ∧ (193 : Word).toNat % 2 = 1 ∧ cfg.pmaSize < (450 : Word).toNat + 64 ∧
    acceptable cfg 1 .isochronous 192 256 .data = false ∧ acceptable cfg 1 .bulk 193 256 .data = false ∧
    acceptable cfg 1 .bulk 192 257 .data = false ∧ acceptable cfg 1 .bulk 450 256 .data = false ∧
    acceptable cfg 1 .bulk 192 450 .data = false ∧ acceptable cfg 1 .bulk 192 256 .none = false ∧
    acceptable cfg 0 .control 64 128 .data = false ∧ acceptable cfg 1 .bulk 192 256 .control = false ∧
    acceptable cfg 1 .bulk 192 448 .data = true := by decide

theorem test_witness_WriteQueuesBytes :
    (armed 0x3220 0x3061 []).Wf ∧ 1 < cfg.numEp ∧ ((armed 0x3220 0x3061 []).recAt 1).handler ≠ .none ∧
    (List.replicate 64 (0 : Byte)).length ≤ 64 ∧ 64 < (List.replicate 65 (0 : Byte)).length := by
  refine ⟨wf_of_check (by decide +kernel), by decide, by decide, by decide, by decide⟩

theorem test_witness_WriteCommitArmsTransmit :
    (armed 0x3220 0xB061 []).Wf ∧ 1 < cfg.numEp ∧ ((armed 0x3220 0xB061 []).recAt 1).handler ≠ .none ∧
    (List.replicate 64 (0 : Byte)).length ≤ 64 ∧ 64 < (List.replicate 65 (0 : Byte)).length := by
  refine ⟨wf_of_check (by decide +kernel), by decide, by decide, by decide, by decide⟩

theorem test_witness_ReadReturnsReceivedBytes :
    (waiting 0xA260 [] 64 true 0).Wf ∧ 0 < cfg.numEp ∧ ((waiting 0xA260 [] 64 true 0).recAt 0).handler ≠ .none ∧
    ((waiting 0xA260 [] 64 true 0).recAt 0).rxCount.toNat ≤ 64 ∧
    (waiting 0xA260 [] 65 true 0).Wf ∧ ((waiting 0xA260 [] 65 true 0).recAt 0).handler ≠ .none ∧
    64 < ((waiting 0xA260 [] 65 true 0).recAt 0).rxCount.toNat := by
  refine ⟨wf_of_check (by decide +kernel), by decide, by decide, by decide, wf_of_check (by decide +kernel), by decide, by decide⟩

theorem test_witness_UnconfiguredEndpointIsRefused :
    cfg.numEp ≤ 2 ∧ ((State.powerUp cfg).recAt 1).handler = .none := by decide

theorem test_witness_BlockingReadStartsWait :
    (armed 0xEA60 0x3021 []).Wf ∧ 0 < cfg.numEp ∧ ((armed 0xEA60 0x3021 []).recAt 0).handler ≠ .none ∧
    (armed 0xEA60 0x3021 []).seq = .idle ∧ (waiting 0x7A60 [] 8 false 0).Wf ∧
    ((waiting 0x7A60 [] 8 false 0).recAt 0).handler ≠ .none ∧ (waiting 0x7A60 [] 8 false 0).seq ≠ .idle := by
  refine ⟨wf_of_check (by decide +kernel), by decide, by decide, by decide, wf_of_check (by decide +kernel), by decide, by decide⟩

theorem test_witness_SetLineCodingSuspends :
    classType false = 0x21 ∧ (⟨0x21, 0x20, 0, 0, 7⟩ : Setup).bRequest = 0x20 ∧ (armed 0xEA60 0x3021 []).Wf ∧
    (armed 0xEA60 0x3021 []).seq = .idle ∧ (waiting 0x7A60 [] 8 false 0).Wf ∧ (waiting 0x7A60 [] 8 false 0).seq ≠ .idle := by
  refine ⟨by decide, by decide, wf_of_check (by decide +kernel), by decide, wf_of_check (by decide +kernel), by decide⟩

/-- The last tick; a budget used up; a record that has arrived; a scripted dispatch without re-entrancy. -/
theorem test_witness_WaitTickCountsDown :
    (waiting 0x7A60 [] 8 false 1).seq = .wait 0 1 ∧ ((waiting 0x7A60 [] 8 false 1).recAt 0).rxPending = false ∧ 0 < 1 ∧
    (waiting 0x7A60 [] 8 false 0).seq = .wait 0 0 ∧
    (waiting 0xA260 [] 7 true 1).seq = .wait 0 1 ∧ ((waiting 0xA260 [] 7 true 1).recAt 0).rxPending = true ∧
    (let s := { waiting 0xA260 [] 8 false 1 with cfg := { cfg with reentrant := false }, script := [.dispatch] }
     s.seq = .wait 0 1 ∧ s.cfg.reentrant = false ∧ s.fault = none ∧ s.script = .dispatch :: []) := by decide

/-- A wait that goes on; 64 bytes that have arrived; a budget used up with 65. -/
theorem test_witness_WaitFinishTakesRecord :
    0 < cfg.numEp ∧ (waiting 0x7A60 [] 8 false 1).Wf ∧ (waiting 0x7A60 [] 8 false 1).seq = .wait 0 1 ∧
    ((waiting 0x7A60 [] 8 false 1).recAt 0).rxPending = false ∧ 0 < 1 ∧
    (waiting 0x3210 [] 64 true 2).Wf ∧ (waiting 0x3210 [] 64 true 2).seq = .wait 0 2 ∧
    ((waiting 0x3210 [] 64 true 2).recAt 0).rxPending = true ∧ ((waiting 0x3210 [] 64 true 2).recAt 0).rxCount.toNat ≤ 64 ∧
    (waiting 0x7A60 [] 65 false 0).Wf ∧ (waiting 0x7A60 [] 65 false 0).seq = .wait 0 0 ∧
    64 < ((waiting 0x7A60 [] 65 false 0).recAt 0).rxCount.toNat := by
  refine ⟨by decide, wf_of_check (by decide +kernel), by decide, by decide, by decide, wf_of_check (by decide +kernel), by decide,
    by decide, by decide, wf_of_check (by decide +kernel), by decide, by decide⟩

theorem test_witness_WaitEndsWithinBudget :
    (waiting 0x7A60 [] 8 false 3).seq = .wait 0 3 ∧ ((waiting 0x7A60 [] 8 false 3).recAt 0).rxPending = false ∧
    (waiting 0x7A60 [] 8 false 0).seq = .wait 0 0 := by decide

/-- One packet of each pattern, at the edge of its range. -/
theorem test_witness_RequestsWithoutDataAreAcknowledged :
    cfg.wf ∧ (0x0304 : Word) ∉ descriptorSelectors cfg ∧ (0x08 : Byte) ≠ 0x00 ∧ (0x08 : Byte) ≠ 0x06 ∧ (0x07 : Byte) ≠ 0x05 ∧
    (0x07 : Byte) ≠ 0x09 ∧ (0x03 : Byte) ≠ 0x01 ∧ (0x5F : Byte) &&& 0xE0 = 0x40 ∧ classType true = 0xA1 ∧
    (0x24 : Byte) ∉ [(0x20 : Byte), 0x21, 0x22, 0x23] ∧ (0x22 : Byte) ∉ [(0x80 : Byte), 0x00, 0x02] ∧
    (0x22 : Byte) &&& 0x60 ≠ 0x40 ∧ (0x22 : Byte) &&& 0x7F ≠ 0x21 := by decide

/-- A reply of 64 bytes for a descriptor of 65, and one of 65; the selectors of the seven descriptors are the words 0x0100, 0x0200,
0x0300 to 0x0303 and 0x0600. -/
theorem test_witness_DescriptorRepliesAreClamped :
    (longStore 0xEA60 []).Wf ∧ min (64 : Word).toNat (longStore 0xEA60 []).cfg.desc.configuration.length ≤ 64 ∧
    64 < min (65 : Word).toNat (longStore 0xEA60 []).cfg.desc.configuration.length ∧
    (0x0301 : Word) = 0x0300 + cfg.idxManufacturer.zeroExtend 16 ∧ (0x0302 : Word) = 0x0300 + cfg.idxProduct.zeroExtend 16 ∧
    (0x0303 : Word) = 0x0300 + cfg.idxSerial.zeroExtend 16 := by
  refine ⟨wf_of_check (by decide +kernel), by decide +kernel, by decide +kernel, by decide, by decide, by decide⟩

theorem test_witness_FixedRepliesAreNotClamped :
    (armed 0xEA60 0x3021 []).Wf ∧ (0xDF : Byte) &&& 0xE0 = 0xC0 ∧ classType true = 0xA1 ∧
    (armed 0xEA60 0x3021 []).lc = LineCoding.default :=
  ⟨wf_of_check (by decide +kernel), by decide, by decide, by decide⟩

theorem test_witness_SetAddressAndSetConfiguration :
    (⟨0x00, 0x05, 0xFFFF, 0, 0⟩ : Setup).bmRequestType = 0x00 ∧ (⟨0x00, 0x05, 0xFFFF, 0, 0⟩ : Setup).bRequest = 0x05 ∧
    (⟨0x00, 0x09, 0, 0, 0⟩ : Setup).bRequest = 0x09 := by decide

theorem test_witness_LineStateAndBreakReachTheApplication :
    (⟨0xA1, 0x22, 3, 0, 0⟩ : Setup).bmRequestType = classType true ∧ (⟨0xA1, 0x22, 3, 0, 0⟩ : Setup).bRequest = 0x22 ∧
    (⟨0x21, 0x23, 3, 0, 0⟩ : Setup).bmRequestType = classType false ∧ (⟨0x21, 0x23, 3, 0, 0⟩ : Setup).bRequest = 0x23 := by decide

/-- An address that differs from the register's, and the same one. -/
theorem test_witness_AddressIsCommittedByTheStatusStage :
    daddrAdd (armed 0xEA60 0x3021 []).daddr ≠ (0x0005 : Word).extractLsb' 0 7 ∧
    daddrAdd (armed 0xEA60 0x3021 []).daddr = (0x0080 : Word).extractLsb' 0 7 := by decide

theorem test_witness_LineCodingBytesAreVerbatim : 7 ≤ [(0x80 : Byte), 0x25, 0, 0, 0, 0, 8].length := by decide

theorem test_witness_LineCodingRoundTrip :
    let s := waiting 0x3210 [0x80, 0x25, 0, 0, 0, 0, 8, 0xDD] 7 true 2
    s.Wf ∧ s.seq = .wait 0 2 ∧ (s.recAt 0).rxPending = true ∧ (s.recAt 0).rxCount = 7 ∧
    ∀ i, i < 7 → s.pmaByte ((s.recAt 0).rxOff.toNat + i) = [(0x80 : Byte), 0x25, 0, 0, 0, 0, 8].getD i 0 :=
  ⟨wf_of_check (by decide +kernel), by decide, by decide, by decide, by decide⟩

theorem test_witness_Ep0OutStallsTransmit :
    0 < (shadowed 0xA230).epr.length ∧ ((shadowed 0xA230).recAt 0).status = (shadowed 0xA230).eprAt 0 := by decide

theorem test_witness_Ep0InCommitsTheAddress :
    daddrAdd (shadowed 0x6AA0).daddr = (shadowed 0x6AA0).dev.address ∧
    daddrAdd { shadowed 0x6AA0 with daddr := 0x85 }.daddr ≠ { shadowed 0x6AA0 with daddr := 0x85 }.dev.address ∧
    0 < (shadowed 0x6AA0).epr.length ∧ ((shadowed 0x6AA0).recAt 0).status = (shadowed 0x6AA0).eprAt 0 := by decide

/-- A request that completes, the one that suspends, and one that faults. -/
theorem test_witness_Ep0SetupRunsTheRequest :
    (let s := armed 0xEA60 0x3021 [0x80, 0, 0, 0, 0, 0, 2, 0]
     s.Wf ∧ decodeSetup s.cfg s.packet = .getStatus 0 0 2 ∧
     ∃ t, exec (decodeSetup s.cfg s.packet) { s with handlerRet := .none } = .next t) ∧
    (let s := armed 0xEA60 0x3021 [0x21, 0x20, 0, 0, 0, 0, 7, 0]
     s.Wf ∧ decodeSetup s.cfg s.packet = .setLineCoding false 0 0 7 ∧
     ∃ t, exec (decodeSetup s.cfg s.packet) { s with handlerRet := .none } = .next t) ∧
    (let s := longStore 0xEA60 [0x80, 6, 0, 2, 0, 0, 65, 0]
     s.Wf ∧ decodeSetup s.cfg s.packet = .getDescriptorConfiguration 0 65 ∧
     exec (.getDescriptorConfiguration 0 65) { s with handlerRet := .none } = .fault .writeTooLong) :=
  ⟨⟨wf_of_check (by decide +kernel), by decide +kernel, next_of_after (by decide +kernel)⟩,
   ⟨wf_of_check (by decide +kernel), by decide +kernel, next_of_after (by decide +kernel)⟩,
   ⟨wf_of_check (by decide +kernel), by decide +kernel, rfl⟩⟩

/-- A long descriptor and a request for 64 bytes; a short store and a request for all. -/
theorem test_witness_Ep0SetupCompletes :
    (let s := longStore 0xEA60 [0x80, 6, 0, 2, 0, 0, 64, 0]
     s.Wf ∧ s.seq = .idle ∧ RepliesFit s.cfg s.packet.wLength) ∧
    (let s := armed 0xEA60 0x3021 [0x80, 6, 0, 2, 0, 0, 0xFF, 0xFF]
     s.Wf ∧ s.seq = .idle ∧ RepliesFit s.cfg s.packet.wLength) :=
  ⟨⟨wf_of_check (by decide +kernel), by decide, .inl (by decide +kernel)⟩,
   ⟨wf_of_check (by decide +kernel), by decide, .inr (by decide +kernel)⟩⟩

theorem test_witness_ResetPathReinitialises :
    (armed 0x6270 0 []).Wf ∧ setupBit ((armed 0x6270 0 []).eprAt 0) = false ∧ (armed 0x6A70 0 []).Wf :=
  ⟨wf_of_check (by decide +kernel), by decide, wf_of_check (by decide +kernel)⟩

theorem test_witness_CtrServesOutAndIn :
    (armed 0xA230 0x3021 []).Wf ∧ ((armed 0xA230 0x3021 []).recAt 0).handler = .control ∧ ctrRx 0xA230 = true ∧
    ctrTx 0xA230 = false ∧ setupBit 0xA230 = false ∧
    (armed 0x6AA0 0x3021 []).Wf ∧ ((armed 0x6AA0 0x3021 []).recAt 0).handler = .control ∧ ctrTx 0x6AA0 = true ∧
    ctrRx 0x6AA0 = false :=
  ⟨wf_of_check (by decide +kernel), by decide, by decide, by decide, by decide, wf_of_check (by decide +kernel), by decide,
   by decide, by decide⟩

/-- A request that completes, the one that suspends, and one that faults. -/
theorem test_witness_CtrServesSetup :
    ctrRx 0xEA60 = true ∧ ctrTx 0xEA60 = false ∧ setupBit 0xEA60 = true ∧
    (let s := armed 0xEA60 0x3021 [0x80, 0, 0, 0, 0, 0, 2, 0]
     s.Wf ∧ (s.recAt 0).handler = .control ∧ decodeSetup s.cfg s.packet = .getStatus 0 0 2 ∧
     ∃ u, exec (decodeSetup s.cfg s.packet) (snapshot 0 { s with handlerRet := .none }) = .next u) ∧
    (let s := armed 0xEA60 0x3021 [0x21, 0x20, 0, 0, 0, 0, 7, 0]
     s.Wf ∧ (s.recAt 0).handler = .control ∧ decodeSetup s.cfg s.packet = .setLineCoding false 0 0 7 ∧
     ∃ u, exec (decodeSetup s.cfg s.packet) (snapshot 0 { s with handlerRet := .none }) = .next u) ∧
    (let s := longStore 0xEA60 [0x80, 6, 0, 2, 0, 0, 65, 0]
     s.Wf ∧ (s.recAt 0).handler = .control ∧ decodeSetup s.cfg s.packet = .getDescriptorConfiguration 0 65 ∧
     exec (.getDescriptorConfiguration 0 65) (snapshot 0 { s with handlerRet := .none }) = .fault .writeTooLong) :=
  ⟨by decide, by decide, by decide,
   ⟨wf_of_check (by decide +kernel), by decide, by decide +kernel, next_of_after (by decide +kernel)⟩,
   ⟨wf_of_check (by decide +kernel), by decide, by decide +kernel, next_of_after (by decide +kernel)⟩,
   ⟨wf_of_check (by decide +kernel), by decide, by decide +kernel, rfl⟩⟩

/-- A reception of 64 bytes, and a transmission. -/
theorem test_witness_CtrServesDataEndpoint :
    (let s := { armed 0x3220 0xE021 [] with pma := cells 8 [192, 0, 0, 0, 0, 1, 0x40, 0x84] }
     s.Wf ∧ s.cfg.dataHandler = .passthrough ∧ (s.recAt (1 : BitVec 4).toNat).handler = .data ∧
     ctrRx (s.eprAt (1 : BitVec 4).toNat) = true ∧ ctrTx (s.eprAt (1 : BitVec 4).toNat) = false ∧
     (countField (s.bt (1 : BitVec 4).toNat .countRx)).toNat ≤ 64) ∧
    (let s := armed 0x3220 0x60E1 []
     s.Wf ∧ s.cfg.dataHandler = .passthrough ∧ (s.recAt (1 : BitVec 4).toNat).handler = .data ∧
     ctrRx (s.eprAt (1 : BitVec 4).toNat) = false ∧ ctrTx (s.eprAt (1 : BitVec 4).toNat) = true) :=
  ⟨⟨wf_of_check (by decide +kernel), by decide, by decide, by decide, by decide, by decide +kernel⟩,
   ⟨wf_of_check (by decide +kernel), by decide, by decide, by decide, by decide⟩⟩

theorem test_witness_CtrHandlerStaysInsideItsContract :
    let s := { armed 0x3220 0xE021 [] with
      cfg := { cfg with dataHandler := .unspecified }, pma := cells 8 [192, 0, 0, 0, 0, 1, 0x40, 0x84] }
    s.Wf ∧ s.cfg.dataHandler = .unspecified ∧ (s.recAt (1 : BitVec 4).toNat).handler = .data ∧
    ctrRx (s.eprAt (1 : BitVec 4).toNat) ≠ ctrTx (s.eprAt (1 : BitVec 4).toNat) ∧
    (countField (s.bt (1 : BitVec 4).toNat .countRx)).toNat ≤ 64 :=
  ⟨wf_of_check (by decide +kernel), by decide, by decide, by decide, by decide +kernel⟩

/-- An endpoint outside the table, one without handler, both flags, no flag; the same on a data endpoint. -/
theorem test_witness_CtrFaultsOnBrokenPreconditions :
    (State.powerUp cfg).Wf ∧ cfg.numEp ≤ (2 : BitVec 4).toNat ∧ ((State.powerUp cfg).recAt (1 : BitVec 4).toNat).handler = .none ∧
    (armed 0xEAE0 0x3021 []).Wf ∧ ((armed 0xEAE0 0x3021 []).recAt (0 : BitVec 4).toNat).handler = .control ∧
    ctrRx 0xEAE0 = ctrTx 0xEAE0 ∧ (armed 0x3220 0x3021 []).Wf ∧ ctrRx 0x3220 = ctrTx 0x3220 ∧
    (armed 0x3220 0xE0E1 []).Wf ∧ ((armed 0x3220 0xE0E1 []).recAt (1 : BitVec 4).toNat).handler ≠ .none ∧
    ctrRx 0xE0E1 = ctrTx 0xE0E1 ∧ ctrRx 0x3021 = ctrTx 0x3021 :=
  ⟨wf_of_check (by decide +kernel), by decide, by decide, wf_of_check (by decide +kernel), by decide, by decide,
   wf_of_check (by decide +kernel), by decide, wf_of_check (by decide +kernel), by decide, by decide, by decide⟩

/-- Only endpoint 0 pending, idle; endpoint 1 pending, in a re-entrant wait. -/
theorem test_witness_ResetWinsOverTransfer :
    (let s := { armed 0xEA60 0x3021 [] with istrReset := true, script := [.dispatch] }
     s.Wf ∧ s.fault = none ∧ s.script = .dispatch :: [] ∧ s.istrReset = true ∧ s.seq = .idle ∧
     pendingWord (s.eprAt 1) = false) ∧
    (let s := { waiting 0x7A60 [] 8 false 3 with epr := [0x7A60, 0xE021], istrReset := true, script := [.dispatch] }
     s.Wf ∧ s.fault = none ∧ s.script = .dispatch :: [] ∧ s.istrReset = true ∧ s.cfg.reentrant = true ∧ 0 < 1 ∧
     pendingWord (s.eprAt 1) = true) :=
  ⟨⟨wf_of_check (by decide +kernel), by decide, by decide, by decide, by decide, by decide⟩,
   ⟨wf_of_check (by decide +kernel), by decide, by decide, by decide, by decide, by decide, by decide⟩⟩

theorem test_witness_InterruptStatusReportsCauses :
    (State.powerUp Config.suggested).epr.length ≤ 8 ∧ (armed 0x3220 0xE021 []).epr.length ≤ 8 ∧
    (armed 0x3220 0xE021 []).istr.getLsbD 15 = true := by decide

/-- A scripted reset, a scripted transfer in a re-entrant wait, and a transfer the engine serves by itself. -/
theorem test_witness_StepRunsTheDecodedInterrupt :
    (let s := { armed 0xEA60 0x3021 [] with istrReset := true, script := [.dispatch, .waitTick] }
     s.fault = none ∧ s.seq = .idle ∧ s.script = .dispatch :: [.waitTick] ∧
     decodedInstr (decode .istr s.cfg [lowByte s.istr, highByte s.istr]) = some .irqReset) ∧
    (let s := { waiting 0xA260 [] 8 false 3 with script := [.dispatch] }
     s.fault = none ∧ s.cfg.reentrant = true ∧ s.script = .dispatch :: [] ∧
     decodedInstr (decode .istr s.cfg [lowByte s.istr, highByte s.istr]) = some (.irqCtr 0)) ∧
    (let s := armed 0x3220 0xE021 []
     s.fault = none ∧ s.seq = .idle ∧ s.script = [] ∧
     decodedInstr (decode .istr s.cfg [lowByte s.istr, highByte s.istr]) = some (.irqCtr 1)) := by decide +kernel

/-- Each move, enabled and not. -/
theorem test_witness_StepRunsWaitsAndApplicationMoves :
    (let s := { waiting 0x7A60 [] 8 false 1 with script := [.waitTick] }
     s.fault = none ∧ s.script = .waitTick :: [] ∧ s.seq = .wait 0 1 ∧ (s.recAt 0).rxPending = false ∧ 0 < 1) ∧
    (let s := { waiting 0x7A60 [] 8 false 0 with script := [.waitFinish] }
     s.fault = none ∧ s.script = .waitFinish :: [] ∧ s.seq = .wait 0 0) ∧
    (let s := { armed 0x3220 0 [] with script := [.appConfigure 1 .bulk 192 448] }
     s.fault = none ∧ s.script = .appConfigure 1 .bulk 192 448 :: [] ∧ s.seq = .idle) ∧
    (let s := { armed 0x3220 0x3021 [] with script := [.appWrite 1 [0x68], .appRead 0] }
     s.fault = none ∧ s.script = .appWrite 1 [0x68] :: [.appRead 0] ∧ s.seq = .idle ∧ 1 < s.cfg.numEp ∧
     (s.recAt 1).handler = .data) ∧
    (let s := { armed 0x3220 0x3021 [] with script := [.appRead 0] }
     s.fault = none ∧ s.script = .appRead 0 :: [] ∧ s.seq = .idle ∧ 0 < s.cfg.numEp ∧ (s.recAt 0).handler ≠ .none) ∧
    waitFinishEnabled (waiting 0x7A60 [] 8 false 1) = false ∧ waitTickEnabled (waiting 0x7A60 [] 8 false 0) = false ∧
    appConfigureEnabled 0 (armed 0x3220 0x3021 []) = false ∧ appWriteEnabled 0 (armed 0x3220 0x3021 []) = false ∧
    appWriteEnabled 2 (armed 0x3220 0x3021 []) = false ∧ appReadEnabled 2 (armed 0x3220 0x3021 []) = false ∧
    appReadEnabled 0 (waiting 0x7A60 [] 8 false 1) = false := by decide

theorem test_witness_StepRunsThePlacedOperation :
    let s := { armed 0x3220 0x3021 [] with script := [.bench [3, 1, 0]] }
    s.fault = none ∧ s.script = .bench [3, 1, 0] :: [] ∧ decode .bop s.cfg [3, 1, 0] = .ok (.read 1, [0]) :=
  ⟨rfl, rfl, rfl⟩

/-- A recorded fault; a move and the engine's own step that raise one. -/
theorem test_witness_FaultEndsTheRun :
    (let s := { armed 0xEAE0 0x3021 [] with fault := some .flagInvariant }
     s.fault = some .flagInvariant) ∧
    (let s := { armed 0xEAE0 0x3021 [] with script := [.dispatch] }
     s.fault = none ∧ s.script = .dispatch :: [] ∧ runMove .dispatch { s with script := [] } = .fault .flagInvariant) ∧
    (let s := armed 0xEAE0 0x3021 []
     s.fault = none ∧ s.script = [] ∧ engineStep s = .fault .flagInvariant) := by
  refine ⟨rfl, ⟨rfl, rfl, rfl⟩, ⟨rfl, rfl, rfl⟩⟩

theorem test_witness_EveryStepAnswers :
    (armed 0x3220 0x3021 []).Inv ∧ (armed 0x3220 0x3021 []).fault = none := ⟨inv_of_check (by decide +kernel), by decide⟩

theorem test_witness_PowerUpIsIdle : Config.suggested.wf ∧ cfg.wf := by decide

theorem test_witness_BusResetClearsTheRegisters :
    { armed 0x3220 0x3021 [] with script := [.busReset] }.fault = none ∧
    { armed 0x3220 0x3021 [] with script := [.busReset] }.script = .busReset :: [] := by decide

/-- Another address, a reset not yet served, an endpoint outside the table. -/
theorem test_witness_UnacceptedTokensAreIgnored :
    (let s := { armed 0x3220 0x3021 [] with daddr := 0x85, script := [.busIn 0 0] }
     s.fault = none ∧ ¬ Accepts 0 0 s ∧ s.script = .busIn 0 0 :: []) ∧
    (let s := { armed 0x3220 0x3021 [] with istrReset := true, script := [.busSetup 0 ⟨0, 0, 0, 0, 0⟩] }
     s.fault = none ∧ ¬ Accepts 0 0 s ∧ s.script = .busSetup 0 ⟨0, 0, 0, 0, 0⟩ :: []) ∧
    (let s := { armed 0x3220 0x3021 [] with script := [.busOut 2 0 false []] }
     s.fault = none ∧ ¬ Accepts 2 0 s ∧ s.script = .busOut 2 0 false [] :: []) := by
  unfold Accepts; decide

/-- The last receive buffer of eight bytes, at 504; the packet accepted and not. -/
theorem test_witness_BusSetupRecordsThePacket :
    let s := { armed 0x3220 0x3021 [] with pma := cells 0 [64, 0, 0, 0, 0xF8, 1, 0x00, 0x84], script := [.busSetup 0 ⟨0, 0, 0, 0, 0⟩] }
    s.Wf ∧ s.fault = none ∧ s.script = .busSetup 0 ⟨0, 0, 0, 0, 0⟩ :: [] ∧ Accepts 0 0 s ∧ (s.bt 0 .addrRx).toNat % 2 = 0 ∧
    (s.bt 0 .addrRx).toNat + 8 ≤ s.cfg.pmaSize ∧ epType (s.eprAt 0) = EpType.control.code ∧
    statRx (s.eprAt 0) ≠ statCode .disabled ∧ ctrRx (s.eprAt 0) = false ∧
    Accepts 0 0 { s with epr := [0xEA60, 0x3021] } ∧ ctrRx 0xEA60 = true :=
  ⟨wf_of_check (by decide +kernel), by decide, by decide, by unfold Accepts; decide, by decide +kernel, by decide +kernel, by decide,
   by decide, by decide, by unfold Accepts; decide, by decide⟩

/-- 64 bytes into the last receive buffer, at 448; a wrong toggle and a receiver that is not VALID. -/
theorem test_witness_BusOutRecordsThePacket :
    let d := List.replicate 64 (0 : Byte)
    let s := { armed 0x3220 0x3021 [] with pma := cells 8 [192, 0, 0, 0, 0xC0, 1, 0x00, 0x84], script := [.busOut 1 0 false d] }
    s.Wf ∧ s.fault = none ∧ s.script = .busOut 1 0 false d :: [] ∧ Accepts 1 0 s ∧
    epType (s.eprAt 1) ≠ EpType.isochronous.code ∧ d.length ≤ 64 ∧ (s.bt 1 .addrRx).toNat % 2 = 0 ∧
    (s.bt 1 .addrRx).toNat + 64 ≤ s.cfg.pmaSize ∧ statRx (s.eprAt 1) = statCode .valid ∧ false = dtogRx (s.eprAt 1) ∧
    true ≠ dtogRx (s.eprAt 1) ∧ Accepts 1 0 { s with epr := [0x3220, 0x2021] } ∧ statRx 0x2021 ≠ statCode .valid :=
  ⟨wf_of_check (by decide +kernel), by decide, by decide, by unfold Accepts; decide, by decide, by decide, by decide +kernel,
   by decide +kernel, by decide, by decide, by decide, by unfold Accepts; decide, by decide⟩

/-- 64 bytes from the last transmit buffer, at 448; a stalled endpoint, one in NAK, a disabled one. -/
theorem test_witness_BusInTransmitsTheReply :
    let s := { armed 0x3220 0x3031 [] with pma := cells 8 [0xC0, 1, 64, 0, 0, 1, 0x00, 0x84], script := [.busIn 1 0] }
    s.Wf ∧ s.fault = none ∧ s.script = .busIn 1 0 :: [] ∧ Accepts 1 0 s ∧ epType (s.eprAt 1) ≠ EpType.isochronous.code ∧
    (s.bt 1 .addrTx).toNat + (countField (s.bt 1 .countTx)).toNat ≤ s.cfg.pmaSize ∧ statTx (s.eprAt 1) = statCode .valid ∧
    Accepts 1 0 { s with epr := [0, 0x3011] } ∧ statTx 0x3011 = statCode .stall ∧
    Accepts 1 0 { s with epr := [0, 0x3021] } ∧ statTx 0x3021 = statCode .nak ∧
    Accepts 1 0 { s with epr := [0, 0x3001] } ∧ statTx 0x3001 = statCode .disabled :=
  ⟨wf_of_check (by decide +kernel), by decide, by decide, by unfold Accepts; decide, by decide, by decide +kernel, by decide,
   by unfold Accepts; decide, by decide, by unfold Accepts; decide, by decide, by unfold Accepts; decide, by decide⟩

/-- A reset, and a token that changes a register with a pending completion. -/
theorem test_witness_BusSideLeavesEngineState :
    (∃ t, Move.busReset.ofBus = true ∧ runMove .busReset (armed 0x3220 0x3021 []) = .next t) ∧
    ∃ t, Move.ofBus (.busIn 0 0) = true ∧ Move.busIn 0 0 ≠ .busReset ∧ runMove (.busIn 0 0) (armed 0xEA70 0x3021 []) = .next t ∧
      ctrRx ((armed 0xEA70 0x3021 []).eprAt 0) = true :=
  ⟨⟨_, rfl, rfl⟩, ⟨_, rfl, by decide, rfl, by decide⟩⟩

theorem test_witness_PowerUpMeetsInvariants : Config.suggested.wf ∧ cfg.wf := by decide

theorem test_witness_StepKeepsInv :
    (armed 0xEA60 0x3021 [0x21, 0x20, 0, 0, 0, 0, 7, 0]).Inv ∧
    ∃ t, step (armed 0xEA60 0x3021 [0x21, 0x20, 0, 0, 0, 0, 7, 0]) = .next t :=
  ⟨inv_of_check (by decide +kernel), next_of_after (by decide +kernel)⟩

theorem test_witness_StepKeepsEndpointRegisters :
    let s := { armed 0xEA60 0x3021 [] with script := [.busReset] }
    s.Inv ∧ s.EprInv ∧ ∃ t, step s = .next t :=
  ⟨inv_of_check (by decide +kernel), by unfold State.EprInv eprFieldsOk; decide, next_of_after (by decide +kernel)⟩

theorem test_witness_NoStepLacksAHandler :
    (armed 0x3220 0xE021 []).Inv ∧ (armed 0x3220 0xE021 []).Bound ∧ (armed 0x3220 0xE021 []).fault = none ∧
    ∃ t, step (armed 0x3220 0xE021 []) = .next t :=
  ⟨inv_of_check (by decide +kernel), bound_of_check (by decide) (by decide), by decide, next_of_after (by decide +kernel)⟩

theorem test_witness_EngineStaysInsidePacketMemory : (armed 0xEA60 0x3021 []).Wf := wf_of_check (by decide +kernel)

/-- The reset path, SET_ADDRESS and the address commit. -/
theorem test_witness_DeviceStateTransitions :
    (let s := { armed 0x0000 0x3021 [] with istrReset := true, script := [.dispatch], dev := ⟨5, .configured⟩, daddr := 0 }
     s.Inv ∧ ∃ t, step s = .next t) ∧
    (let s := { armed 0xEA60 0x3021 [0x00, 5, 5, 0, 0, 0, 0, 0] with script := [.dispatch] }
     s.Inv ∧ ∃ t, step s = .next t) ∧
    (let s := { armed 0x6AA0 0x3021 [] with script := [.dispatch], dev := ⟨5, .default⟩ }
     s.Inv ∧ ∃ t, step s = .next t) :=
  ⟨⟨inv_of_check (by decide +kernel), next_of_after (by decide +kernel)⟩,
   ⟨inv_of_check (by decide +kernel), next_of_after (by decide +kernel)⟩,
   ⟨inv_of_check (by decide +kernel), next_of_after (by decide +kernel)⟩⟩

theorem test_witness_LineCodingChangesOnlyAtWaitFinish :
    let s := { waiting 0x3210 [0x80, 0x25, 0, 0, 0, 0, 8] 7 true 2 with script := [.waitFinish] }
    ∃ t, step s = .next t ∧ t.lc ≠ s.lc :=
  ⟨_, rfl, by decide +kernel⟩

theorem test_witness_OutIsAppendOnly : ∃ t, step { armed 0x3220 0x3011 [] with script := [.busIn 1 0] } = .next t :=
  next_of_after (by decide +kernel)

theorem test_witness_EngineNeverSetsCompletionFlags :
    ∃ t, exec (.writeCommit 1 [0x68, 0x69]) (armed 0x3220 0xB0E1 []) = .next t ∧ ctrRx (t.eprAt 1) = true ∧
      ctrTx (t.eprAt 1) = true :=
  ⟨_, rfl, by decide +kernel, by decide +kernel⟩

/-- The largest operand bytes, and a catch-all row beside the codes it excludes. -/
theorem test_witness_DecodeOfEncode :
    cfg.wf ∧ wellFormed cfg (.write 255 (List.replicate 255 0)) = true ∧ wellFormed cfg (.irqCtr 1) = true ∧
    wellFormed cfg (.configureEndpoint 255 .interrupt 0xFFFF 0xFFFF .none) = true ∧
    wellFormed cfg (.getDescriptorUnknown 0x0304 0 0) = true ∧ wellFormed cfg (.classUnknown true 0x24 0 0 0) = true ∧
    wellFormed cfg (.unknown 0x81 6 0x2200 0 0x40) = true := by decide +kernel

theorem test_witness_EncodeOfDecodedPacket : cfg.wf := by decide

theorem test_witness_SetupDecodeTakesFirstRow : cfg.wf := by decide

end Sys2Proof.Tests
end

/-! PROOFS. The state (spec/10_state.md): write classes, the Line Coding, the interrupt status, what every step keeps, power-up. -/

namespace Sys2Proof.Machine

/-! ### Endpoint registers -/

/-- Settles O1: each field by its own law of `regWrite`. -/
theorem regWriteFollowsWriteClasses : Obligations.RegWriteFollowsWriteClasses := fun cur w =>
  ⟨regWrite_epType cur w, regWrite_epKind cur w, regWrite_epAddr cur w, regWrite_statRx cur w, regWrite_statTx cur w,
    regWrite_dtogRx cur w, regWrite_dtogTx cur w, regWrite_ctrRx cur w, regWrite_ctrTx cur w, regWrite_setupBit cur w⟩

/-! ### The bytes of the Line Coding -/

/-- A 32-bit number is the little-endian sum of its four bytes. -/
theorem littleEndian_sum (x : BitVec 32) :
    (x.extractLsb' 0 8).toNat + 256 * (x.extractLsb' 8 8).toNat + 65536 * (x.extractLsb' 16 8).toNat +
      16777216 * (x.extractLsb' 24 8).toNat = x.toNat := by
  simp only [BitVec.extractLsb'_toNat, Nat.shiftRight_eq_div_pow, Nat.reducePow]
  have := x.isLt
  omega

/-- The default record's bytes, spec/10_state.md R43. -/
theorem LineCoding.default_toBytes : LineCoding.default.toBytes = [0x00, 0xC2, 0x01, 0x00, 0x00, 0x00, 0x08] := by decide

/-- Settles O22: the two round trips of the record and its bytes, and the rate as the sum of its bytes. -/
theorem lineCodingBytesAreVerbatim : Obligations.LineCodingBytesAreVerbatim :=
  ⟨fun l => ⟨rfl, LineCoding.ofBytes_toBytes l, littleEndian_sum l.rate, rfl, rfl, rfl⟩,
    LineCoding.toBytes_ofBytes, LineCoding.default_toBytes⟩

/-! ### The interrupt status register -/

theorem pendingWord_iff {e : Word} : pendingWord e = true ↔ ctrRx e = true ∨ ctrTx e = true := by simp [pendingWord]

theorem istr_getLsbD_ctr (s : State) : s.istr.getLsbD 15 = s.istrCtr := by
  rw [getLsbD_istr]; simp

theorem istr_getLsbD_reset (s : State) : s.istr.getLsbD 10 = s.istrReset := by
  rw [getLsbD_istr]; simp

theorem istr_extract_epId (s : State) : s.istr.extractLsb' 0 4 = s.epIdField := by
  apply BitVec.eq_of_getLsbD_eq
  intro i hi
  rw [BitVec.getLsbD_extractLsb', Nat.zero_add, getLsbD_istr]
  simp [hi, show i ≠ 15 by omega, show i ≠ 10 by omega]

/-- The mask of the bits that read 0, R33: none of bits 15, 10 and 3:0. -/
theorem getLsbD_7bf0 (i : Nat) : (0x7BF0 : Word).getLsbD i = decide (4 ≤ i ∧ i < 15 ∧ i ≠ 10) := by
  by_cases h : i < 16
  · interval_cases i <;> decide
  · rw [BitVec.getLsbD_of_ge _ _ (by omega)]; simp; omega

theorem istr_unused_bits (s : State) : s.istr &&& 0x7BF0 = 0 := by
  apply BitVec.eq_of_getLsbD_eq
  intro i _
  rw [BitVec.getLsbD_and, getLsbD_istr, getLsbD_7bf0]
  by_cases h : 4 ≤ i ∧ i < 15 ∧ i ≠ 10
  · simp [show i ≠ 15 by omega, show i ≠ 10 by omega, show ¬ i < 4 by omega]
  · simp [h]

/-- Settles O35: the register bit by bit, and the pending endpoint `EP_ID` names. -/
theorem interruptStatusReportsCauses : Obligations.InterruptStatusReportsCauses := by
  intro s hl
  simp only [← pendingWord_iff]
  rw [istr_getLsbD_ctr]
  exact ⟨istrCtr_iff, istr_getLsbD_reset s, istr_extract_epId s, istr_unused_bits s, epIdField_pending (by omega)⟩

/-! ### What every step keeps -/

theorem configureEndpoint_lc {s t : State} {id : Nat} {ty : EpType} {tx rx : Word} {hd : Handler}
    (ht : configureEndpoint id ty tx rx hd s = .next t) : t.lc = s.lc := by
  rcases configureEndpoint_eq_next.mp ht with ⟨-, rfl⟩ | ⟨-, -, rfl⟩
  · rfl
  · exact configure_lc id ty tx rx hd s

theorem writeCommit_lc {s t : State} {n : Nat} {b : List Byte} (ht : writeCommit n b s = .next t) : t.lc = s.lc := by
  obtain ⟨-, rfl⟩ := writeCommit_eq_next.mp ht
  exact written_lc n b s

theorem execWaitTick_lc {s t : State} (ht : execWaitTick s = .next t) : t.lc = s.lc := by
  obtain ⟨n, b, -, -, -, rfl⟩ := execWaitTick_eq_next.mp ht
  rfl

/-- Every operation of the engine keeps the Line Coding, or it is the end of a wait. -/
theorem exec_lc {s t : State} {i : Instr} (ht : exec i s = .next t) : t.lc = s.lc ∨ execWaitFinish s = .next t := by
  cases exec_form i s with
  | request hf => exact .inl (exec_request_lc hf ht)
  | setup e => exact .inl (setupPath_lc (e ▸ ht))
  | out e => rw [e] at ht; cases ht; exact .inl rfl
  | inToken e => exact .inl (inPath_lc (e ▸ ht))
  | irqReset e => exact .inl (irqReset_lc (e ▸ ht))
  | irqCtr _ e => exact .inl (irqCtr_lc (e ▸ ht))
  | configure id ty tx rx hd e => exact .inl (configureEndpoint_lc (e ▸ ht))
  | write n b _ e =>
    obtain ⟨-, rfl⟩ := epWrite_eq_next.mp (e ▸ ht)
    exact .inl (written_lc n b s)
  | writeCommit n b _ e => exact .inl (writeCommit_lc (e ▸ ht))
  | read n _ e =>
    obtain ⟨d, -, h⟩ := andThen_eq_next.mp (e ▸ ht)
    cases h
    exact .inl rfl
  | blockingRead n _ e =>
    obtain ⟨-, rfl⟩ := blockingReadStart_eq_next.mp (e ▸ ht)
    exact .inl rfl
  | unconfigured e => rw [e] at ht; cases ht
  | waitTick e => exact .inl (execWaitTick_lc (e ▸ ht))
  | waitFinish e => exact .inr (e ▸ ht)

/-- A move of the bus side extends the run and keeps the Line Coding, R271 to R275. -/
theorem bus_extends_lc {s t : State} {m : Move} (hm : m.ofBus = true) (ht : runMove m s = .next t) :
    Extends s t ∧ t.lc = s.lc := by
  have recv (n a : Nat) (b : List Byte) (e : Word) :
      Extends s ((stored n a b s).setEpr n e) ∧ ((stored n a b s).setEpr n e).lc = s.lc :=
    ⟨.of_eq (by simp) (by simp) (by simp) (by simp), by simp⟩
  have same : Extends s s ∧ s.lc = s.lc := ⟨.of_eq rfl rfl rfl rfl, rfl⟩
  cases m with
  | busReset => cases ht; exact ⟨.of_eq rfl rfl rfl rfl, rfl⟩
  | busSetup addr p =>
    simp only [runMove, busSetup_eq] at ht
    split_ifs at ht <;> cases ht
    · exact recv _ _ _ _
    · exact same
  | busOut n addr pid d =>
    simp only [runMove, busOut_eq] at ht
    split_ifs at ht <;> cases ht
    · exact recv _ _ _ _
    · exact same
  | busIn n addr =>
    simp only [runMove, busIn_eq] at ht
    split_ifs at ht <;> cases ht
    · exact ⟨⟨rfl, rfl, rfl, _, rfl⟩, rfl⟩
    · exact ⟨⟨rfl, rfl, rfl, _, rfl⟩, rfl⟩
    · exact same
    · exact same
  | dispatch => cases hm
  | waitTick => cases hm
  | waitFinish => cases hm
  | appConfigure id ty tx rx => cases hm
  | appWrite id d => cases hm
  | appRead id => cases hm
  | bench code => cases hm

/-- What runs in a step extends the run. -/
theorem StepBody.extends {s u t : State} (h : StepBody s u t) : Extends u t := by
  have drawn (v : State) : Extends v v.bumpDraws := .of_eq rfl rfl rfl rfl
  cases h with
  | idle h => subst h; exact .of_eq rfl rfl rfl rfl
  | bus m hm _ h => exact (bus_extends_lc hm h).1
  | reset _ h _ => exact extends_irqReset h
  | resetCtr v _ h2 _ h => exact (extends_irqReset h2).trans ((drawn v).trans (extends_irqCtr h))
  | ctr _ _ h => exact (drawn u).trans (extends_irqCtr h)
  | waitTick h => exact extends_exec (i := .waitTick) h
  | waitFinish h => exact extends_exec (i := .waitFinish) h
  | appConfigure id ty tx rx _ _ h => exact extends_exec (i := .configureEndpoint id ty tx rx .data) h
  | appWrite id b _ _ _ _ h =>
    obtain ⟨-, rfl⟩ := writeCommit_eq_next.mp h
    exact (extends_written id b u).trans (.of_eq rfl rfl rfl rfl)
  | appRead id _ d _ h => subst h; exact .of_eq rfl rfl rfl rfl
  | bench code more i _ _ h => exact extends_exec h

/-- What runs in a step keeps the Line Coding, or it is the end of a wait. -/
theorem StepBody.lc {s u t : State} (h : StepBody s u t) : t.lc = u.lc ∨ execWaitFinish u = .next t := by
  cases h with
  | idle h => exact .inl (h ▸ rfl)
  | bus m hm _ h => exact .inl (bus_extends_lc hm h).2
  | reset _ h _ => exact .inl (irqReset_lc h)
  | resetCtr v _ h2 _ h => exact .inl ((irqCtr_lc h).trans ((State.bumpDraws_lc v).trans (irqReset_lc h2)))
  | ctr _ _ h => exact .inl ((irqCtr_lc h).trans (State.bumpDraws_lc u))
  | waitTick h => exact .inl (execWaitTick_lc h)
  | waitFinish h => exact .inr h
  | appConfigure id ty tx rx _ _ h => exact .inl (configureEndpoint_lc h)
  | appWrite id b _ _ _ _ h => exact .inl (writeCommit_lc h)
  | appRead id _ d _ h => subst h; exact .inl rfl
  | bench code more i _ _ h => exact exec_lc h

@[simp] theorem waitFinished_seq (n : Nat) (s : State) : (waitFinished n s).seq = .idle :=
  written_seq 0 [] (recordTaken n s)

theorem waitFinished_out (n : Nat) (s : State) :
    (waitFinished n s).out = s.out ++ [.onLineCodingChanged (waitFinished n s).lc.toBytes] := by
  have hout : (waitFinished n s).out = (recordTaken n s).out := written_out 0 [] _
  have hlc : (waitFinished n s).lc = (recordTaken n s).lc := written_lc 0 [] _
  rw [hout, hlc]
  rfl

/-- The end of a wait leaves `seq` idle and emits the new record, R152 and R245. -/
theorem execWaitFinish_event {s t : State} (ht : execWaitFinish s = .next t) :
    ∃ n b, s.seq = .wait n b ∧ t.seq = .idle ∧ t.out = s.out ++ [.onLineCodingChanged t.lc.toBytes] := by
  obtain ⟨n, b, hseq, -, h⟩ := execWaitFinish_eq_next.mp ht
  obtain ⟨-, -, rfl⟩ := waitFinish_eq_next.mp h
  exact ⟨n, b, hseq, waitFinished_seq n s, waitFinished_out n s⟩

/-- Settles O55: a fault is recorded without an event, and what runs in a step extends the run. -/
theorem outIsAppendOnly : Obligations.OutIsAppendOnly := by
  intro s t h
  obtain ⟨-, ⟨x, rfl, -⟩ | ⟨u, ⟨⟨script, draws, rfl⟩, -⟩, hb⟩⟩ := step_cases h
  · exact ⟨rfl, [], (List.append_nil _).symm⟩
  · exact ⟨hb.extends.cfg, hb.extends.out⟩

/-- Settles O54: of what can run in a step only the end of a wait changes the Line Coding. -/
theorem lineCodingChangesOnlyAtWaitFinish : Obligations.LineCodingChangesOnlyAtWaitFinish := by
  intro s t h hne
  obtain ⟨-, ⟨x, rfl, -⟩ | ⟨u, ⟨⟨script, draws, rfl⟩, -⟩, hb⟩⟩ := step_cases h
  · exact absurd rfl hne
  · exact execWaitFinish_event (s := { s with script := script, draws := draws }) (hb.lc.resolve_left hne)

/-! ### Power-up -/

/-- No endpoint has a completion after power-up. -/
theorem powerUp_istrCtr (c : Params) : (State.powerUp c).istrCtr = false := by
  rw [← Bool.not_eq_true, istrCtr_iff]
  rintro ⟨n, -, hp⟩
  rw [powerUp_eprAt] at hp
  exact absurd hp (by decide)

/-- The engine has no cause and no wait after power-up. -/
theorem powerUp_step (c : Params) : step (State.powerUp c) = .next (State.powerUp c) := by
  have hd : dispatchEnabled (State.powerUp c) = false := by
    rw [← Bool.not_eq_true, dispatchEnabled_iff, powerUp_istrCtr]
    rintro ⟨-, h | h, -⟩ <;> cases h
  rw [step_of_empty rfl rfl, engineStep, if_neg (by simp [hd])]
  rfl

/-- Power-up clears `DADDR.EF`, so no token is accepted, R272. -/
theorem powerUp_tokenAccepted (c : Params) (n : Nat) (addr : BitVec 7) : tokenAccepted n addr (State.powerUp c) = false := by
  rw [← Bool.not_eq_true, tokenAccepted_iff]
  rintro ⟨-, hef, -⟩
  exact absurd hef (by simp [State.powerUp, daddrEf])

theorem powerUp_runMove_token (c : Params) {n : Nat} {addr : BitVec 7} {p : Setup} {pid : Bool} {d : List Byte} {m : Move}
    (hm : m ∈ [Move.busSetup addr p, .busOut n addr pid d, .busIn n addr]) :
    runMove m (State.powerUp c) = .next (State.powerUp c) := by
  simp only [List.mem_cons, List.not_mem_nil, or_false] at hm
  rcases hm with rfl | rfl | rfl
  · simp [runMove, busSetup, setupAccepted, powerUp_tokenAccepted]
  · simp [runMove, busOut, outStores, transferAccepted, powerUp_tokenAccepted]
  · simp [runMove, busIn, transferAccepted, powerUp_tokenAccepted]

/-- Settles O41: the fields are R57's, the engine has nothing to do, and `DADDR.EF` is clear. -/
theorem powerUpIsIdle : Obligations.PowerUpIsIdle := by
  intro c _
  refine ⟨powerUp_step c, powerUp_recAt c, powerUp_eprAt c, rfl, LineCoding.default_toBytes, rfl, rfl, rfl, rfl, rfl, rfl, ?_⟩
  intro n addr p pid d m hm
  rw [step_of_move (m := m) (rest := []) rfl rfl]
  exact congrArg (settle _) (powerUp_runMove_token c hm)

theorem wf_powerUp {c : Params} (h : c.wf) : (State.powerUp c).Wf where
  cfgOk := h
  recsLength := List.length_replicate
  eprLength := List.length_replicate
  pmaOk := List.Pairwise.nil
  pmaInside := by rintro _ ⟨⟩
  scratchLength := List.length_replicate
  views n := by
    obtain ⟨-, -, -, hsize, -⟩ := h
    rw [powerUp_recAt]
    have hfit : 0 + 64 ≤ c.pmaSize := by omega
    exact ⟨rfl, rfl, hfit, hfit⟩
  binding n := by rw [powerUp_recAt]; exact ⟨nofun, nofun⟩

theorem inv_powerUp {c : Params} (h : c.wf) : (State.powerUp c).Inv where
  wf := wf_powerUp h
  waitOk := nofun
  scriptOk := nofun
  handlerRetOk := rfl

/-- A cleared register is one the engine and the bus side can leave. -/
theorem eprFieldsOk_zero (n : Nat) : eprFieldsOk n 0 := ⟨by decide, by decide, .inr (by decide)⟩

/-- Settles O48: the tables hold empty records and cleared registers, and nothing is open. -/
theorem powerUpMeetsInvariants : Obligations.PowerUpMeetsInvariants := by
  refine ⟨fun c h => ⟨inv_powerUp h, fun n _ => ?_, fun n _ => powerUp_eprAt c n⟩, by decide, rfl⟩
  rw [powerUp_eprAt]
  exact eprFieldsOk_zero n

end Sys2Proof.Machine

/-! PROOFS. Packet memory (spec/20_memory.md): no operation reaches outside it, and every step keeps the invariant. -/

namespace Sys2Proof.Machine

/-! ### No access outside packet memory -/

/-- The end of a wait faults only as its read of the record does, R152. -/
theorem execWaitFinish_fault {s : State} {x : Fault} (h : execWaitFinish s = .fault x) : ∃ n, epRead n s = .fault x := by
  unfold execWaitFinish at h
  split at h
  · cases h
  · next n _ _ =>
    split_ifs at h
    exact ⟨n, waitFinish_eq_fault.mp h⟩

theorem configureEndpoint_ne_pmaBadAccess (id : Nat) (ty : EpType) (tx rx : Word) (hd : Handler) (s : State) :
    configureEndpoint id ty tx rx hd s ≠ .fault .pmaBadAccess := by
  rw [Ne, configureEndpoint_eq_fault]
  rintro ⟨-, -, h⟩
  cases h

/-- A further part that never faults adds no fault. -/
theorem andThen_next_ne_fault {α β : Type} {o : Res α} {f : α → β} {x : Fault} (h : o ≠ .fault x) :
    (andThen o fun a => .next (f a)) ≠ .fault x := by
  rw [Ne, andThen_eq_fault]
  rintro (h1 | ⟨a, -, h1⟩)
  · exact h h1
  · cases h1

/-- Settles O52: the words a copy or a read forms lie in a view, which the shape keeps inside packet memory. -/
theorem engineStaysInsidePacketMemory : Obligations.EngineStaysInsidePacketMemory := by
  intro i s hs
  cases exec_form i s with
  | request hf => exact exec_request_ne_pmaBadAccess hs hf
  | setup e => exact e ▸ setupPath_ne_pmaBadAccess hs 0
  | out e => rw [e, outPath]; nofun
  | inToken e => rw [e, inPath]; nofun
  | irqReset e => exact e ▸ andThen_next_ne_fault (configureEndpoint_ne_pmaBadAccess _ _ _ _ _ s)
  | irqCtr ep e => exact e ▸ execIrqCtr_ne_pmaBadAccess hs ep
  | configure id ty tx rx hd e => exact e ▸ configureEndpoint_ne_pmaBadAccess id ty tx rx hd s
  | write n b _ e => exact e ▸ epWrite_ne_pmaBadAccess hs n b
  | writeCommit n b _ e => exact e ▸ andThen_next_ne_fault (epWrite_ne_pmaBadAccess hs n b)
  | read n _ e => exact e ▸ andThen_next_ne_fault (epRead_ne_pmaBadAccess hs n)
  | blockingRead n _ e =>
    rw [e, Ne, blockingReadStart_eq_fault]
    rintro ⟨-, h⟩
    cases h
  | unconfigured e => rw [e]; nofun
  | waitTick e => exact e ▸ execWaitTick_ne_fault s _
  | waitFinish e =>
    rw [e]
    intro h
    obtain ⟨n, hr⟩ := execWaitFinish_fault h
    exact epRead_ne_pmaBadAccess hs n hr

/-! ### What the operations leave of `seq`, of the returned value and of endpoint 0's binding -/

/-- `configure_endpoint` writes tables and packet memory only, R144. -/
theorem configureEndpoint_fields {s t : State} {id : Nat} {ty : EpType} {tx rx : Word} {hd : Handler}
    (ht : configureEndpoint id ty tx rx hd s = .next t) : t = { s with recs := t.recs, epr := t.epr, pma := t.pma } := by
  rcases configureEndpoint_eq_next.mp ht with ⟨-, rfl⟩ | ⟨-, -, rfl⟩
  · rfl
  · rw [State.configure_eq]

/-- The bus side writes control registers, packet memory, `DADDR`, `ISTR.RESET`, draws and events only, R276. -/
theorem bus_fields {s t : State} {m : Move} (hm : m.ofBus = true) (ht : runMove m s = .next t) :
    t = { s with epr := t.epr, istrReset := t.istrReset, daddr := t.daddr, pma := t.pma, out := t.out, draws := t.draws } := by
  cases m with
  | busReset => cases ht; rfl
  | busSetup addr p =>
    simp only [runMove, busSetup_eq] at ht
    split_ifs at ht <;> cases ht
    · rw [stored_eq]; rfl
    · rfl
  | busOut n addr pid d =>
    simp only [runMove, busOut_eq] at ht
    split_ifs at ht <;> cases ht
    · rw [stored_eq]; rfl
    · rfl
  | busIn n addr =>
    simp only [runMove, busIn_eq] at ht
    split_ifs at ht <;> cases ht <;> rfl
  | dispatch => cases hm
  | waitTick => cases hm
  | waitFinish => cases hm
  | appConfigure id ty tx rx => cases hm
  | appWrite id d => cases hm
  | appRead id => cases hm
  | bench code => cases hm

/-- The reset path leaves the control engine bound to endpoint 0, R172. -/
theorem execIrqReset_binds {s t : State} (hs : s.Wf) (ht : execIrqReset s = .next t) : (t.recAt 0).handler = .control := by
  have h0 : 1 ≤ s.cfg.numEp := hs.cfgOk.1
  rcases execIrqReset_eq_next ht with ⟨h, -⟩ | ⟨-, -, rfl⟩
  · omega
  · have hlen : 0 < s.recs.length := by rw [hs.recsLength]; omega
    rw [State.configure_eq]
    simp [State.recAt, hlen]

/-- A dispatch keeps `seq`, unless the control engine serves it and starts a wait for endpoint 0, R150 and R244. -/
theorem irqCtr_seq {s t : State} (hs : s.Wf) {e : BitVec 4} (ht : execIrqCtr e s = .next t) :
    t.seq = s.seq ∨ t.seq = .idle ∨ (t.seq = .wait 0 s.cfg.waitBudget ∧ (s.recAt 0).handler = .control) := by
  obtain ⟨-, hstays, -⟩ := sameViews_irqCtr hs ht
  obtain ⟨-, ⟨v, -, hv, rfl⟩ | ⟨-, hc, -⟩⟩ := irqCtr_cases hs ht
  · obtain ⟨es, rx, tx, rrx, rtx, a, b, e'⟩ := dataHandler_fields hv
    exact .inl (by rw [finishCtr_fields, e']; rfl)
  · exact hstays.imp_right (Or.imp_right fun h => ⟨h, hc⟩)

/-! ### The invariant, kept by each thing a step can run -/

/-- The invariant after a part of a step: the part keeps the shape, extends the run, leaves no handler call open, and a wait it
leaves is within R51. -/
theorem State.Inv.extend {s t : State} (h : s.Inv) (hwf : t.Wf) (hext : Extends s t) (hret : t.handlerRet = .none)
    (hwait : ∀ n b, t.seq = .wait n b → n = 0 ∧ b ≤ s.cfg.waitBudget ∧ (t.recAt 0).handler = .control) : t.Inv where
  wf := hwf
  waitOk := by rw [hext.cfg]; exact hwait
  scriptOk := by rw [hext.script]; exact h.scriptOk
  handlerRetOk := hret

/-- A part that leaves `seq`, the returned value and endpoint 0's binding as they were. -/
theorem State.Inv.keep {s t : State} (h : s.Inv) (hwf : t.Wf) (hext : Extends s t) (hret : t.handlerRet = s.handlerRet)
    (hseq : t.seq = s.seq) (hbind : (t.recAt 0).handler = (s.recAt 0).handler) : t.Inv :=
  h.extend hwf hext (hret.trans h.handlerRetOk) (by rw [hseq, hbind]; exact h.waitOk)

/-- A part that leaves no wait open. -/
theorem State.Inv.idle {s t : State} (h : s.Inv) (hwf : t.Wf) (hext : Extends s t) (hret : t.handlerRet = s.handlerRet)
    (hseq : t.seq = .idle) : t.Inv :=
  h.extend hwf hext (hret.trans h.handlerRetOk) (by rw [hseq]; nofun)

theorem State.Inv.bumpDraws {s : State} (h : s.Inv) : s.bumpDraws.Inv :=
  h.keep (h.wf.of_eq rfl rfl rfl rfl rfl) (.of_eq rfl rfl rfl rfl) rfl rfl rfl

theorem State.Inv.bus {s t : State} (h : s.Inv) {m : Move} (hm : m.ofBus = true) (ht : runMove m s = .next t) : t.Inv := by
  have e := bus_fields hm ht
  exact h.keep (h.wf.bus hm ht) (bus_extends_lc hm ht).1 (by rw [e]) (by rw [e]) (by rw [e]; rfl)

/-- The reset path keeps `seq`, and binds endpoint 0 as an open wait needs. -/
theorem State.Inv.irqReset {s t : State} (h : s.Inv) (ht : execIrqReset s = .next t) : t.Inv := by
  have e := execIrqReset_fields ht
  have hseq : t.seq = s.seq := by rw [e]
  have hret : t.handlerRet = s.handlerRet := by rw [e]
  refine h.extend (h.wf.irqReset ht) (extends_irqReset ht) (hret.trans h.handlerRetOk) fun n b hw => ?_
  obtain ⟨hn, hb, -⟩ := h.waitOk n b (hseq ▸ hw)
  exact ⟨hn, hb, execIrqReset_binds h.wf ht⟩

/-- A dispatch keeps an open wait, or leaves none, or opens one for endpoint 0 with the whole budget. -/
theorem State.Inv.irqCtr {s t : State} (h : s.Inv) {e : BitVec 4} (ht : execIrqCtr e s = .next t) : t.Inv := by
  obtain ⟨hviews, -, hret⟩ := sameViews_irqCtr h.wf ht
  obtain ⟨-, -, hbind⟩ := hviews 0
  refine h.extend (h.wf.irqCtr ht) (extends_irqCtr ht) hret ?_
  rw [hbind]
  rcases irqCtr_seq h.wf ht with hseq | hseq | ⟨hseq, hc⟩
  · rw [hseq]; exact h.waitOk
  · rw [hseq]; nofun
  · rw [hseq]
    rintro _ _ ⟨⟩
    exact ⟨rfl, le_refl _, hc⟩

theorem State.Inv.waitTick {s t : State} (h : s.Inv) (ht : execWaitTick s = .next t) : t.Inv := by
  obtain ⟨n, b, hseq, -, -, rfl⟩ := execWaitTick_eq_next.mp ht
  obtain ⟨hn, hb, hc⟩ := h.waitOk n b hseq
  refine h.extend (h.wf.waitTick ht) (.of_eq rfl rfl rfl rfl) h.handlerRetOk ?_
  rintro _ _ ⟨⟩
  exact ⟨hn, (Nat.sub_le b 1).trans hb, hc⟩

theorem State.Inv.waitFinish {s t : State} (h : s.Inv) (ht : execWaitFinish s = .next t) : t.Inv := by
  have hwf := h.wf.waitFinish ht
  obtain ⟨n, b, -, -, hfin⟩ := execWaitFinish_eq_next.mp ht
  obtain ⟨-, -, rfl⟩ := waitFinish_eq_next.mp hfin
  exact h.idle hwf (extends_waitFinished n s) (written_handlerRet 0 [] _) (waitFinished_seq n s)

/-- The application configures only with no wait open, R280. -/
theorem State.Inv.configureEndpoint {s t : State} (h : s.Inv) (hidle : s.seq = .idle) {id : Nat} {ty : EpType} {tx rx : Word}
    {hd : Handler} (ht : configureEndpoint id ty tx rx hd s = .next t) : t.Inv := by
  have e := configureEndpoint_fields ht
  exact h.idle (h.wf.configureEndpoint ht) (extends_exec (i := .configureEndpoint id ty tx rx hd) ht) (by rw [e])
    (by rw [e]; exact hidle)

theorem State.Inv.writeCommit {s t : State} (h : s.Inv) {n : Nat} (hn : n < s.cfg.numEp) {b : List Byte}
    (ht : writeCommit n b s = .next t) : t.Inv := by
  have hwf := h.wf.writeCommit hn ht
  obtain ⟨-, rfl⟩ := writeCommit_eq_next.mp ht
  exact h.keep hwf ((extends_written n b s).trans (.of_eq rfl rfl rfl rfl)) (by simp) (by simp) (by simp)

/-- Taking a move off the script, or a draw, keeps the invariant. -/
theorem State.Inv.unscripted {s u : State} (h : s.Inv) (hu : Unscripted s u) : u.Inv := by
  have hwf := unscripted_wf h.wf hu
  obtain ⟨⟨script, draws, rfl⟩, hscript⟩ := hu
  exact ⟨hwf, h.waitOk, fun m hm => h.scriptOk m (hscript m hm), h.handlerRetOk⟩

/-- Whatever runs in a step keeps the invariant. -/
theorem State.Inv.stepBody {s u t : State} (h : s.Inv) (hu : Unscripted s u) (hb : StepBody s u t) : t.Inv := by
  have hinv := h.unscripted hu
  obtain ⟨⟨script, draws, rfl⟩, -⟩ := hu
  cases hb with
  | idle e => exact e ▸ hinv
  | bus m hm _ hr => exact hinv.bus hm hr
  | reset _ hr _ => exact hinv.irqReset hr
  | resetCtr v _ hv _ hr => exact (hinv.irqReset hv).bumpDraws.irqCtr hr
  | ctr _ _ hr => exact hinv.bumpDraws.irqCtr hr
  | waitTick hr => exact hinv.waitTick hr
  | waitFinish hr => exact hinv.waitFinish hr
  | appConfigure id ty tx rx hidle _ hr => exact hinv.configureEndpoint hidle hr
  | appWrite id b _ _ hid _ hr => exact hinv.writeCommit hid hr
  | appRead id _ d _ e =>
    subst e
    exact hinv.keep (hinv.wf.of_eq rfl rfl rfl rfl rfl) (.of_eq rfl rfl rfl rfl) rfl rfl rfl
  | bench code more i hhead _ _ => exact absurd (h.scriptOk _ (List.mem_of_mem_head? hhead)) (by simp [Move.ofSpec])

/-- Settles O49: a fault changes `fault` only, and whatever else runs in a step keeps the invariant. -/
theorem stepKeepsInv : Obligations.StepKeepsInv := by
  intro s t h ht
  obtain ⟨-, ⟨x, rfl, -⟩ | ⟨u, hu, hb⟩⟩ := step_cases ht
  · exact ⟨h.wf.of_eq rfl rfl rfl rfl rfl, h.waitOk, h.scriptOk, h.handlerRetOk⟩
  · exact h.stepBody hu hb

end Sys2Proof.Machine

/-! PROOFS. Encodings (spec/30_encoding.md): the endpoint registers no step leaves (R113), decode and encode (R100 to R110). -/

namespace Sys2Proof.Machine

/-! ### Type, kind and address of an endpoint register -/

/-- What R113 and R276 say of a register depends on its type, kind and address only. -/
theorem SameFields.eprFieldsOk {n : Nat} {e f : Word} (h : SameFields e f) (hf : eprFieldsOk n f) : eprFieldsOk n e := by
  obtain ⟨htype, hkind, haddr⟩ := h
  rw [Machine.eprFieldsOk, htype, hkind, haddr]
  exact hf

/-- A part of a step that keeps every register's type, kind and address keeps the registers' invariant. -/
theorem State.EprInv.keep {s t : State} (h : s.EprInv) (hcfg : t.cfg = s.cfg) (hk : EprKeep s t) : t.EprInv := by
  intro n hn
  rw [hcfg] at hn
  rcases hk n with e | e
  · exact e ▸ h n hn
  · exact e.eprFieldsOk (h n hn)

theorem State.EprInv.of_epr {s t : State} (h : s.EprInv) (hcfg : t.cfg = s.cfg) (he : t.epr = s.epr) : t.EprInv :=
  h.keep hcfg (eprKeep_of_epr he)

theorem State.EprInv.bumpDraws {s : State} (h : s.EprInv) : s.bumpDraws.EprInv := h.of_epr rfl rfl

/-! ### The bus side -/

theorem sameFields_afterSetup (e : Word) : SameFields (afterSetup e) e :=
  ⟨afterSetup_epType e, afterSetup_epKind e, afterSetup_epAddr e⟩

theorem sameFields_afterOut (e : Word) : SameFields (afterOut e) e := ⟨afterOut_epType e, afterOut_epKind e, afterOut_epAddr e⟩

theorem sameFields_afterIn (e : Word) : SameFields (afterIn e) e := ⟨afterIn_epType e, afterIn_epKind e, afterIn_epAddr e⟩

theorem eprKeep_setEpr {s : State} {n : Nat} {e : Word} (h : SameFields e (s.eprAt n)) : EprKeep s (s.setEpr n e) := by
  intro m
  rw [State.eprAt_setEpr]
  split_ifs with hm
  · obtain ⟨rfl, -⟩ := hm
    exact .inr h
  · exact .inl rfl

/-- The storing of a packet, then a change of the register that keeps its type, kind and address. -/
theorem eprKeep_stored {s : State} {n a : Nat} {b : List Byte} {e : Word} (h : SameFields e (s.eprAt n)) :
    EprKeep s ((stored n a b s).setEpr n e) :=
  (eprKeep_of_epr (stored_epr n a b s)).trans (eprKeep_setEpr (by rwa [stored_eprAt]))

/-- The transactions of the bus side keep each register's type, kind and address, R273 to R275; its reset clears them, R271. -/
theorem State.EprInv.bus {s t : State} (h : s.EprInv) {m : Move} (hm : m.ofBus = true) (ht : runMove m s = .next t) :
    t.EprInv := by
  have hcfg : t.cfg = s.cfg := (bus_extends_lc hm ht).1.cfg
  have same : EprKeep s s := eprKeep_of_epr rfl
  cases m with
  | busReset =>
    cases ht
    intro n _
    have hz : (busReset s).eprAt n = 0 := State.eprAt_clearEprs s n
    exact hz ▸ eprFieldsOk_zero n
  | busSetup addr p =>
    refine h.keep hcfg ?_
    simp only [runMove, busSetup_eq] at ht
    split_ifs at ht <;> cases ht
    · exact eprKeep_stored (sameFields_afterSetup _)
    · exact same
  | busOut n addr pid d =>
    refine h.keep hcfg ?_
    simp only [runMove, busOut_eq] at ht
    split_ifs at ht <;> cases ht
    · exact eprKeep_stored (sameFields_afterOut _)
    · exact same
  | busIn n addr =>
    refine h.keep hcfg ?_
    simp only [runMove, busIn_eq] at ht
    split_ifs at ht <;> cases ht
    · exact eprKeep_setEpr (sameFields_afterIn _)
    · exact eprKeep_of_epr rfl
    · exact same
    · exact same
  | _ => cases hm

/-! ### The engine and the application -/

theorem State.eprAt_configure (s : State) (id m : Nat) (ty : EpType) (tx rx : Word) (hd : Handler) :
    (s.configure id ty tx rx hd).eprAt m =
      if id = m ∧ id < s.epr.length then regWrite (s.eprAt id) (configureWord id ty (s.eprAt id)) else s.eprAt m := by
  rw [State.configure_eq]
  exact State.eprAt_setEpr s id m _

/-- `configure_endpoint` writes an accepted type, kind 0 and the endpoint's own address, R144 and R145. -/
theorem State.EprInv.configureEndpoint {s t : State} (h : s.EprInv) (hwf : s.Wf) {id : Nat} {ty : EpType} {tx rx : Word}
    {hd : Handler} (ht : configureEndpoint id ty tx rx hd s = .next t) : t.EprInv := by
  rcases configureEndpoint_eq_next.mp ht with ⟨-, rfl⟩ | ⟨hid, hacc, rfl⟩
  · exact h
  · intro n hn
    rw [(extends_configure id ty tx rx hd s).cfg] at hn
    rw [State.eprAt_configure]
    split_ifs with hm
    · obtain ⟨rfl, -⟩ := hm
      obtain ⟨-, hep, -⟩ := hwf.cfgOk
      exact eprFieldsOk_configure _ id (by omega) ty (acceptable_iff.mp hacc).1
    · exact h n hn

theorem State.EprInv.irqReset {s t : State} (h : s.EprInv) (hwf : s.Wf) (ht : execIrqReset s = .next t) : t.EprInv := by
  obtain ⟨u, hu, ht⟩ := andThen_eq_next.mp ht
  cases ht
  exact (h.configureEndpoint hwf hu).of_epr rfl rfl

theorem State.EprInv.irqCtr {s t : State} (h : s.EprInv) (hwf : s.Wf) {e : BitVec 4} (ht : execIrqCtr e s = .next t) :
    t.EprInv :=
  h.keep (extends_irqCtr ht).cfg (eprKeep_irqCtr hwf ht)

theorem State.EprInv.writeCommit {s t : State} (h : s.EprInv) {n : Nat} {b : List Byte} (ht : writeCommit n b s = .next t) :
    t.EprInv := by
  obtain ⟨-, rfl⟩ := writeCommit_eq_next.mp ht
  have hw : (written n b s).EprInv := h.of_epr (written_cfg n b s) (written_epr n b s)
  refine hw.keep rfl (eprKeep_regWriteEpr ?_)
  rw [written_eprAt]
  exact sameFields_writeCommit _ _

/-- The end of a wait commits a word computed from the register itself, R152. -/
theorem State.EprInv.waitFinish {s t : State} (h : s.EprInv) (hinv : s.Inv) (ht : execWaitFinish s = .next t) : t.EprInv := by
  obtain ⟨n, b, hseq, -, hfin⟩ := execWaitFinish_eq_next.mp ht
  obtain ⟨-, -, rfl⟩ := waitFinish_eq_next.mp hfin
  obtain ⟨rfl, -, -⟩ := hinv.waitOk n b hseq
  have hrec : 0 < s.recs.length := hinv.wf.recsLength ▸ hinv.wf.cfgOk.1
  have hw : (written 0 [] (recordTaken 0 s)).EprInv := h.of_epr (written_cfg 0 [] _) (written_epr 0 [] _)
  refine hw.keep rfl (eprKeep_regWriteEpr ?_)
  rw [recordTaken_recAt hrec, written_eprAt]
  exact sameFields_commit _ _ _ _ _ _ _ _

/-! ### The step -/

/-- Whatever runs in a step keeps the registers' invariant. -/
theorem State.EprInv.stepBody {s u t : State} (h : s.EprInv) (hs : s.Inv) (hu : Unscripted s u) (hb : StepBody s u t) :
    t.EprInv := by
  have hinv := hs.unscripted hu
  obtain ⟨⟨script, draws, rfl⟩, -⟩ := hu
  have hepr := h.of_epr (t := { s with script := script, draws := draws }) rfl rfl
  cases hb with
  | idle e => exact e ▸ hepr
  | bus m hm _ hr => exact hepr.bus hm hr
  | reset _ hr _ => exact hepr.irqReset hinv.wf hr
  | resetCtr v _ hv _ hr => exact (hepr.irqReset hinv.wf hv).bumpDraws.irqCtr (hinv.irqReset hv).bumpDraws.wf hr
  | ctr _ _ hr => exact hepr.bumpDraws.irqCtr hinv.bumpDraws.wf hr
  | waitTick hr =>
    obtain ⟨n, b, -, -, -, rfl⟩ := execWaitTick_eq_next.mp hr
    exact hepr.of_epr rfl rfl
  | waitFinish hr => exact hepr.waitFinish hinv hr
  | appConfigure id ty tx rx _ _ hr => exact hepr.configureEndpoint hinv.wf hr
  | appWrite id b _ _ _ _ hr => exact hepr.writeCommit hr
  | appRead id _ d _ e =>
    subst e
    exact hepr.of_epr rfl rfl
  | bench code more i hhead _ _ => exact absurd (hs.scriptOk _ (List.mem_of_mem_head? hhead)) (by simp [Move.ofSpec])

/-- Settles O50: a fault changes `fault` only, and whatever else runs in a step keeps the registers' invariant. -/
theorem stepKeepsEndpointRegisters : Obligations.StepKeepsEndpointRegisters := by
  intro s t hs h ht
  obtain ⟨-, ⟨x, rfl, -⟩ | ⟨u, hu, hb⟩⟩ := step_cases ht
  · exact h.of_epr rfl rfl
  · exact h.stepBody hs hu hb

/-! ### Decode and encode -/

theorem epType_ofCode_code (t : EpType) : EpType.ofCode (t.code.zeroExtend 8) = some t := by cases t <;> decide

theorem handler_ofCode_code (h : Handler) : Handler.ofCode h.code = some h := by cases h <;> decide

/-- A number below 256 comes back from its byte. -/
theorem byte_toNat {n : Nat} (h : n < 256) : (BitVec.ofNat 8 n : Byte).toNat = n := Nat.mod_eq_of_lt h

theorem decode_setup_toBytes (c : Params) (p : Setup) (rest : List Byte) :
    decode .setup c (p.toBytes ++ rest) = .ok (decodeSetup c p, rest) := by
  have h : decode .setup c (p.toBytes ++ rest) = .ok (decodeSetup c (Setup.ofBytes p.toBytes), rest) := rfl
  rw [h, Setup.ofBytes_toBytes]

theorem decode_istr_of_decodeIstr (c : Params) {lo hi : Byte} {i : Instr} (rest : List Byte)
    (h : decodeIstr (wordOf lo hi) = some i) : decode .istr c (lo :: hi :: rest) = .ok (i, rest) := by
  simp only [decode, h]

theorem decodeIstr_irqCtr (e : BitVec 4) : decodeIstr (wordOf (e.zeroExtend 8) 0x80) = some (.irqCtr e) := by
  revert e
  decide

theorem decodeBytes_encoded (mk : Nat → List Byte → Instr) {n : Nat} {bytes : List Byte} (rest : List Byte) (hn : n < 256)
    (hl : bytes.length < 256) :
    decodeBytes mk (BitVec.ofNat 8 n :: BitVec.ofNat 8 bytes.length :: (bytes ++ rest)) = .ok (mk n bytes, rest) := by
  have hlen : ¬ (bytes ++ rest).length < bytes.length := by simp
  simp only [decodeBytes, byte_toNat hn, byte_toNat hl]
  rw [if_neg hlen, List.take_left, List.drop_left]

theorem decodeConfigure_encoded {id : Nat} (hid : id < 256) (ty : EpType) (tx rx : Word) (h : Handler) (rest : List Byte) :
    decodeConfigure (BitVec.ofNat 8 id :: ty.code.zeroExtend 8 :: lowByte tx :: highByte tx :: lowByte rx :: highByte rx ::
      h.code :: rest) = .ok (.configureEndpoint id ty tx rx h, rest) := by
  simp only [decodeConfigure, epType_ofCode_code, handler_ofCode_code, byte_toNat hid, wordOf_bytes]

theorem decodeId_encoded (mk : Nat → Instr) {n : Nat} (hn : n < 256) (rest : List Byte) :
    decodeId mk (BitVec.ofNat 8 n :: rest) = .ok (mk n, rest) := by
  simp only [decodeId, byte_toNat hn]

/-- An operation that is no SETUP packet is read back from its bytes, R107, R108 and R110. -/
theorem decode_encodeOther {c : Params} {i : Instr} (rest : List Byte) (h : encodeSetup c i = none)
    (hw : wellFormed c i = true) : decode i.format c (encodeOther i ++ rest) = .ok (i, rest) := by
  cases i with
  | ep0Setup => rfl
  | ep0Out => rfl
  | ep0In => rfl
  | irqReset => rfl
  | irqCtr e => exact decode_istr_of_decodeIstr c rest (decodeIstr_irqCtr e)
  | configureEndpoint id ty tx rx hd => exact decodeConfigure_encoded (of_decide_eq_true hw) ty tx rx hd rest
  | write n b =>
    obtain ⟨hn, hl⟩ := Bool.and_eq_true_iff.mp hw
    exact decodeBytes_encoded .write rest (of_decide_eq_true hn) (of_decide_eq_true hl)
  | writeCommit n b =>
    obtain ⟨hn, hl⟩ := Bool.and_eq_true_iff.mp hw
    exact decodeBytes_encoded .writeCommit rest (of_decide_eq_true hn) (of_decide_eq_true hl)
  | read n => exact decodeId_encoded .read (of_decide_eq_true hw) rest
  | blockingRead n => exact decodeId_encoded .blockingRead (of_decide_eq_true hw) rest
  | waitTick => rfl
  | waitFinish => rfl
  | _ => cases h

/-- Settles O57: a request is what its packet decodes to, any other operation is read back from its own bytes. -/
theorem decodeOfEncode : Obligations.DecodeOfEncode := by
  intro c i rest hc hw
  cases h : encodeSetup c i with
  | none =>
    have he : encode c i = encodeOther i := by simp only [encode, h]
    rw [he]
    exact decode_encodeOther rest h hw
  | some p =>
    have he : encode c i = p.toBytes := by simp only [encode, h]
    have hd : decodeSetup c p = i := decodeSetup_of_encodeSetup hc hw h
    have hf : i.format = .setup := hd ▸ decodeSetup_format c p
    rw [he, hf, decode_setup_toBytes, hd]

/-! ### Every packet -/

theorem wellFormed_decodeDescriptor (c : Params) (p : Setup) : wellFormed c (decodeDescriptor c p) = true := by
  unfold decodeDescriptor
  split_ifs with h1 h2 h3 h4 h5 h6 h7
  case neg =>
    simp only [wellFormed, descriptorSelectors, Bool.not_eq_true', List.contains_eq_mem, decide_eq_false_iff_not,
      List.mem_cons, List.not_mem_nil, or_false, not_or]
    exact ⟨h1, h2, h3, h4, h5, h6, h7⟩
  all_goals rfl

theorem wellFormed_decodeClass (c : Params) (p : Setup) : wellFormed c (decodeClass p) = true := by
  unfold decodeClass
  split_ifs with h21 h20 h22 h23
  case neg =>
    simp only [wellFormed, Bool.and_eq_true, bne_iff_ne]
    exact ⟨⟨⟨h20, h21⟩, h22⟩, h23⟩
  all_goals rfl

/-- The vendor rows take both directions of type 2, R104. -/
theorem vendorType_cases : ∀ b : Byte, b &&& 0x60 = 0x40 → b &&& 0xE0 = 0xC0 ∨ b &&& 0xE0 = 0x40 := by decide

theorem wellFormed_decodeSetup (c : Params) (p : Setup) : wellFormed c (decodeSetup c p) = true := by
  unfold decodeSetup
  split_ifs with h80 hdesc hstatus h00 haddr hconf h02 hclear hread hwrite hclass
  · exact wellFormed_decodeDescriptor c p
  · rfl
  · simp only [wellFormed, Bool.and_eq_true, bne_iff_ne]
    exact ⟨hstatus, hdesc⟩
  · rfl
  · rfl
  · simp only [wellFormed, Bool.and_eq_true, bne_iff_ne]
    exact ⟨haddr, hconf⟩
  · rfl
  · simp only [wellFormed, bne_iff_ne]
    exact hclear
  · rfl
  · rfl
  · exact wellFormed_decodeClass c p
  · have hvendor : ¬ p.bmRequestType &&& 0x60 = 0x40 := fun h => (vendorType_cases _ h).elim hread hwrite
    simp only [wellFormed, knownRequestType, Bool.not_eq_true', Bool.or_eq_false_iff, beq_eq_false_iff_ne]
    exact ⟨⟨⟨⟨h80, h00⟩, h02⟩, hvendor⟩, hclass⟩

/-- Settles O58: each packet is the encoding of its operation, whose catch-all conditions are the branches not taken. -/
theorem encodeOfDecodedPacket : Obligations.EncodeOfDecodedPacket := fun c p _ =>
  ⟨encodeSetup_decodeSetup c p, wellFormed_decodeSetup c p, p.ofBytes_toBytes⟩

/-! ### The first matching row -/

/-- A row of R109 by the packet's fields: mask and match of `wValue`, of `bRequest`, of `bmRequestType`, and the row's number. -/
def rowOf (mv vv : Word) (mr vr mb vb : Byte) (n : Nat) : BitVec 64 × BitVec 64 × Nat :=
  (0#16 ++ 0#16 ++ mv ++ mr ++ mb, 0#16 ++ 0#16 ++ vv ++ vr ++ vb, n)

/-- The table's masks and matches by field: rows 1 to 8 fix `wValue` or leave it open, rows 16 to 22 mask the type. -/
theorem setupRows_eq (c : Params) : setupRows c =
    [rowOf 0xFFFF 0x0100 0xFF 0x06 0xFF 0x80 1, rowOf 0xFFFF 0x0200 0xFF 0x06 0xFF 0x80 2,
     rowOf 0xFFFF 0x0300 0xFF 0x06 0xFF 0x80 3, rowOf 0xFFFF (stringSelector c.idxManufacturer) 0xFF 0x06 0xFF 0x80 4,
     rowOf 0xFFFF (stringSelector c.idxProduct) 0xFF 0x06 0xFF 0x80 5,
     rowOf 0xFFFF (stringSelector c.idxSerial) 0xFF 0x06 0xFF 0x80 6, rowOf 0xFFFF 0x0600 0xFF 0x06 0xFF 0x80 7,
     rowOf 0 0 0xFF 0x06 0xFF 0x80 8, rowOf 0 0 0xFF 0x00 0xFF 0x80 9, rowOf 0 0 0 0 0xFF 0x80 10,
     rowOf 0 0 0xFF 0x05 0xFF 0x00 11, rowOf 0 0 0xFF 0x09 0xFF 0x00 12, rowOf 0 0 0 0 0xFF 0x00 13,
     rowOf 0 0 0xFF 0x01 0xFF 0x02 14, rowOf 0 0 0 0 0xFF 0x02 15, rowOf 0 0 0 0 0xE0 0xC0 16, rowOf 0 0 0 0 0xE0 0x40 17,
     rowOf 0 0 0xFF 0x21 0x7F 0x21 18, rowOf 0 0 0xFF 0x20 0x7F 0x21 19, rowOf 0 0 0xFF 0x22 0x7F 0x21 20,
     rowOf 0 0 0xFF 0x23 0x7F 0x21 21, rowOf 0 0 0 0 0x7F 0x21 22, rowOf 0 0 0 0 0 0 23] := by
  simp only [setupRows, rowOf, selector_match]
  rfl

/-- The number of the first of `rows` that fits a packet. -/
def firstFit (rows : List (BitVec 64 × BitVec 64 × Nat)) (p : Setup) : Option Nat :=
  (rows.find? fun r => p.word &&& r.1 == r.2.1).map fun r => r.2.2

theorem firstSetupRow_word (c : Params) (p : Setup) : firstSetupRow c p.word = firstFit (setupRows c) p := rfl

theorem firstFit_cons (rows : List (BitVec 64 × BitVec 64 × Nat)) (p : Setup) (mv vv : Word) (mr vr mb vb : Byte) (n : Nat) :
    firstFit (rowOf mv vv mr vr mb vb n :: rows) p =
      if p.bmRequestType &&& mb = vb ∧ p.bRequest &&& mr = vr ∧ p.wValue &&& mv = vv then some n else firstFit rows p := by
  have hfit : (p.word &&& (rowOf mv vv mr vr mb vb n).1 == (rowOf mv vv mr vr mb vb n).2.1) =
      (p.wValue &&& mv == vv && p.bRequest &&& mr == vr && p.bmRequestType &&& mb == vb) :=
    packet_row_match p mv vv mr vr mb vb rfl rfl
  rw [firstFit, List.find?_cons, hfit]
  split_ifs with h
  · obtain ⟨hb, hr, hv⟩ := h
    simp [hb, hr, hv, rowOf]
  · have hno : (p.wValue &&& mv == vv && p.bRequest &&& mr == vr && p.bmRequestType &&& mb == vb) = false := by
      simpa using fun hv hr hb => h ⟨hb, hr, hv⟩
    rw [hno]
    rfl

theorem byte_and_full (b : Byte) : b &&& 0xFF = b := BitVec.and_allOnes

theorem byte_and_zero (b : Byte) : b &&& 0 = 0 := BitVec.and_zero

theorem word_and_full (w : Word) : w &&& 0xFFFF = w := BitVec.and_allOnes

theorem word_and_zero (w : Word) : w &&& 0 = 0 := BitVec.and_zero

/-- Two rows tried in turn whose first condition is the same. -/
theorem ite_and_else_ite {α : Type} (a b : Prop) [Decidable a] [Decidable b] (x y z : α) :
    (if a ∧ b then x else if a then y else z) = if a then (if b then x else y) else z := by
  by_cases ha : a <;> simp [ha]

/-- Settles O59: the rows in their order, those with the same type or request taken together, are the decoder's branches. -/
theorem setupDecodeTakesFirstRow : Obligations.SetupDecodeTakesFirstRow := by
  intro c p _
  rw [firstSetupRow_word, setupRows_eq]
  simp only [firstFit_cons, byte_and_full, byte_and_zero, word_and_full, word_and_zero, and_true, if_true,
    ite_and_else_ite]
  simp only [decodeSetup, decodeDescriptor, decodeClass, apply_ite Instr.setupRow, apply_ite some]
  rfl

/-! ### The bench move, and words written out -/

/-- Settles O38: the step takes the move off the script and runs what the decoder reads. -/
theorem stepRunsThePlacedOperation : Obligations.StepRunsThePlacedOperation := by
  intro s rest code more i hfault hscript hdec
  have hrun : runMove (.bench code) { s with script := rest } = exec i { s with script := rest } := by
    simp only [runMove, hdec]
  rw [step_of_move hfault hscript, hrun]

/-- Settles O60: each word is decoded. -/
theorem writtenWordsDecode : Obligations.WrittenWordsDecode := by
  unfold Obligations.WrittenWordsDecode
  decide

end Sys2Proof.Machine

/-! PROOFS. The Register Bridge (spec/40_register_bridge.md): the status-word helper and the seven operations. -/

namespace Sys2Proof.Machine

/-! ### The status-word helper -/

/-- The write bits of a `STAT` field invert it to the wanted state, R141. -/
theorem xor_statWriteBits (cur : BitVec 2) (want : Option Stat) : cur ^^^ statWriteBits cur want = statOr cur want := by
  cases want with
  | none => exact BitVec.xor_zero
  | some st => rw [statWriteBits, ← BitVec.xor_assoc, BitVec.xor_self, BitVec.zero_xor, statOr]

/-- A toggle bit written 1 only if it is 1 is reset or kept, R141. -/
theorem xor_and_self (reset d : Bool) : (d ^^ (reset && d)) = (d && !reset) := by
  cases reset <;> cases d <;> rfl

/-- Settles O2: each field of the written register by the law of `regWrite`, then by the law of `mk_status`. -/
theorem mkStatusReachesWantedStates : Obligations.MkStatusReachesWantedStates := by
  intro s cur rx tx rrx rtx hrx htx hdrx hdtx
  refine ⟨?_, ?_, ?_, ?_, by simp, by simp, by simp, by simp, by simp, by simp⟩
  · rw [regWrite_statRx, mkStatus_statRx, ← hrx, xor_statWriteBits]
  · rw [regWrite_statTx, mkStatus_statTx, ← htx, xor_statWriteBits]
  · rw [regWrite_dtogRx, mkStatus_dtogRx, ← hdrx, xor_and_self]
  · rw [regWrite_dtogTx, mkStatus_dtogTx, ← hdtx, xor_and_self]

/-! ### The operands of R146 -/

theorem exec_write {n : Nat} {s : State} (h : s.configured n = true) (b : List Byte) :
    exec (.write n b) s = epWrite n b s := if_pos h

theorem exec_writeCommit {n : Nat} {s : State} (h : s.configured n = true) (b : List Byte) :
    exec (.writeCommit n b) s = writeCommit n b s := if_pos h

theorem exec_read {n : Nat} {s : State} (h : s.configured n = true) :
    exec (.read n) s = andThen (epRead n s) fun d => .next (s.setAppBuf d) := if_pos h

theorem exec_blockingRead {n : Nat} {s : State} (h : s.configured n = true) :
    exec (.blockingRead n) s = blockingReadStart n s := if_pos h

/-- Settles O10: each of the four tests that the endpoint is configured. -/
theorem unconfiguredEndpointIsRefused : Obligations.UnconfiguredEndpointIsRefused := by
  intro s n b h
  have hn : ¬ s.configured n = true := by
    rw [State.configured_eq_true]
    rintro ⟨hlt, hbound⟩
    exact h.elim (Nat.not_le.mpr hlt) hbound
  exact ⟨if_neg hn, if_neg hn, if_neg hn, if_neg hn⟩

/-! ### configure_endpoint -/

/-- The handlers R145 excludes, by name. -/
theorem wrongHandler_iff (id : Nat) (h : Handler) :
    (¬ (id = 0 → h = .control) ∨ ¬ (id ≠ 0 → h = .data)) ↔
      h = .none ∨ (id = 0 ∧ h ≠ .control) ∨ (0 < id ∧ h = .control) := by
  rcases Nat.eq_zero_or_pos id with rfl | hid
  · cases h <;> simp
  · cases h <;> simp [hid, hid.ne']

/-- The list of R145. -/
theorem not_acceptable_iff {c : Params} {id : Nat} {ty : EpType} {tx rx : Word} {h : Handler} :
    ¬ Acceptable c id ty tx rx h ↔
      ty = .isochronous ∨ tx.toNat % 2 = 1 ∨ rx.toNat % 2 = 1 ∨ c.pmaSize < tx.toNat + 64 ∨
      c.pmaSize < rx.toNat + 64 ∨ h = .none ∨ (id = 0 ∧ h ≠ .control) ∨ (0 < id ∧ h = .control) := by
  rw [← wrongHandler_iff]
  simp only [Acceptable, not_and_or, not_not, Nat.mod_two_not_eq_zero, Nat.not_le]

/-- Settles O6: the fault is raised for an id of the table on arguments that are not acceptable. -/
theorem configureEndpointRefusesBadArguments : Obligations.ConfigureEndpointRefusesBadArguments := by
  intro s id ty tx rx h hid
  rw [← not_acceptable_iff, ← acceptable_iff, Bool.not_eq_true]
  exact configureEndpoint_eq_fault.trans ⟨fun ⟨_, hacc, _⟩ => hacc, fun hacc => ⟨hid, hacc, rfl⟩⟩

theorem exec_configureEndpoint {c : Params} {id : Nat} {ty : EpType} {tx rx : Word} {h : Handler} {s : State}
    (hcfg : s.cfg = c) (hid : id < c.numEp) (hacc : Acceptable c id ty tx rx h) :
    exec (.configureEndpoint id ty tx rx h) s = .next (s.configure id ty tx rx h) := by
  subst hcfg
  exact configureEndpoint_eq_next.mpr (.inr ⟨hid, acceptable_iff.mpr hacc, rfl⟩)

/-- Settles O5: an accepted call leaves `State.configure`, which keeps the parameters and is its own fixed point. -/
theorem configureEndpointSetsKnownState : Obligations.ConfigureEndpointSetsKnownState := by
  intro s id ty tx rx h hwf
  refine ⟨fun hid => configureEndpoint_eq_next.mpr (.inl ⟨hid, rfl⟩), fun hid hacc => ?_⟩
  have hrecs : id < s.recs.length := hwf.recsLength ▸ hid
  have hepr : id < s.epr.length := hwf.eprLength ▸ hid
  have htwice := exec_configureEndpoint (extends_configure id ty tx rx h s).cfg hid hacc
  rw [State.configure_configure hrecs hepr] at htwice
  exact ⟨_, exec_configureEndpoint rfl hid hacc, configuredAs_configure hepr ty tx rx h, htwice⟩

/-! ### write and write_commit -/

theorem epWrite_of_long {b : List Byte} (h : 64 < b.length) (n : Nat) (s : State) : epWrite n b s = .fault .writeTooLong :=
  epWrite_eq_fault.mpr (.inl ⟨h, rfl⟩)

/-- Settles O7: a string within the contract fits, and what fits is queued. -/
theorem writeQueuesBytes : Obligations.WriteQueuesBytes := by
  intro s n b hwf hn hbound
  rw [exec_write (State.configured_of hn hbound)]
  exact ⟨fun hb => epWrite_of_fits (hwf.txFits n hb), fun hb => epWrite_of_long hb n s⟩

/-- A register write by fields. -/
theorem regWriteEpr_self {n : Nat} {s : State} (h : n < s.epr.length) (w : Word) :
    s.regWriteEpr n w = { s with epr := s.epr.set n ((s.regWriteEpr n w).eprAt n) } := by
  rw [State.eprAt_regWriteEpr, if_pos ⟨rfl, h⟩]
  rfl

/-- The register after the write of `write_commit`'s word, R148: a completion flag written 1 keeps its value. -/
theorem eprBecomes_writeCommitWord (e : Word) :
    EprBecomes (regWrite e (writeCommitWord e)) e (statCode .nak) (statCode .valid) (dtogRx e) (dtogTx e) (ctrRx e)
      (ctrTx e) := by
  refine ⟨?_, ?_, ?_, ?_, ?_, ?_, ?_, ?_, ?_, ?_⟩ <;> simp

/-- Settles O8: the bytes are queued first, then the live register alone is written. -/
theorem writeCommitArmsTransmit : Obligations.WriteCommitArmsTransmit := by
  intro s n b hwf hn hbound
  rw [exec_writeCommit (State.configured_of hn hbound)]
  refine ⟨fun hb => ?_, fun hb => ?_⟩
  · have hepr : n < (written n b s).epr.length := by rwa [written_epr, hwf.eprLength]
    refine ⟨written n b s, (written n b s).regWriteEpr n (writeCommitWord (s.eprAt n)), replyQueued_written n b s,
      writeCommit_eq_next.mpr ⟨hwf.txFits n hb, rfl⟩, ?_, ?_⟩
    · rw [← written_epr n b s]
      exact regWriteEpr_self hepr _
    · rw [State.eprAt_regWriteEpr, if_pos ⟨rfl, hepr⟩, written_eprAt]
      exact eprBecomes_writeCommitWord (s.eprAt n)
  · rw [writeCommit, epWrite_of_long hb, andThen_fault]

/-! ### read -/

theorem received_length (n : Nat) (s : State) : (received n s).length = (s.recAt n).rxCount.toNat := pmaBytes_length _ _ _

theorem received_getD {n i : Nat} {s : State} (h : i < (received n s).length) :
    (received n s).getD i 0 = s.pmaByte ((s.recAt n).rxOff.toNat + i) :=
  pmaBytes_getD _ _ _ _ (received_length n s ▸ h)

theorem epRead_of_long {n : Nat} {s : State} (h : 64 < (s.recAt n).rxCount.toNat) : epRead n s = .fault .readTooLong :=
  epRead_eq_fault.mpr (.inl ⟨h, rfl⟩)

/-- Settles O9: a count within the view gives the bytes received, which go to the caller's storage. -/
theorem readReturnsReceivedBytes : Obligations.ReadReturnsReceivedBytes := by
  intro s n hwf hn hbound
  rw [exec_read (State.configured_of hn hbound)]
  refine ⟨fun hc => ⟨received n s, received_length n s, fun _ hi => received_getD hi, ?_⟩, fun hc => ?_⟩
  · rw [hwf.epRead hc]
    rfl
  · rw [epRead_of_long hc, andThen_fault]

/-! ### blocking_read -/

/-- Settles O11: the start runs exactly with `seq` idle. -/
theorem blockingReadStartsWait : Obligations.BlockingReadStartsWait := by
  intro s n hwf hn hbound
  rw [exec_blockingRead (State.configured_of hn hbound)]
  exact ⟨fun hidle => ⟨waiting n s, blockingReadStart_eq_next.mpr ⟨hidle, rfl⟩, waitStarted_waiting (hwf.eprLength ▸ hn)⟩,
    fun hwait => blockingReadStart_eq_fault.mpr ⟨hwait, rfl⟩⟩

section
variable {s : State} {n b : Nat} (hseq : s.seq = .wait n b)
include hseq

theorem execWaitTick_of_enabled (hp : (s.recAt n).rxPending = false) (hb : 0 < b) :
    execWaitTick s = .next (s.setSeq (.wait n (b - 1))) :=
  execWaitTick_eq_next.mpr ⟨n, b, hseq, hp, hb, rfl⟩

/-- A tick is refused exactly where R151 does not enable it. -/
theorem execWaitTick_eq_refused :
    execWaitTick s = .refused .notEnabled ↔ (s.recAt n).rxPending = true ∨ b = 0 := by
  have hnot : ((s.recAt n).rxPending = true ∨ b = 0) ↔ ¬ ((s.recAt n).rxPending = false ∧ 0 < b) := by
    rw [not_and_or, Bool.not_eq_false, Nat.not_lt, Nat.le_zero]
  rw [hnot, execWaitTick, hseq]
  dsimp only
  split_ifs with h <;> simp [h]

/-- A finish is refused exactly where R152 does not enable it. -/
theorem execWaitFinish_eq_refused :
    execWaitFinish s = .refused .notEnabled ↔ ¬ ((s.recAt n).rxPending = true ∨ b = 0) := by
  refine ⟨fun h hen => ?_, execWaitFinish_of_not_enabled hseq⟩
  rw [execWaitFinish_of_enabled hseq hen] at h
  exact waitFinish_not_refused n s _ h

/-- Without re-entrancy no dispatch is enabled during a wait, R170. -/
theorem dispatchEnabled_of_wait (hre : s.cfg.reentrant = false) : dispatchEnabled s = false := by
  rw [← Bool.not_eq_true, dispatchEnabled_iff]
  rintro ⟨-, -, hidle | hre'⟩
  · rw [hseq] at hidle
    cases hidle
  · rw [hre] at hre'
    cases hre'

end

/-- Settles O13: the tick by its enabling condition, and a scripted dispatch that is not enabled. -/
theorem waitTickCountsDown : Obligations.WaitTickCountsDown := by
  intro s n b hseq
  refine ⟨execWaitTick_of_enabled hseq, (execWaitTick_eq_refused hseq).mpr, fun hre hfault rest hscript => ?_⟩
  have hdis : dispatchEnabled { s with script := rest } = false :=
    dispatchEnabled_of_wait (s := { s with script := rest }) hseq hre
  rw [step_of_move hfault hscript, runMove, if_neg (by simp [hdis]), settle_next]

/-- With nothing received the budget's ticks bring it to 0 and change nothing else, R151. -/
theorem ticks_of_wait {n b : Nat} {s : State} (hseq : s.seq = .wait n b) (hp : (s.recAt n).rxPending = false) :
    ticks b s = .next (s.setSeq (.wait n 0)) := by
  induction b generalizing s with
  | zero => rw [← hseq]; rfl
  | succ b ih =>
    have htick : exec .waitTick s = .next (s.setSeq (.wait n b)) := execWaitTick_of_enabled hseq hp b.succ_pos
    rw [ticks, htick, andThen_next]
    exact ih (s := s.setSeq (.wait n b)) rfl hp

/-- Settles O15: the two refusals exclude each other, and after the ticks the budget is 0. -/
theorem waitEndsWithinBudget : Obligations.WaitEndsWithinBudget := by
  intro s n b hseq
  refine ⟨(execWaitTick_eq_refused hseq).trans ?_, fun hp => ⟨ticks_of_wait hseq hp, fun h => ?_⟩⟩
  · exact iff_not_comm.mp (execWaitFinish_eq_refused hseq)
  · exact (execWaitFinish_eq_refused (s := s.setSeq (.wait n 0)) rfl).mp h (.inr rfl)

/-! ### The end of a wait -/

/-- The record laid over `SCRATCH` holds the seven bytes of a Line Coding, R52 and R245. -/
theorem toBytes_scratch {s : State} (hwf : s.Wf) (d : List Byte) :
    (LineCoding.ofBytes (d ++ s.scratch.drop d.length)).toBytes = (d ++ s.scratch.drop d.length).take 7 := by
  apply LineCoding.toBytes_ofBytes
  rw [List.length_append, List.length_drop, hwf.scratchLength]
  omega

/-- The commit at the end of a wait writes one control register, R152. -/
theorem waitFinished_self {s : State} {n : Nat} (hepr : n < s.epr.length) :
    waitFinished n s =
      { written 0 [] (recordTaken n s) with epr := s.epr.set n ((waitFinished n s).eprAt n) } := by
  have hlive : (written 0 [] (recordTaken n s)).epr = s.epr := written_epr _ _ _
  rw [← hlive]
  exact commit_self (by rwa [hlive])

/-- The register the end of a wait leaves: the epilogue's word is computed from the refreshed shadow, R152. -/
theorem eprBecomes_waitFinished {s : State} {n : Nat} (hrecs : n < s.recs.length) (hepr : n < s.epr.length) :
    EprBecomes ((waitFinished n s).eprAt n) (s.eprAt n) (statCode .nak) (statCode .valid) (dtogRx (s.eprAt n))
      (dtogTx (s.eprAt n)) false false := by
  have hlive : (written 0 [] (recordTaken n s)).eprAt n = s.eprAt n := written_eprAt _ _ _ _
  have hshadow : ((recordTaken n s).recAt n).status = s.eprAt n := by rw [recordTaken_recAt hrecs]
  have hlen : n < (written 0 [] (recordTaken n s)).epr.length := by rwa [written_epr]
  have hcommit := eprBecomes_commit hlen (some .nak) (some .valid) false false false false
  simp only [hlive, Bool.and_false, Bool.not_false, Bool.and_true, statOr] at hcommit
  rwa [waitFinished, hshadow]

/-- Settles O14: the record is taken, the acknowledgement queued, and the epilogue committed. -/
theorem waitFinishTakesRecord : Obligations.WaitFinishTakesRecord := by
  intro s n b hwf hn hseq
  have hrecs : n < s.recs.length := hwf.recsLength ▸ hn
  have hepr : n < s.epr.length := hwf.eprLength ▸ hn
  refine ⟨fun hp hb => ?_, fun hen hc => ?_, fun hen hc => ?_⟩
  · exact execWaitFinish_of_not_enabled hseq (by simp [hp, hb.ne'])
  · have hrun : exec .waitFinish s = .next (waitFinished n s) :=
      (execWaitFinish_of_enabled hseq hen).trans (waitFinish_eq_next.mpr ⟨hc, hwf.bytesExist hc, rfl⟩)
    have hbytes := toBytes_scratch hwf (received n s)
    refine ⟨received n s, LineCoding.ofBytes (received n s ++ s.scratch.drop (received n s).length),
      written 0 [] (recordTaken n s), waitFinished n s, received_length n s, fun _ hi => received_getD hi, hbytes, ?_, hrun,
      waitFinished_self hepr, eprBecomes_waitFinished hrecs hepr⟩
    rw [← hbytes]
    exact replyQueued_written 0 [] (recordTaken n s)
  · exact (execWaitFinish_of_enabled hseq hen).trans (waitFinish_eq_fault.mpr (epRead_of_long hc))

end Sys2Proof.Machine

/-! PROOFS. The Interrupt Dispatcher (spec/41_interrupt_dispatcher.md): snapshot and commit, the two interrupt paths, the
dispatch. -/

namespace Sys2Proof.Machine

/-! ### Interrupt entry and return -/

/-- Settles O4: the record the snapshot leaves, field by field. -/
theorem snapshotRecordsTheCompletion : Obligations.SnapshotRecordsTheCompletion := by
  intro s n hn
  rw [snapshot_recAt_self hn]
  exact ⟨rfl, rfl⟩

/-- The register after a commit, R176: the write of the commit word. -/
theorem commit_eprAt_self {s : State} {n : Nat} (h : n < s.epr.length) (r : HandlerResult) :
    (commit n r s).eprAt n = regWrite (s.eprAt n) (commitWord r) := by
  rw [State.eprAt_commit, if_pos ⟨rfl, h⟩]

/-- Settles O3: each field by the law of `regWrite` and then of the commit word; a result of `mk_status` by the law of its
commit. -/
theorem commitWritesBack : Obligations.CommitWritesBack := by
  intro s n r hn
  refine ⟨commit_self hn, ?_, ?_, ?_, ?_, ?_, ?_, ?_, ?_, ?_, ?_, ?ofMkStatus⟩
  case ofMkStatus =>
    intro rx tx rrx rtx hstatus
    obtain ⟨status, a, b⟩ := r
    obtain rfl : status = mkStatus (s.eprAt n) rx tx rrx rtx := hstatus
    exact eprBecomes_commit hn rx tx rrx rtx a b
  all_goals rw [commit_eprAt_self hn]; simp

/-! ### The bus-reset path -/

/-- The state the reset path leaves, R172. -/
def reinitialised (s : State) : State :=
  { s.configure 0 .control Config.ep0TxOffset Config.ep0RxOffset .control with
    daddr := 0x80, dev := ⟨0, .default⟩, istrReset := false }

/-- The reset path's arguments are ones `configure_endpoint` accepts, R145, as R6 gives at least 192 bytes of packet memory. -/
theorem acceptable_ep0 {c : Params} (h : c.wf) :
    Acceptable c 0 .control Config.ep0TxOffset Config.ep0RxOffset .control := by
  obtain ⟨-, -, -, hsize, -⟩ := h
  have htx : Config.ep0TxOffset.toNat = 64 := rfl
  have hrx : Config.ep0RxOffset.toNat = 128 := rfl
  exact ⟨by decide, by decide, by decide, by omega, by omega, fun _ => rfl, fun h0 => absurd rfl h0⟩

theorem exec_irqReset {s : State} (h : s.cfg.wf) : exec .irqReset s = .next (reinitialised s) := by
  have hconf : configureEndpoint 0 .control Config.ep0TxOffset Config.ep0RxOffset .control s =
      .next (s.configure 0 .control Config.ep0TxOffset Config.ep0RxOffset .control) :=
    exec_configureEndpoint rfl h.1 (acceptable_ep0 h)
  have hexec : exec .irqReset s = execIrqReset s := rfl
  rw [hexec, execIrqReset, hconf, andThen_next]
  rfl

/-- The reset path's other writes do not meet `configure_endpoint`'s. -/
theorem configure_resetWrites (s : State) (d : Byte) (dev : DevState) (b : Bool) (id : Nat) (ty : EpType) (tx rx : Word)
    (h : Handler) :
    State.configure { s with daddr := d, dev := dev, istrReset := b } id ty tx rx h =
      { s.configure id ty tx rx h with daddr := d, dev := dev, istrReset := b } := rfl

/-- A second bus reset leaves what the first left, R179. -/
theorem reinitialised_reinitialised {s : State} (hrecs : 0 < s.recs.length) (hepr : 0 < s.epr.length) :
    reinitialised (reinitialised s) = reinitialised s := by
  have hconf := State.configure_configure hrecs hepr .control Config.ep0TxOffset Config.ep0RxOffset .control
  unfold reinitialised
  rw [configure_resetWrites, hconf]

/-- The control register R57 gives endpoint 0 after a bus reset. -/
theorem eprAt_of_configuredAs_ep0 {s u : State} {tx rx : Word} (h : ConfiguredAs 0 .control tx rx .control s u)
    (hsetup : setupBit (s.eprAt 0) = false) : u.eprAt 0 = 0x3220 := by
  obtain ⟨-, hstatRx, hstatTx, hdtogRx, hdtogTx, hctrRx, hctrTx, htype, hkind, haddr, hkept, -⟩ := h
  exact eprWord_ext hctrRx hdtogRx hstatRx (hkept.trans hsetup) htype hkind hctrTx hdtogTx hstatTx haddr

/-- Settles O28: endpoint 0 is configured, and what the path writes is its own fixed point. -/
theorem resetPathReinitialises : Obligations.ResetPathReinitialises := by
  intro s hwf
  have hN : 0 < s.cfg.numEp := hwf.cfgOk.1
  have hrecs : 0 < s.recs.length := hwf.recsLength ▸ hN
  have hepr : 0 < s.epr.length := hwf.eprLength ▸ hN
  have hconf := configuredAs_configure hepr .control Config.ep0TxOffset Config.ep0RxOffset .control
  have hcfg : (reinitialised s).cfg = s.cfg := (extends_irqReset (exec_irqReset hwf.cfgOk)).cfg
  have htwice := exec_irqReset (hcfg.symm ▸ hwf.cfgOk)
  rw [reinitialised_reinitialised hrecs hepr] at htwice
  have hvalue := eprAt_of_configuredAs_ep0 hconf
  exact ⟨reinitialised s, _, exec_irqReset hwf.cfgOk, hconf, rfl, hvalue, htwice⟩

/-! ### The faults of the correct-transfer path -/

theorem execIrqCtr_of_not_configured {e : BitVec 4} {s : State} (h : ¬ s.configured e.toNat = true) :
    execIrqCtr e s = .fault .noHandler := by
  rw [execIrqCtr_eq, if_neg h]

/-- A handler is called on a record just snapshotted, and it checks the two flags first, R25 and R191. -/
theorem invoke_snapshot_of_flags_eq {n : Nat} {s : State} (hn : n < s.recs.length) (hbound : (s.recAt n).handler ≠ .none)
    (hflags : ctrRx (s.eprAt n) = ctrTx (s.eprAt n)) : invoke n (snapshot n s) = .fault .flagInvariant := by
  obtain ⟨-, -, hhandler⟩ := snapshot_recAt_static n n s
  rw [invoke, hhandler]
  cases hh : (s.recAt n).handler with
  | none => exact absurd hh hbound
  | control => exact (ep0Handler_snapshot hn).trans (if_pos hflags)
  | data =>
    have hpending : ((snapshot n s).recAt n).rxPending = ((snapshot n s).recAt n).txPending := by
      rw [snapshot_recAt_self hn]
      exact hflags
    exact if_pos hpending

/-- Only an endpoint of the table has a handler, R21. -/
theorem lt_recs_of_handler {n : Nat} {s : State} (h : (s.recAt n).handler ≠ .none) : n < s.recs.length := by
  by_contra hle
  rw [State.recAt_of_le (Nat.not_lt.mp hle)] at h
  exact h rfl

/-- Settles O33: the path tests the endpoint first, and the handler its two flags. -/
theorem ctrFaultsOnBrokenPreconditions : Obligations.CtrFaultsOnBrokenPreconditions := by
  intro s e hwf
  refine ⟨fun h => execIrqCtr_of_not_configured ?_, fun hbound hflags => ?_⟩
  · rw [State.configured_eq_true]
    rintro ⟨hlt, hbound⟩
    exact h.elim (Nat.not_le.mpr hlt) hbound
  · have hn : e.toNat < s.recs.length := lt_recs_of_handler hbound
    have hexec : exec (.irqCtr e) s = execIrqCtr e s := rfl
    have hinvoke := invoke_snapshot_of_flags_eq (s := s.setHandlerRet .none) hn hbound hflags
    rw [hexec, execIrqCtr_eq, if_pos (State.configured_of (hwf.recsLength ▸ hn) hbound), hinvoke, andThen_fault]

/-! ### A dispatch -/

theorem serveTransfer_of_ctr {s : State} (h : s.istrCtr = true) :
    serveTransfer s = exec (.irqCtr s.epIdField) { s with draws := s.draws + 1 } := if_pos h

theorem serveTransfer_of_not_ctr {s : State} (h : s.istrCtr = false) : serveTransfer s = .next s :=
  if_neg (ne_true_of_eq_false h)

/-- With the reset cause set the reset path runs first, R170 and R178. -/
theorem dispatch_of_reset {s : State} (h : s.istrReset = true) : dispatch s = andThen (exec .irqReset s) serveTransfer := by
  rw [dispatch, if_pos h]
  rfl

theorem dispatch_of_not_reset {s : State} (h : s.istrReset = false) : dispatch s = serveTransfer s := by
  rw [dispatch, if_neg (ne_true_of_eq_false h), andThen_next]

/-- A step dispatches on a cause: a scripted dispatch where R170 enables it, and the engine itself with nothing else to do. -/
theorem step_eq_dispatch {s : State} {rest : List Move} (hfault : s.fault = none)
    (hcause : s.istrReset = true ∨ s.istrCtr = true) (hruns : s.seq = .idle ∨ s.cfg.reentrant = true)
    (hscript : s.script = .dispatch :: rest ∨ s.script = [] ∧ rest = [] ∧ s.seq = .idle) :
    step s = settle s (dispatch { s with script := rest }) := by
  have henabled (script : List Move) : dispatchEnabled { s with script := script } = true :=
    dispatchEnabled_iff.mpr ⟨hfault, hcause, hruns⟩
  rcases hscript with hscript | ⟨hscript, rfl, hidle⟩
  · rw [step_of_move hfault hscript, runMove, if_pos (henabled rest)]
  · have hself : { s with script := [] } = s := by rw [← hscript]
    have hen := henabled []
    rw [hself] at hen ⊢
    rw [step_of_empty hfault hscript, engineStep, if_pos hen, if_pos (decide_eq_true hidle)]

/-- Settles O36: the operation the status decodes to is the first the dispatch runs. -/
theorem stepRunsTheDecodedInterrupt : Obligations.StepRunsTheDecodedInterrupt := by
  intro s rest i hfault hruns hscript hdec
  have hdecode : decodeIstr s.istr = some i := by
    simp only [decode, wordOf_bytes] at hdec
    split at hdec
    · next j hj =>
      cases hdec
      exact hj
    · cases hdec
  rw [decodeIstr_istr] at hdecode
  split_ifs at hdecode with hreset hctr
  · cases hdecode
    refine ⟨fun _ => ?_, fun hi => absurd rfl hi⟩
    rw [step_eq_dispatch hfault (.inl hreset) hruns hscript, dispatch_of_reset (s := { s with script := rest }) hreset]
    rfl
  · cases hdecode
    refine ⟨nofun, fun _ => ?_⟩
    rw [step_eq_dispatch hfault (.inr hctr) hruns hscript,
      dispatch_of_not_reset (s := { s with script := rest }) (eq_false_of_ne_true hreset),
      serveTransfer_of_ctr (s := { s with script := rest }) hctr]
    rfl

/-- Only an endpoint of the table can be pending, R34. -/
theorem lt_epr_of_pending {n : Nat} {s : State} (h : pendingWord (s.eprAt n) = true) : n < s.epr.length := by
  by_contra hle
  rw [State.eprAt_of_le (Nat.not_lt.mp hle)] at h
  exact absurd h (by decide)

/-- The correct-transfer cause is set where some endpoint is pending. -/
theorem istrCtr_iff_exists_pending {s : State} : s.istrCtr = true ↔ ∃ n, pendingWord (s.eprAt n) = true :=
  istrCtr_iff.trans (exists_congr fun _ => and_iff_right_of_imp lt_epr_of_pending)

/-- With endpoint 0 not pending, a pending endpoint is another one. -/
theorem pos_of_pending {n : Nat} {s : State} (h0 : pendingWord (s.eprAt 0) = false) (hn : pendingWord (s.eprAt n) = true) :
    0 < n := by
  refine Nat.pos_of_ne_zero fun hzero => ?_
  rw [hzero, h0] at hn
  cases hn

/-- With endpoint 0 not pending, the correct-transfer cause is set where another endpoint is. -/
theorem istrCtr_iff_of_ep0 {s : State} (h0 : pendingWord (s.eprAt 0) = false) :
    s.istrCtr = true ↔ ∃ n, 0 < n ∧ pendingWord (s.eprAt n) = true :=
  istrCtr_iff_exists_pending.trans (exists_congr fun _ => (and_iff_right_of_imp (pos_of_pending h0)).symm)

/-- Settles O34: after the reset path the transfer condition is that of the endpoints other than 0, whose registers it keeps. -/
theorem resetWinsOverTransfer : Obligations.ResetWinsOverTransfer := by
  intro s rest hwf hfault hscript hreset hruns
  have hwf' : State.Wf { s with script := rest } := hwf.of_eq rfl rfl rfl rfl rfl
  have hexec := exec_irqReset hwf'.cfgOk
  have hwfu : (reinitialised { s with script := rest }).Wf := hwf'.irqReset hexec
  obtain ⟨h0, hkept⟩ := irqReset_ep0 hwf' hexec
  have hstep : step s = settle s (serveTransfer (reinitialised { s with script := rest })) := by
    rw [step_eq_dispatch hfault (.inl hreset) hruns (.inl hscript), dispatch_of_reset (s := { s with script := rest }) hreset,
      hexec, andThen_next]
  generalize reinitialised { s with script := rest } = u at *
  replace hkept (n : Nat) (hn : 0 < n) : u.eprAt n = s.eprAt n := hkept n hn.ne'
  refine ⟨u, hexec, h0, hkept, fun hnone => ?_, fun ⟨n, hn, hp⟩ => ?_⟩
  · have hctr : u.istrCtr = false := by
      rw [← Bool.not_eq_true, istrCtr_iff_of_ep0 h0]
      rintro ⟨n, hn, hp⟩
      rw [hkept n hn, hnone n hn] at hp
      cases hp
    rw [hstep, serveTransfer_of_not_ctr hctr, settle_next]
  · have hctr : u.istrCtr = true := (istrCtr_iff_of_ep0 h0).mpr ⟨n, hn, by rwa [hkept n hn]⟩
    have hlen : u.epr.length ≤ 16 := by
      have := hwfu.cfgOk.2.1
      rw [hwfu.eprLength]
      omega
    obtain ⟨-, hid⟩ := epIdField_pending hlen hctr
    have hpos : 0 < u.epIdField.toNat := pos_of_pending h0 hid
    exact ⟨u.epIdField, hpos, by rwa [← hkept _ hpos], by rw [hstep, serveTransfer_of_ctr hctr]⟩

end Sys2Proof.Machine

/-! PROOFS. The Control Transfer Engine (spec/42_control_engine.md): the three paths of endpoint 0, and a completion of
endpoint 0 served to the commit. -/

namespace Sys2Proof.Machine

/-! ### The paths of endpoint 0 -/

/-- Settles O24: the path is one write of the result; its commit is that of a status word computed from the live register. -/
theorem ep0OutStallsTransmit : Obligations.Ep0OutStallsTransmit := by
  intro s
  refine ⟨_, rfl, rfl, fun hepr hstatus => ?_⟩
  have hcommit := eprBecomes_commit hepr (some .valid) (some .stall) true true true true
  simp only [Bool.and_true, Bool.not_true, Bool.and_false] at hcommit
  rwa [hstatus]

theorem commitAddress_of_eq {s : State} (h : daddrAdd s.daddr = s.dev.address) : commitAddress s = s := if_pos h

theorem commitAddress_of_ne {s : State} (h : daddrAdd s.daddr ≠ s.dev.address) :
    commitAddress s =
      { s with daddr := 0x80 ||| s.dev.address.zeroExtend 8, dev := { s.dev with phase := .addressed } } :=
  if_neg h

/-- The two fields the deferred commit may write, R196. -/
theorem commitAddress_eq_ite (s : State) :
    commitAddress s =
      { s with
        daddr := if daddrAdd s.daddr = s.dev.address then s.daddr else 0x80 ||| s.dev.address.zeroExtend 8
        dev := if daddrAdd s.daddr = s.dev.address then s.dev else { s.dev with phase := .addressed } } := by
  by_cases h : daddrAdd s.daddr = s.dev.address
  · rw [commitAddress_of_eq h, if_pos h, if_pos h]
  · rw [commitAddress_of_ne h, if_neg h, if_neg h]

/-- The IN path: the deferred address commit, then the result, R196. -/
theorem exec_ep0In (s : State) :
    exec .ep0In s = .next { commitAddress s with
      handlerRet := .done ⟨mkStatus (s.recAt 0).status (some .valid) (some .valid) false false, false, false⟩ } := rfl

/-- Settles O25: the two cases of the deferred commit; no toggle reset is requested. -/
theorem ep0InCommitsTheAddress : Obligations.Ep0InCommitsTheAddress := by
  intro s
  refine ⟨_, rfl, fun hne => ?_, fun heq => ?_, fun hepr hstatus => ?_⟩
  · rw [exec_ep0In, commitAddress_of_ne hne]
  · rw [exec_ep0In, commitAddress_of_eq heq]
  · have hcommit := eprBecomes_commit hepr (some .valid) (some .valid) false false false false
    simp only [Bool.and_false, Bool.not_false, Bool.and_true] at hcommit
    rwa [hstatus]

/-- The SETUP path in a state of the right shape, where the packet's bytes exist, R192. -/
theorem exec_ep0Setup {s : State} (hwf : s.Wf) :
    exec .ep0Setup s =
      andThen (exec (decodeSetup s.cfg s.packet) { s with handlerRet := .none }) fun u => .next (returnResult 0 u) :=
  (setupPath_eq 0 s).trans (if_pos (hwf.packetExists 0))

/-- How the SETUP path ends after a request that completed: suspended by SET_LINE_CODING alone, else with the epilogue of a
register no request has written, R192 and R193. -/
theorem exec_ep0Setup_of_request {s u : State} (hwf : s.Wf)
    (hu : exec (decodeSetup s.cfg s.packet) { s with handlerRet := .none } = .next u) :
    (IsSetLineCoding (decodeSetup s.cfg s.packet) ∧ u.handlerRet = .suspended ∧ exec .ep0Setup s = .next u) ∨
    (¬ IsSetLineCoding (decodeSetup s.cfg s.packet) ∧ u.epr = s.epr ∧
      exec .ep0Setup s = .next { u with handlerRet := .done (setupEpilogue (s.recAt 0).status) }) := by
  rw [exec_ep0Setup hwf, hu, andThen_next]
  rcases exec_request_keeps (decodeSetup_format _ _) hu with ⟨hother, hrecs, hepr, hret⟩ | ⟨hslc, -, hwait⟩
  · refine .inr ⟨hother, hepr, ?_⟩
    have hstatus : u.recAt 0 = s.recAt 0 := recAt_congr hrecs 0
    rw [returnResult_of_none hret, hstatus]
    rfl
  · have hret : u.handlerRet = .suspended := by rw [hwait]; rfl
    exact .inl ⟨hslc, hret, by rw [returnResult_of_suspended hret]⟩

/-- An operation is SET_LINE_CODING with some fields, or differs from it with any. -/
theorem not_isSetLineCoding_iff {i : Instr} :
    ¬ IsSetLineCoding i ↔ ∀ toHost wValue wIndex wLength, i ≠ .setLineCoding toHost wValue wIndex wLength := by
  simp only [IsSetLineCoding, not_exists, ne_eq]

/-- Settles O26: the path's end by what the request is; a fault passes through; a request is never refused. -/
theorem ep0SetupRunsTheRequest : Obligations.Ep0SetupRunsTheRequest := by
  intro s hwf
  refine ⟨fun t ht => ?_, fun x hx => ?_, exec_request_not_refused (decodeSetup_format _ _) _⟩
  · rcases exec_ep0Setup_of_request hwf ht with ⟨hslc, hret, hpath⟩ | ⟨hother, -, hpath⟩
    · exact ⟨fun _ => ⟨hret, hpath⟩, fun hne => absurd hslc (not_isSetLineCoding_iff.mpr hne)⟩
    · exact ⟨fun hslc => absurd hslc hother, fun _ => hpath⟩
  · rw [exec_ep0Setup hwf, hx, andThen_fault]

/-! ### Completion of the SETUP path -/

/-- Where no descriptor's reply to this packet can exceed 64 bytes, no reply to it does, R285. -/
theorem reply_length_le {c : Params} {p : Setup} {b : List Byte} (hfit : RepliesFit c p.wLength)
    (hb : ReplyBound c (decodeSetup c p) b) : b.length ≤ Config.maxPacket := by
  rcases hb with hshort | ⟨d, hd, wLength, rfl, hlen⟩
  · exact hshort
  · obtain rfl : p.wLength = wLength := hlen p (encodeSetup_decodeSetup c p)
    have hclamp : (clampReply d p.wLength).length ≤ min p.wLength.toNat d.length := List.length_take_le _ _
    rcases hfit with hshort | hall
    · exact hclamp.trans ((min_le_left _ _).trans hshort)
    · exact hclamp.trans ((min_le_right _ _).trans (hall d hd))

theorem State.Wf.prepared {s s' : State} {i : Instr} (hwf : s.Wf) (h : Prepared s i s') : s'.Wf := by
  obtain ⟨hframe, -⟩ := h.frame
  rw [hframe]
  exact hwf.of_eq rfl rfl rfl rfl rfl

/-- With no wait open and no reply above 64 bytes the request of a packet completes. -/
theorem exec_packet_eq_next {s : State} {p : Setup} (hwf : s.Wf) (hidle : s.seq = .idle)
    (hfit : RepliesFit s.cfg p.wLength) : ∃ t, exec (decodeSetup s.cfg p) s = .next t := by
  rcases exec_request (decodeSetup_format s.cfg p) s with ⟨-, s', b, hprep, hbound, hexec⟩ | ⟨-, hexec⟩
  · have hfits : TxFits 0 b s' := (hwf.prepared hprep).txFits 0 (reply_length_le hfit hbound)
    exact ⟨written 0 b s', hexec.trans (epWrite_eq_next.mpr ⟨hfits, rfl⟩)⟩
  · rw [hexec, blockingReadStart_eq_next.mpr ⟨hidle, rfl⟩, andThen_next]
    exact ⟨_, rfl⟩

/-- Settles O27: the packet's request completes, and the path then returns a result or the suspension. -/
theorem ep0SetupCompletes : Obligations.Ep0SetupCompletes := by
  intro s hwf hidle hfit
  have hwf' : State.Wf { s with handlerRet := .none } := hwf.of_eq rfl rfl rfl rfl rfl
  obtain ⟨u, hu⟩ := exec_packet_eq_next hwf' hidle hfit
  refine ⟨returnResult 0 u, ?_, returnResult_ne_none 0 u⟩
  rw [exec_ep0Setup hwf]
  exact congrArg (andThen · fun u => .next (returnResult 0 u)) hu

/-! ### A completion of endpoint 0, served to the commit -/

/-- The state a path of endpoint 0 runs in: the completion recorded, no call's value left over, R174. -/
def entered (s : State) : State := snapshot 0 { s with handlerRet := .none }

theorem State.Wf.entered {s : State} (hwf : s.Wf) : (entered s).Wf :=
  (hwf.of_eq (t := { s with handlerRet := .none }) rfl rfl rfl rfl rfl).snapshot 0

/-- The shadow of endpoint 0 on entry is its live register, R174. -/
theorem entered_status {s : State} (hrecs : 0 < s.recs.length) : ((entered s).recAt 0).status = s.eprAt 0 :=
  congrArg Record.status (snapshot_recAt_self (s := { s with handlerRet := .none }) hrecs)

theorem entered_packet (s : State) : (entered s).packet = s.packet := snapshot_packet { s with handlerRet := .none }

/-- The path of endpoint 0 a register with exactly one completion flag selects, R108. -/
def ep0Path (e : Word) : Instr := if ctrRx e then (if setupBit e then .ep0Setup else .ep0Out) else .ep0In

/-- Endpoint 0's handler runs the path the flags select, R190 and R191. -/
theorem ep0Handler_eq_exec {s : State} (hrecs : 0 < s.recs.length) (hflags : ctrRx (s.eprAt 0) ≠ ctrTx (s.eprAt 0)) :
    ep0Handler 0 (snapshot 0 s) = exec (ep0Path (s.eprAt 0)) (snapshot 0 s) := by
  rw [ep0Handler_snapshot hrecs, if_neg hflags, ep0Path]
  split_ifs with hrx hsetup
  · rfl
  · rfl
  · rfl

section
variable {s : State} (hwf : s.Wf) (hbound : (s.recAt 0).handler = .control) (hflags : ctrRx (s.eprAt 0) ≠ ctrTx (s.eprAt 0))
include hwf hbound hflags

/-- A dispatch of endpoint 0 with exactly one completion: the path its flags select, then the end of the dispatch, R173. -/
theorem exec_irqCtr_ep0 :
    exec (.irqCtr 0) s =
      andThen (exec (ep0Path (s.eprAt 0)) (entered s)) fun u => .next (finishCtr 0 u) := by
  have hN : 0 < s.cfg.numEp := hwf.cfgOk.1
  have hconf : s.configured 0 = true := State.configured_of hN (by rw [hbound]; decide)
  have hhandler : ((entered s).recAt 0).handler = .control := (snapshot_recAt_static 0 0 _).2.2.trans hbound
  have hinvoke : invoke 0 (entered s) = ep0Handler 0 (entered s) := by rw [invoke, hhandler]
  have hpath : ep0Handler 0 (entered s) = exec (ep0Path (s.eprAt 0)) (entered s) :=
    ep0Handler_eq_exec (s := { s with handlerRet := .none }) (hwf.recsLength ▸ hN) hflags
  rw [← hpath, ← hinvoke]
  exact (execIrqCtr_eq 0 s).trans (if_pos hconf)

/-- Such a dispatch ends with a commit where the path has written no control register and returned a word of `mk_status`
computed from the served one, R176. -/
theorem exec_irqCtr_ep0_commits {u : State} {rx tx : Option Stat} {rrx rtx a b : Bool}
    (hpath : exec (ep0Path (s.eprAt 0)) (entered s) = .next u) (hepr : u.epr = s.epr)
    (hret : u.handlerRet = .done ⟨mkStatus (s.eprAt 0) rx tx rrx rtx, a, b⟩) :
    ∃ t, exec (.irqCtr 0) s = .next t ∧ t = { u with epr := s.epr.set 0 (t.eprAt 0), handlerRet := .none } ∧
      EprBecomes (t.eprAt 0) (s.eprAt 0) (statOr (statRx (s.eprAt 0)) rx) (statOr (statTx (s.eprAt 0)) tx)
        (dtogRx (s.eprAt 0) && !(a && rrx)) (dtogTx (s.eprAt 0) && !(b && rtx)) false false := by
  have hlen : 0 < u.epr.length := by
    rw [hepr, hwf.eprLength]
    exact hwf.cfgOk.1
  refine ⟨finishCtr 0 u, ?_, ?_, eprBecomes_finishCtr hret (eprAt_congr hepr 0) hlen⟩
  · rw [exec_irqCtr_ep0 hwf hbound hflags, hpath, andThen_next]
  · rw [← hepr]
    exact finishCtr_eq hret hlen

end

/-- Settles O29: each completion's path is one that completes, and its word is computed from the register just recorded. -/
theorem ctrServesOutAndIn : Obligations.CtrServesOutAndIn := by
  intro s hwf hbound
  have hstatus := entered_status (hwf.recsLength ▸ hwf.cfgOk.1)
  refine ⟨fun hrx htx hsetup => ?_, fun htx hrx => ?_⟩
  · have hpath : ep0Path (s.eprAt 0) = .ep0Out := by simp [ep0Path, hrx, hsetup]
    obtain ⟨r, hout, rfl, -⟩ := ep0OutStallsTransmit (entered s)
    rw [hstatus, ← hpath] at hout
    obtain ⟨t, hexec, ht, hbecomes⟩ := exec_irqCtr_ep0_commits hwf hbound (by simp [hrx, htx]) hout rfl rfl
    exact ⟨t, hexec, ht, by simpa [statOr] using hbecomes⟩
  · have hpath : ep0Path (s.eprAt 0) = .ep0In := by simp [ep0Path, hrx]
    have hin := exec_ep0In (entered s)
    rw [hstatus, commitAddress_eq_ite, ← hpath] at hin
    obtain ⟨t, hexec, ht, hbecomes⟩ := exec_irqCtr_ep0_commits hwf hbound (by simp [hrx, htx]) hin rfl rfl
    exact ⟨t, hexec, ht, by simpa [statOr] using hbecomes⟩

/-- Settles O30: the SETUP path runs in the state entered; the dispatch then ends as the request leaves it, suspended or with
the epilogue's commit. -/
theorem ctrServesSetup : Obligations.CtrServesSetup := by
  intro s hwf hbound hrx htx hsetup
  have hflags : ctrRx (s.eprAt 0) ≠ ctrTx (s.eprAt 0) := by simp [hrx, htx]
  have hpath : ep0Path (s.eprAt 0) = .ep0Setup := by simp [ep0Path, hrx, hsetup]
  have hdispatch := exec_irqCtr_ep0 hwf hbound hflags
  rw [← entered_packet s]
  refine ⟨fun u hu => ?_, fun x hx => ?_⟩
  · rcases exec_ep0Setup_of_request hwf.entered hu with ⟨hslc, hret, hsetupPath⟩ | ⟨hother, hepr, hsetupPath⟩
    · rw [hpath, hsetupPath, andThen_next, finishCtr_suspended hret] at hdispatch
      exact ⟨_, hdispatch, fun _ => rfl, fun hne => absurd hslc (not_isSetLineCoding_iff.mpr hne)⟩
    · rw [entered_status (hwf.recsLength ▸ hwf.cfgOk.1), ← hpath] at hsetupPath
      obtain ⟨t, hexec, ht, hbecomes⟩ := exec_irqCtr_ep0_commits hwf hbound hflags hsetupPath hepr rfl
      exact ⟨t, hexec, fun hslc => absurd hslc hother, fun _ => ⟨ht, by simpa [statOr] using hbecomes⟩⟩
  · obtain ⟨-, hfault, -⟩ := ep0SetupRunsTheRequest (entered s) hwf.entered
    rw [hdispatch, hpath, hfault x hx, andThen_fault]

end Sys2Proof.Machine

/-! PROOFS. Standard device requests (spec/43_standard_requests.md), with the vendor and class requests that are acknowledged
(spec/44_class_vendor_requests.md R242, R248) or answered at a fixed length (R241, R243). -/

namespace Sys2Proof.Machine

/-! ### Acknowledgements -/

/-- An operation that ends in the acknowledgement completes in every state, R211. -/
theorem acknowledged {i : Instr} {s s' : State} (h : exec i s = ack s') :
    ∃ t, exec i s = .next t ∧ ReplyQueued 0 [] s' t :=
  ⟨written 0 [] s', h.trans (ack_eq_next s'), replyQueued_written 0 [] s'⟩

/-- A packet selects the well-formed operation it encodes; one that only acknowledges then completes. -/
theorem packet_acknowledged {s : State} {p : Setup} {i : Instr} (hc : s.cfg.wf) (hw : wellFormed s.cfg i = true)
    (henc : encodeSetup s.cfg i = some p) (hexec : exec i s = ack s) :
    decodeSetup s.cfg p = i ∧ ∃ t, exec i s = .next t ∧ ReplyQueued 0 [] s t :=
  ⟨decodeSetup_of_encodeSetup hc hw henc, acknowledged hexec⟩

/-- The packets no earlier row of R109 takes, by the type alone. -/
theorem wellFormed_unknown_iff {c : Params} {bm br : Byte} {v w l : Word} :
    wellFormed c (.unknown bm br v w l) = true ↔
      bm ∉ [(0x80 : Byte), 0x00, 0x02] ∧ bm &&& 0x60 ≠ 0x40 ∧ bm &&& 0x7F ≠ 0x21 := by
  simp [wellFormed, knownRequestType, and_assoc]

/-- The class requests no earlier row of R109 takes, by the request code. -/
theorem wellFormed_classUnknown_iff {c : Params} {toHost : Bool} {br : Byte} {v w l : Word} :
    wellFormed c (.classUnknown toHost br v w l) = true ↔ br ∉ [(0x20 : Byte), 0x21, 0x22, 0x23] := by
  simp [wellFormed, and_assoc]

/-- Settles O16: the eight rows in their order; the pattern of a catch-all row is its operation's well-formedness. -/
theorem requestsWithoutDataAreAcknowledged : Obligations.RequestsWithoutDataAreAcknowledged := by
  intro s p i hc hrow
  rcases hrow with ⟨hbm, hbr, hv, rfl⟩ | ⟨hbm, h0, h6, rfl⟩ | ⟨hbm, h5, h9, rfl⟩ | ⟨hbm, hbr, rfl⟩ | ⟨hbm, h1, rfl⟩ |
    ⟨hbm, rfl⟩ | ⟨toHost, hbm, hbr, rfl⟩ | ⟨hstd, hvendor, hclass, rfl⟩
  · exact packet_acknowledged hc (by simpa [wellFormed] using hv) (Setup.mk_eq hbm hbr rfl rfl rfl) rfl
  · exact packet_acknowledged hc (by simpa [wellFormed] using ⟨h0, h6⟩) (Setup.mk_eq hbm rfl rfl rfl rfl) rfl
  · exact packet_acknowledged hc (by simpa [wellFormed] using ⟨h5, h9⟩) (Setup.mk_eq hbm rfl rfl rfl rfl) rfl
  · exact packet_acknowledged hc rfl (Setup.mk_eq hbm hbr rfl rfl rfl) rfl
  · exact packet_acknowledged hc (by simpa [wellFormed] using h1) (Setup.mk_eq hbm rfl rfl rfl rfl) rfl
  · exact packet_acknowledged hc rfl (Setup.mk_eq (vendorWrite_type _ hbm).symm rfl rfl rfl rfl) rfl
  · exact packet_acknowledged hc (wellFormed_classUnknown_iff.mpr hbr) (Setup.mk_eq hbm rfl rfl rfl rfl) rfl
  · exact packet_acknowledged hc (wellFormed_unknown_iff.mpr ⟨hstd, hvendor, hclass⟩) rfl rfl

/-! ### Descriptor replies -/

theorem clampReply_length (d : List Byte) (wLength : Word) : (clampReply d wLength).length = min wLength.toNat d.length := by
  simp [clampReply]

/-- A GET_DESCRIPTOR row, R210: its packet selects the operation its selector encodes, and the reply is queued up to 64 bytes,
a fault above. -/
theorem descriptorRow {s : State} {p : Setup} {v : Word} {i : Instr} {d : List Byte} (hwf : s.Wf)
    (hbm : p.bmRequestType = 0x80) (hbr : p.bRequest = 0x06) (hw : wellFormed s.cfg i = true)
    (henc : encodeSetup s.cfg i = some ⟨0x80, 0x06, v, p.wIndex, p.wLength⟩)
    (hexec : exec i s = replyDescriptor d p.wLength s) :
    (p.wValue = v → decodeSetup s.cfg p = i) ∧
    (min p.wLength.toNat d.length ≤ 64 →
      ∃ t, exec i s = .next t ∧ ReplyQueued 0 (d.take (min p.wLength.toNat d.length)) s t) ∧
    (64 < min p.wLength.toNat d.length → exec i s = .fault .writeTooLong) := by
  have hlen := clampReply_length d p.wLength
  rw [hexec]
  refine ⟨fun hv => ?_, fun hshort => ?_, fun hlong => ?_⟩
  · exact decodeSetup_of_encodeSetup hwf.cfgOk hw (henc.trans (Setup.mk_eq hbm hbr hv rfl rfl))
  · exact epWrite_of_fits (hwf.txFits 0 (hlen.trans_le hshort))
  · exact epWrite_of_long (hlong.trans_eq hlen.symm) 0 s

/-- Settles O17: the seven rows, each with the selector and the descriptor of its operation. -/
theorem descriptorRepliesAreClamped : Obligations.DescriptorRepliesAreClamped := by
  intro s p hwf hbm hbr
  simp only [List.forall_mem_cons]
  have row {v : Word} {i : Instr} {d : List Byte} := descriptorRow (v := v) (i := i) (d := d) hwf hbm hbr
  exact ⟨row rfl rfl rfl, row rfl rfl rfl, row rfl rfl rfl, row rfl rfl rfl, row rfl rfl rfl, row rfl rfl rfl,
    row rfl rfl rfl, List.forall_mem_nil _⟩

/-! ### Replies of a fixed length -/

/-- Settles O18: three well-formed rows whose replies are shorter than 64 bytes. -/
theorem fixedRepliesAreNotClamped : Obligations.FixedRepliesAreNotClamped := by
  intro s p hwf
  refine ⟨fun hbm hbr => ⟨?_, ?_⟩, fun hbm => ⟨?_, ?_⟩, fun toHost hbm hbr => ⟨?_, ?_⟩⟩
  · exact decodeSetup_of_encodeSetup hwf.cfgOk rfl (Setup.mk_eq hbm hbr rfl rfl rfl)
  · exact epWrite_of_fits (hwf.txFits 0 (b := [0x00, 0x00]) (show 2 ≤ 64 by decide))
  · exact decodeSetup_of_encodeSetup hwf.cfgOk rfl (Setup.mk_eq (vendorRead_type _ hbm).symm rfl rfl rfl rfl)
  · exact epWrite_of_fits (hwf.txFits 0 (b := [s.cfg.vendorReadByte]) (show 1 ≤ 64 by decide))
  · exact decodeSetup_of_encodeSetup hwf.cfgOk rfl (Setup.mk_eq hbm hbr rfl rfl rfl)
  · obtain ⟨t, hexec, hqueued⟩ := epWrite_of_fits (hwf.txFits 0 (b := s.lc.toBytes) (show 7 ≤ 64 by decide))
    refine ⟨t, hexec, hqueued, fun hdefault => ?_⟩
    rwa [hdefault, LineCoding.default_toBytes] at hqueued

/-! ### SET_ADDRESS and SET_CONFIGURATION -/

theorem decodeSetup_setAddress (c : Params) {p : Setup} (hbm : p.bmRequestType = 0x00) (hbr : p.bRequest = 0x05) :
    decodeSetup c p = .setAddress p.wValue p.wIndex p.wLength := by
  simp [decodeSetup, hbm, hbr]

theorem decodeSetup_setConfiguration (c : Params) {p : Setup} (hbm : p.bmRequestType = 0x00) (hbr : p.bRequest = 0x09) :
    decodeSetup c p = .setConfiguration p.wValue p.wIndex p.wLength := by
  simp [decodeSetup, hbm, hbr]

/-- Settles O19: both end in the acknowledgement, each after its one write to `DEV`. -/
theorem setAddressAndSetConfiguration : Obligations.SetAddressAndSetConfiguration := by
  intro s p hbm
  exact ⟨fun hbr => ⟨decodeSetup_setAddress s.cfg hbm hbr, acknowledged rfl⟩,
    fun hbr => ⟨decodeSetup_setConfiguration s.cfg hbm hbr, acknowledged rfl⟩⟩

/-! ### The new address and the status stage -/

theorem daddrAdd_enabled : ∀ a : BitVec 7, daddrAdd (0x80 ||| a.zeroExtend 8) = a := by decide

theorem daddrEf_enabled (a : BitVec 7) : daddrEf (0x80 ||| a.zeroExtend 8) = true := by simp [daddrEf]

/-- After the deferred commit the register holds the latched address, R196. -/
theorem commitAddress_daddrAdd (s : State) : daddrAdd (commitAddress s).daddr = s.dev.address := by
  by_cases h : daddrAdd s.daddr = s.dev.address
  · rwa [commitAddress_of_eq h]
  · rw [commitAddress_of_ne h]
    exact daddrAdd_enabled s.dev.address

/-- Settles O20: the acknowledgement keeps the latched address, and the IN path's deferred commit puts it in the register. -/
theorem addressIsCommittedByTheStatusStage : Obligations.AddressIsCommittedByTheStatusStage := by
  intro s wValue wIndex wLength
  obtain ⟨t, hset, hframe, -⟩ := acknowledged (i := .setAddress wValue wIndex wLength) (s := s) rfl
  have hdaddr : t.daddr = s.daddr := by rw [hframe]; rfl
  have hphase : t.dev.phase = s.dev.phase := by rw [hframe]; rfl
  have haddr : t.dev.address = wValue.extractLsb' 0 7 := by rw [hframe]; rfl
  refine ⟨t, _, hset, hdaddr, hphase, exec_ep0In t, (commitAddress_daddrAdd t).trans haddr, fun hne => ?_, fun heq => ?_⟩
  · rw [← hdaddr, ← haddr] at hne
    rw [commitAddress_of_ne hne]
    exact ⟨daddrEf_enabled t.dev.address, rfl⟩
  · rw [← hdaddr, ← haddr] at heq
    rw [commitAddress_of_eq heq]
    exact ⟨hdaddr, hphase⟩

end Sys2Proof.Machine

/-! PROOFS. The CDC class requests beyond an acknowledgement or a fixed reply (spec/44_class_vendor_requests.md R244 to R247). -/

namespace Sys2Proof.Machine

/-! ### The packets of class requests -/

/-- Bit 7 of a class packet's type is its direction, R109. -/
@[simp] theorem classType_direction (toHost : Bool) : (classType toHost)[7] = toHost := by
  cases toHost <;> rfl

/-- No row above the class rows takes a class packet, R109. -/
theorem decodeSetup_class (c : Params) {p : Setup} {toHost : Bool} (hbm : p.bmRequestType = classType toHost) :
    decodeSetup c p = decodeClass p := by
  cases toHost <;> simp [decodeSetup, hbm, classType]

section
variable (c : Params) {p : Setup} {toHost : Bool} (hbm : p.bmRequestType = classType toHost)
include hbm

theorem decodeSetup_setLineCoding (hbr : p.bRequest = 0x20) :
    decodeSetup c p = .setLineCoding toHost p.wValue p.wIndex p.wLength := by
  rw [decodeSetup_class c hbm]
  simp [decodeClass, hbm, hbr]

theorem decodeSetup_setControlLineState (hbr : p.bRequest = 0x22) :
    decodeSetup c p = .setControlLineState toHost p.wValue p.wIndex p.wLength := by
  rw [decodeSetup_class c hbm]
  simp [decodeClass, hbm, hbr]

theorem decodeSetup_sendBreak (hbr : p.bRequest = 0x23) :
    decodeSetup c p = .sendBreak toHost p.wValue p.wIndex p.wLength := by
  rw [decodeSetup_class c hbm]
  simp [decodeClass, hbm, hbr]

end

/-! ### SET_LINE_CODING -/

/-- The first phase is the `blocking_read` start on endpoint 0, R244. -/
theorem exec_setLineCoding (toHost : Bool) (wValue wIndex wLength : Word) (s : State) :
    exec (.setLineCoding toHost wValue wIndex wLength) s =
      andThen (blockingReadStart 0 s) fun u => .next (u.setHandlerRet .suspended) := rfl

/-- Settles O12: the outcome is that of the start of the wait, which runs exactly with `seq` idle. -/
theorem setLineCodingSuspends : Obligations.SetLineCodingSuspends := by
  intro s p toHost hwf hbm hbr
  rw [exec_setLineCoding]
  refine ⟨decodeSetup_setLineCoding s.cfg hbm hbr, fun hidle => ?_, fun hwait => ?_⟩
  · have hepr : 0 < s.epr.length := hwf.eprLength ▸ hwf.cfgOk.1
    refine ⟨waiting 0 s, ?_, waitStarted_waiting hepr⟩
    rw [blockingReadStart_eq_next.mpr ⟨hidle, rfl⟩]
    rfl
  · rw [blockingReadStart_eq_fault.mpr ⟨hwait, rfl⟩, andThen_fault]

/-! ### SET_CONTROL_LINE_STATE and SEND_BREAK -/

/-- Settles O21: both end in the acknowledgement, each after its one event. -/
theorem lineStateAndBreakReachTheApplication : Obligations.LineStateAndBreakReachTheApplication := by
  intro s p toHost hbm
  exact ⟨fun hbr => ⟨decodeSetup_setControlLineState s.cfg hbm hbr, acknowledged rfl⟩,
    fun hbr => ⟨decodeSetup_sendBreak s.cfg hbm hbr, acknowledged rfl⟩⟩

/-! ### The Line Coding, set and returned -/

/-- A read gives the bytes that have arrived, R149. -/
theorem received_eq {n : Nat} {s : State} {b : List Byte} (hcount : (s.recAt n).rxCount.toNat = b.length)
    (hbytes : ∀ i, i < b.length → s.pmaByte ((s.recAt n).rxOff.toNat + i) = b.getD i 0) : received n s = b := by
  rw [received, hcount]
  exact pmaBytes_eq hbytes

/-- The Line Coding after a wait is taken from the bytes received, laid over `SCRATCH`, R245. -/
theorem waitFinished_lc (n : Nat) (s : State) :
    (waitFinished n s).lc = LineCoding.ofBytes (received n s ++ s.scratch.drop (received n s).length) :=
  written_lc 0 [] (recordTaken n s)

/-- A record of seven bytes is stored verbatim, R43. -/
theorem waitFinished_lc_toBytes {n : Nat} {s : State} (hwf : s.Wf) (hlen : (received n s).length = 7) :
    (waitFinished n s).lc.toBytes = received n s := by
  rw [waitFinished_lc, toBytes_scratch hwf, ← hlen, List.take_left]

theorem exec_waitFinish_of_enabled {s : State} {n b : Nat} (hwf : s.Wf) (hseq : s.seq = .wait n b)
    (hen : (s.recAt n).rxPending = true ∨ b = 0) (hcount : (s.recAt n).rxCount.toNat ≤ Config.rxCapacity) :
    exec .waitFinish s = .next (waitFinished n s) :=
  (execWaitFinish_of_enabled hseq hen).trans (waitFinish_eq_next.mpr ⟨hcount, hwf.bytesExist hcount, rfl⟩)

/-- GET_LINE_CODING queues the seven bytes of `LC`, R243. -/
theorem exec_getLineCoding {s : State} (hwf : s.Wf) (toHost : Bool) (wValue wIndex wLength : Word) :
    ∃ u, exec (.getLineCoding toHost wValue wIndex wLength) s = .next u ∧ ReplyQueued 0 s.lc.toBytes s u :=
  epWrite_of_fits (hwf.txFits 0 (b := s.lc.toBytes) (show 7 ≤ 64 by decide))

/-- Settles O23: the end of the wait stores the seven bytes received verbatim, and what it reports and what
GET_LINE_CODING returns are the bytes stored. -/
theorem lineCodingRoundTrip : Obligations.LineCodingRoundTrip := by
  intro s budget b hwf hseq hpending hlen hcount hbytes
  have hseven : (s.recAt 0).rxCount.toNat = 7 := by rw [hcount]; rfl
  have hreceived : received 0 s = b := received_eq (hseven.trans hlen.symm) (hlen ▸ hbytes)
  have hstored : (waitFinished 0 s).lc.toBytes = b :=
    (waitFinished_lc_toBytes hwf (hreceived ▸ hlen)).trans hreceived
  have hrun : exec .waitFinish s = .next (waitFinished 0 s) :=
    exec_waitFinish_of_enabled hwf hseq (.inl hpending) (hseven.trans_le (by decide))
  refine ⟨waitFinished 0 s, hrun, waitFinished_seq 0 s, hstored ▸ waitFinished_out 0 s, fun toHost wValue wIndex wLength => ?_⟩
  have hreply := exec_getLineCoding (hwf.exec hrun) toHost wValue wIndex wLength
  rwa [hstored] at hreply

end Sys2Proof.Machine

/-! PROOFS. The Device State (spec/45_device_state.md R264): each change a step makes of `DEV` and `DADDR` has its cause. -/

namespace Sys2Proof.Machine

/-- `DEV` and `DADDR` are the same in both states. -/
def SameDevice (s t : State) : Prop := t.dev = s.dev ∧ t.daddr = s.daddr

theorem SameDevice.trans {s t u : State} (h1 : SameDevice s t) (h2 : SameDevice t u) : SameDevice s u :=
  ⟨h2.1.trans h1.1, h2.2.trans h1.2⟩

/-! ### The SETUP path -/

/-- The packet that selects a request is the one the request encodes to, R109. -/
theorem eq_of_decodeSetup {c : Params} {p q : Setup} {i : Instr} (hdec : decodeSetup c p = i) (henc : encodeSetup c i = some q) :
    p = q := by
  rw [← hdec, encodeSetup_decodeSetup] at henc
  exact Option.some.inj henc

/-- What a packet's request may make of `DEV`, R222 and R223. -/
inductive RequestDev (p : Setup) (d : DevState) : DevState → Prop
  | same : RequestDev p d d
  | address (hbm : p.bmRequestType = 0x00) (hbr : p.bRequest = 0x05) :
      RequestDev p d { d with address := p.wValue.extractLsb' 0 7 }
  | configured (hbm : p.bmRequestType = 0x00) (hbr : p.bRequest = 0x09) : RequestDev p d { d with phase := .configured }

/-- Before its reply a request writes `DEV` for SET_ADDRESS and SET_CONFIGURATION only, and never `DADDR`. -/
theorem Prepared.device {s s' : State} {i : Instr} {c : Params} {p : Setup} (h : Prepared s i s')
    (hdec : decodeSetup c p = i) : s'.daddr = s.daddr ∧ RequestDev p s.dev s'.dev := by
  cases h with
  | same i => exact ⟨rfl, .same⟩
  | address v w l =>
    obtain rfl : p = ⟨0x00, 0x05, v, w, l⟩ := eq_of_decodeSetup hdec rfl
    exact ⟨rfl, .address rfl rfl⟩
  | configuration v w l =>
    obtain rfl : p = ⟨0x00, 0x09, v, w, l⟩ := eq_of_decodeSetup hdec rfl
    exact ⟨rfl, .configured rfl rfl⟩
  | event i e => exact ⟨rfl, .same⟩

theorem exec_packet_device {s t : State} {c : Params} {p : Setup} (ht : exec (decodeSetup c p) s = .next t) :
    t.daddr = s.daddr ∧ RequestDev p s.dev t.dev := by
  rcases exec_request_eq_next (decodeSetup_format c p) ht with ⟨-, s', b, hprep, -, rfl⟩ | ⟨-, -, rfl⟩
  · rw [written_daddr, written_dev]
    exact hprep.device rfl
  · exact ⟨rfl, .same⟩

/-- The SETUP path changes `DEV` as the packet received says, R192. -/
theorem setupPath_device {s t : State} (ht : setupPath 0 s = .next t) :
    t.daddr = s.daddr ∧ RequestDev s.packet s.dev t.dev := by
  obtain ⟨-, u, hu, h⟩ := setupPath_eq_next.mp ht
  have hdevice := exec_packet_device (p := s.packet) hu
  rcases h with ⟨-, rfl⟩ | ⟨-, rfl⟩
  · exact hdevice
  · exact hdevice

/-! ### The correct-transfer path -/

/-- `t` holds the latched address of `s` in `DADDR`, which held another, R196. -/
def AddressCommitted (s t : State) : Prop :=
  daddrAdd s.daddr ≠ s.dev.address ∧ t.daddr = 0x80 ||| s.dev.address.zeroExtend 8 ∧
    t.dev = { s.dev with phase := .addressed }

theorem inPath_device {s t : State} {n : Nat} (ht : inPath n s = .next t) : SameDevice s t ∨ AddressCommitted s t := by
  cases ht
  by_cases h : daddrAdd s.daddr = s.dev.address
  · rw [commitAddress_of_eq h]
    exact .inl ⟨rfl, rfl⟩
  · rw [commitAddress_of_ne h]
    exact .inr ⟨h, rfl, rfl⟩

theorem sameDevice_finishCtr (n : Nat) (s : State) : SameDevice s (finishCtr n s) := by
  rw [finishCtr_fields]
  exact ⟨rfl, rfl⟩

theorem sameDevice_dataHandler {s t : State} {n : Nat} (ht : dataHandler n s = .next t) : SameDevice s t := by
  obtain ⟨es, rx, tx, rrx, rtx, a, b, e⟩ := dataHandler_fields ht
  rw [e]
  exact ⟨rfl, rfl⟩

/-- The changes of `DEV` and `DADDR` by a correct transfer: those of endpoint 0's SETUP path and of its IN path, R264. -/
inductive TransferDev (s t : State) : Prop where
  | same (h : SameDevice s t)
  | setup (hrx : ctrRx (s.eprAt 0) = true) (hsetup : setupBit (s.eprAt 0) = true) (hdaddr : t.daddr = s.daddr)
      (hdev : RequestDev s.packet s.dev t.dev)
  | commit (htx : ctrTx (s.eprAt 0) = true) (hrx : ctrRx (s.eprAt 0) = false) (h : AddressCommitted s t)

theorem TransferDev.trans_same {s v t : State} (h : TransferDev s v) (hsame : SameDevice v t) : TransferDev s t := by
  have ⟨hdev, hdaddr⟩ := hsame
  cases h with
  | same h => exact .same (h.trans hsame)
  | setup hrx hsetup hkept hrequest => exact .setup hrx hsetup (hdaddr.trans hkept) (hdev ▸ hrequest)
  | commit htx hrx h =>
    obtain ⟨hne, haddress, hphase⟩ := h
    exact .commit htx hrx ⟨hne, hdaddr.trans haddress, hdev.trans hphase⟩

/-- A data endpoint's handler and endpoint 0's OUT path write neither, nor does the end of a dispatch. -/
theorem irqCtr_device {s t : State} (hs : s.Wf) {e : BitVec 4} (ht : execIrqCtr e s = .next t) : TransferDev s t := by
  obtain ⟨-, ⟨v, -, hv, rfl⟩ | ⟨-, -, v, rfl, ⟨hrx, hsetup, hv⟩ | ⟨-, -, hv⟩ | ⟨hrx, htx, hv⟩⟩⟩ := irqCtr_cases hs ht
  all_goals refine TransferDev.trans_same ?_ (sameDevice_finishCtr _ v)
  · have hsame := sameDevice_dataHandler hv
    exact .same hsame
  · obtain ⟨hdaddr, hdev⟩ := setupPath_device hv
    rw [snapshot_packet] at hdev
    exact .setup hrx hsetup hdaddr hdev
  · cases hv
    exact .same ⟨rfl, rfl⟩
  · rcases inPath_device hv with h | h
    · exact .same h
    · exact .commit htx hrx h

/-- With nothing pending on endpoint 0 a correct transfer leaves both as they were. -/
theorem TransferDev.sameDevice {s t : State} (h : TransferDev s t) (h0 : pendingWord (s.eprAt 0) = false) :
    SameDevice s t := by
  obtain ⟨hrx0, htx0⟩ := Bool.or_eq_false_iff.mp h0
  cases h with
  | same h => exact h
  | setup hrx _ _ _ => rw [hrx0] at hrx; cases hrx
  | commit htx _ _ => rw [htx0] at htx; cases htx

/-- The changes by a correct transfer are rows of R264's table, whatever moves and draws are to come. -/
theorem TransferDev.devStep {s t : State} {script : List Move} {draws : Nat}
    (h : TransferDev { s with script := script, draws := draws } t) : DevStep s t := by
  unfold DevStep
  cases h with
  | same h => exact .inl h
  | setup hrx hsetup hdaddr hdev =>
    generalize hd : t.dev = d at hdev
    cases hdev with
    | same => exact .inl ⟨rfl, hdaddr⟩
    | address hbm hbr => exact .inr (.inr (.inr (.inl ⟨hrx, hsetup, hdaddr, hbm, hbr, rfl⟩)))
    | configured hbm hbr => exact .inr (.inr (.inr (.inr (.inl ⟨hrx, hsetup, hdaddr, hbm, hbr, rfl⟩))))
  | commit htx hrx h => exact .inr (.inr (.inr (.inr (.inr ⟨htx, hrx, h⟩))))

/-! ### The reset path, the bus side, the wait steps and the application -/

theorem execIrqReset_device {s t : State} (ht : execIrqReset s = .next t) : t.dev = ⟨0, .default⟩ ∧ t.daddr = 0x80 := by
  rw [execIrqReset_fields ht]
  exact ⟨rfl, rfl⟩

/-- After the reset path endpoint 0 is not pending, so a correct transfer served after it keeps what the path left, R178. -/
theorem resetCtr_device {s v t : State} (hs : s.Inv) (hv : execIrqReset s = .next v) {e : BitVec 4}
    (ht : execIrqCtr e v.bumpDraws = .next t) : t.dev = ⟨0, .default⟩ ∧ t.daddr = 0x80 := by
  obtain ⟨h0, -⟩ := irqReset_ep0 hs.wf hv
  obtain ⟨hdev, hdaddr⟩ := execIrqReset_device hv
  obtain ⟨hdev', hdaddr'⟩ := (irqCtr_device (hs.irqReset hv).bumpDraws.wf ht).sameDevice h0
  exact ⟨hdev'.trans hdev, hdaddr'.trans hdaddr⟩

/-- The bus side never writes `DEV`, and `DADDR` only in a bus reset, R271 and R276. -/
theorem bus_device {s t : State} {m : Move} (hm : m.ofBus = true) (ht : runMove m s = .next t) :
    t.dev = s.dev ∧ (t.daddr = s.daddr ∨ (m = .busReset ∧ t.daddr = 0)) := by
  refine ⟨by rw [bus_fields hm ht], ?_⟩
  cases m with
  | busReset => cases ht; exact .inr ⟨rfl, rfl⟩
  | busSetup addr p =>
    simp only [runMove, busSetup_eq] at ht
    split_ifs at ht <;> cases ht
    · exact .inl (stored_daddr 0 _ _ s)
    · exact .inl rfl
  | busOut n addr pid d =>
    simp only [runMove, busOut_eq] at ht
    split_ifs at ht <;> cases ht
    · exact .inl (stored_daddr n _ _ s)
    · exact .inl rfl
  | busIn n addr =>
    simp only [runMove, busIn_eq] at ht
    split_ifs at ht <;> cases ht <;> exact .inl rfl
  | _ => cases hm

theorem sameDevice_waitTick {s t : State} (ht : execWaitTick s = .next t) : SameDevice s t := by
  obtain ⟨n, b, -, -, -, rfl⟩ := execWaitTick_eq_next.mp ht
  exact ⟨rfl, rfl⟩

theorem sameDevice_waitFinish {s t : State} (ht : execWaitFinish s = .next t) : SameDevice s t := by
  obtain ⟨n, b, -, -, hfin⟩ := execWaitFinish_eq_next.mp ht
  obtain ⟨-, -, rfl⟩ := waitFinish_eq_next.mp hfin
  exact ⟨written_dev 0 [] _, written_daddr 0 [] _⟩

theorem sameDevice_configureEndpoint {s t : State} {id : Nat} {ty : EpType} {tx rx : Word} {hd : Handler}
    (ht : configureEndpoint id ty tx rx hd s = .next t) : SameDevice s t := by
  rw [configureEndpoint_fields ht]
  exact ⟨rfl, rfl⟩

theorem sameDevice_writeCommit {s t : State} {n : Nat} {b : List Byte} (ht : writeCommit n b s = .next t) :
    SameDevice s t := by
  obtain ⟨-, rfl⟩ := writeCommit_eq_next.mp ht
  exact ⟨written_dev n b s, written_daddr n b s⟩

/-! ### The step -/

/-- Whatever runs in a step changes `DEV` and `DADDR` by R264's table. -/
theorem StepBody.devStep {s u t : State} (hs : s.Inv) (hu : Unscripted s u) (hb : StepBody s u t) : DevStep s t := by
  have hinv := hs.unscripted hu
  obtain ⟨⟨script, draws, rfl⟩, -⟩ := hu
  have same (h : SameDevice { s with script := script, draws := draws } t) : DevStep s t := .inl h
  cases hb with
  | idle h => subst h; exact same ⟨rfl, rfl⟩
  | bus m hm hhead h =>
    obtain ⟨hdev, hdaddr | ⟨rfl, hdaddr⟩⟩ := bus_device hm h
    · exact same ⟨hdev, hdaddr⟩
    · exact .inr (.inl ⟨hhead, hdev, hdaddr⟩)
  | reset hreset h _ => exact .inr (.inr (.inl ⟨hreset, execIrqReset_device h⟩))
  | resetCtr v hreset hv _ h => exact .inr (.inr (.inl ⟨hreset, resetCtr_device hinv hv h⟩))
  | ctr _ _ h => exact TransferDev.devStep (draws := draws + 1) (irqCtr_device hinv.bumpDraws.wf h)
  | waitTick h => exact same (sameDevice_waitTick h)
  | waitFinish h => exact same (sameDevice_waitFinish h)
  | appConfigure id ty tx rx _ _ h => exact same (sameDevice_configureEndpoint h)
  | appWrite id b _ _ _ _ h => exact same (sameDevice_writeCommit h)
  | appRead id _ d _ h => subst h; exact same ⟨rfl, rfl⟩
  | bench code more i hhead _ _ => exact absurd (hs.scriptOk _ (List.mem_of_mem_head? hhead)) (by simp [Move.ofSpec])

/-- Settles O53: a fault changes `fault` only, and whatever else runs in a step changes `DEV` and `DADDR` by the table. -/
theorem deviceStateTransitions : Obligations.DeviceStateTransitions := by
  intro s t hs ht
  obtain ⟨-, ⟨x, rfl, -⟩ | ⟨u, hu, hb⟩⟩ := step_cases ht
  · exact .inl ⟨rfl, rfl⟩
  · exact hb.devStep hs hu

end Sys2Proof.Machine

/-! PROOFS. The external agents (spec/46_external_agents.md): the moves of the bus side, the handlers of data endpoints, and the
split of writers of R276. -/

namespace Sys2Proof.Machine

/-! ### The bus reset and token acceptance -/

/-- Settles O42: the map that clears the registers is a table of zeros. -/
theorem busResetClearsTheRegisters : Obligations.BusResetClearsTheRegisters := by
  intro s rest hfault hscript
  have hzero : s.epr.map (fun _ => (0 : Word)) = List.replicate s.epr.length 0 := List.map_const' ..
  rw [step_of_move hfault hscript, ← hzero]
  rfl

theorem setupAccepted_iff {addr : BitVec 7} {s : State} :
    setupAccepted addr s = true ↔ Accepts 0 addr s ∧ epType (s.eprAt 0) = EpType.control.code ∧
      statRx (s.eprAt 0) ≠ statCode .disabled ∧ ctrRx (s.eprAt 0) = false := by
  simp [setupAccepted, tokenAccepted_iff, and_assoc]

theorem transferAccepted_iff {n : Nat} {addr : BitVec 7} {s : State} :
    transferAccepted n addr s = true ↔ Accepts n addr s ∧ epType (s.eprAt n) ≠ EpType.isochronous.code := by
  simp [transferAccepted, tokenAccepted_iff]

theorem outStores_iff {n : Nat} {addr : BitVec 7} {pid : Bool} {d : List Byte} {s : State} :
    outStores n addr pid d s = true ↔ transferAccepted n addr s = true ∧ d.length ≤ Config.rxCapacity ∧
      statRx (s.eprAt n) = statCode .valid ∧ pid = dtogRx (s.eprAt n) := by
  simp [outStores, and_assoc]

/-- Each kind of token is ignored where R272 does not accept it. -/
theorem token_ignored {s : State} {n : Nat} {addr : BitVec 7} {p : Setup} {pid : Bool} {d : List Byte} {m : Move}
    (hno : ¬ Accepts n addr s)
    (hm : m ∈ [Move.busOut n addr pid d, .busIn n addr] ++ (if n = 0 then [.busSetup addr p] else [])) :
    runMove m s = .next s ∧ hostSees m s = .timeout := by
  have htransfer : ¬ transferAccepted n addr s = true := fun h => hno (transferAccepted_iff.mp h).1
  have hkinds : m = .busOut n addr pid d ∨ m = .busIn n addr ∨ (n = 0 ∧ m = .busSetup addr p) := by
    split_ifs at hm with h0 <;> simpa [h0, or_assoc] using hm
  rcases hkinds with rfl | rfl | ⟨rfl, rfl⟩
  · have hstores : ¬ outStores n addr pid d s = true := fun h => htransfer (outStores_iff.mp h).1
    exact ⟨if_neg hstores, if_neg fun h => htransfer (Bool.and_eq_true_iff.mp h).1⟩
  · exact ⟨if_neg htransfer, if_neg htransfer⟩
  · have hsetup : ¬ setupAccepted addr s = true := fun h => hno (setupAccepted_iff.mp h).1
    exact ⟨if_neg hsetup, if_neg hsetup⟩

/-- Settles O43: acceptance does not depend on the moves to come. -/
theorem unacceptedTokensAreIgnored : Obligations.UnacceptedTokensAreIgnored := by
  intro s rest n addr p pid d hfault hno m hm hscript
  obtain ⟨hrun, -⟩ := token_ignored (s := { s with script := rest }) hno hm
  obtain ⟨-, hsees⟩ := token_ignored hno hm
  exact ⟨by rw [step_of_move hfault hscript, hrun, settle_next], hsees⟩

/-! ### Receptions -/

/-- The state a reception on endpoint n leaves: the packet stored, the control register at `e`, R273 and R274. -/
def afterReception (n : Nat) (b : List Byte) (e : Word) (s : State) : State :=
  (stored n (s.bt n .addrRx).toNat b s).setEpr n e

theorem afterReception_script (n : Nat) (b : List Byte) (e : Word) (s : State) : (afterReception n b e s).script = s.script :=
  stored_script n _ b s

theorem afterReception_eprAt {n : Nat} {s : State} (hn : n < s.epr.length) (b : List Byte) (e : Word) :
    (afterReception n b e s).eprAt n = e := by
  rw [afterReception, State.eprAt_setEpr, stored_epr, if_pos ⟨rfl, hn⟩]

theorem received_afterReception {n : Nat} {b : List Byte} {s : State} (hn : n < s.epr.length) (hb : b.length ≤ 64) (e : Word) :
    Received n (s.bt n .addrRx).toNat b s (afterReception n b e s) :=
  (received_stored (by omega) s e).resolve_right (Nat.not_le.mpr hn)

/-- An endpoint on which a token is accepted has a register in the table, R272. -/
theorem State.Wf.lt_epr_of_accepts {s : State} (hwf : s.Wf) {n : Nat} {addr : BitVec 7} (hacc : Accepts n addr s) :
    n < s.epr.length := by
  obtain ⟨-, -, -, hlt, -⟩ := hacc
  exact hwf.eprLength ▸ hlt

theorem busSetup_of_accepted {s : State} {addr : BitVec 7} (hacc : setupAccepted addr s = true)
    (heven : (s.bt 0 .addrRx).toNat % 2 = 0) (hfit : (s.bt 0 .addrRx).toNat + 8 ≤ s.cfg.pmaSize) (p : Setup) :
    busSetup addr p s = .next (afterReception 0 p.toBytes (afterSetup (s.eprAt 0)) s) := by
  have hwords : s.wordsExist (s.bt 0 .addrRx).toNat 8 = true := (wordsExist_iff _ _ _).mpr (.inr ⟨heven, hfit⟩)
  rw [busSetup_eq, if_pos hacc, if_pos hwords]
  rfl

/-- Settles O44: an accepted SETUP's eight bytes fit, and the register is `afterSetup` of the old one. -/
theorem busSetupRecordsThePacket : Obligations.BusSetupRecordsThePacket := by
  intro s rest addr p hwf hfault hscript hacc heven hfit
  have hstep : step s = settle s (busSetup addr p { s with script := rest }) := step_of_move hfault hscript
  refine ⟨fun henabled => ?_, fun hdisabled => ?_⟩
  · have hsetup : setupAccepted addr s = true := setupAccepted_iff.mpr ⟨hacc, henabled⟩
    have hn : 0 < s.epr.length := hwf.lt_epr_of_accepts hacc
    have hrun := busSetup_of_accepted (s := { s with script := rest }) hsetup heven hfit p
    have hreceived := received_afterReception (s := { s with script := rest }) hn (b := p.toBytes) (show 8 ≤ 64 by decide)
    refine ⟨_, hstep.trans (congrArg (settle s) hrun), afterReception_script _ _ _ _, hreceived _, ?_⟩
    rw [afterReception_eprAt (s := { s with script := rest }) hn]
    exact ⟨afterSetup_ctrRx _, afterSetup_setupBit _, afterSetup_statRx _, afterSetup_statTx _, afterSetup_dtogRx _,
      afterSetup_dtogTx _, afterSetup_ctrTx _, afterSetup_epType _, afterSetup_epKind _, afterSetup_epAddr _, if_pos hsetup⟩
  · have hsetup : ¬ setupAccepted addr s = true := by
      rw [setupAccepted_iff]
      rintro ⟨-, htype, hstat, hctr⟩
      rcases hdisabled with h | h | h
      · exact h htype
      · exact hstat h
      · rw [hctr] at h
        cases h
    exact ⟨hstep.trans (congrArg (settle s) (if_neg hsetup)), if_neg hsetup⟩

/-- The handshake of each `STAT` value, R277. -/
theorem statHandshake_of_stat (served : Handshake) (st : BitVec 2) :
    (st = statCode .valid → statHandshake served st = served) ∧ (st = statCode .nak → statHandshake served st = .nak) ∧
    (st = statCode .stall → statHandshake served st = .stall) ∧
    (st = statCode .disabled → statHandshake served st = .timeout) := by
  refine ⟨?_, ?_, ?_, ?_⟩ <;> rintro rfl <;> rfl

theorem busOut_of_stores {s : State} {n : Nat} {addr : BitVec 7} {pid : Bool} {d : List Byte}
    (hstores : outStores n addr pid d s = true) (heven : (s.bt n .addrRx).toNat % 2 = 0)
    (hfit : (s.bt n .addrRx).toNat + 64 ≤ s.cfg.pmaSize) :
    busOut n addr pid d s = .next (afterReception n d (afterOut (s.eprAt n)) s) := by
  obtain ⟨-, hlen, -⟩ := outStores_iff.mp hstores
  have hceil : 2 * ceil2 d.length ≤ 2 * 32 := ceil2_le hlen
  rw [busOut_eq, if_pos hstores, if_pos ((wordsExist_iff _ _ _).mpr (.inr ⟨heven, by omega⟩))]
  rfl

/-- Settles O45: what is stored fits, and the register is `afterOut` of the old one; the handshake is `STAT_RX`'s. -/
theorem busOutRecordsThePacket : Obligations.BusOutRecordsThePacket := by
  intro s rest n addr pid d hwf hfault hscript hacc htype hlen heven hfit
  have hstep : step s = settle s (busOut n addr pid d { s with script := rest }) := step_of_move hfault hscript
  have htransfer : transferAccepted n addr s = true := transferAccepted_iff.mpr ⟨hacc, htype⟩
  have hsees : hostSees (.busOut n addr pid d) s = statHandshake .ack (statRx (s.eprAt n)) :=
    if_pos (Bool.and_eq_true_iff.mpr ⟨htransfer, decide_eq_true hlen⟩)
  rw [hsees]
  refine ⟨fun ⟨hvalid, hpid⟩ => ?_, fun hno => ?_, statHandshake_of_stat .ack _⟩
  · have hstores : outStores n addr pid d s = true := outStores_iff.mpr ⟨htransfer, hlen, hvalid, hpid⟩
    have hn : n < s.epr.length := hwf.lt_epr_of_accepts hacc
    have hrun := busOut_of_stores (s := { s with script := rest }) hstores heven hfit
    have hreceived := received_afterReception (s := { s with script := rest }) hn hlen
    refine ⟨_, hstep.trans (congrArg (settle s) hrun), afterReception_script _ _ _ _, hreceived _, ?_⟩
    rw [afterReception_eprAt (s := { s with script := rest }) hn]
    exact ⟨afterOut_ctrRx _, afterOut_setupBit _, afterOut_statRx _, afterOut_statTx _, afterOut_dtogRx _, afterOut_dtogTx _,
      afterOut_ctrTx _, afterOut_epType _, afterOut_epKind _, afterOut_epAddr _⟩
  · have hstores : ¬ outStores n addr pid d s = true := by
      rw [outStores_iff]
      rintro ⟨-, -, hvalid, hpid⟩
      exact hno.elim (absurd hvalid) (absurd hpid)
    exact hstep.trans (congrArg (settle s) (if_neg hstores))

/-! ### Transmissions -/

/-- The fields of a register after a transmission, R275. -/
theorem eprBecomes_afterIn (e : Word) :
    EprBecomes (afterIn e) e (statRx e) (statCode .nak) (dtogRx e) (!dtogTx e) (ctrRx e) true :=
  ⟨afterIn_statRx e, afterIn_statTx e, afterIn_dtogRx e, afterIn_dtogTx e, afterIn_ctrRx e, afterIn_ctrTx e, afterIn_setupBit e,
    afterIn_epType e, afterIn_epKind e, afterIn_epAddr e⟩

/-- The bytes an IN transaction sends: as many as `COUNT_TX` says, R275. -/
def sentBytes (n : Nat) (s : State) : List Byte :=
  s.pmaBytes (s.bt n .addrTx).toNat (countField (s.bt n .countTx)).toNat

theorem sentBytes_length (n : Nat) (s : State) : (sentBytes n s).length = (countField (s.bt n .countTx)).toNat :=
  pmaBytes_length _ _ _

theorem sentBytes_getD {n i : Nat} {s : State} (h : i < (sentBytes n s).length) :
    (sentBytes n s).getD i 0 = s.pmaByte ((s.bt n .addrTx).toNat + i) :=
  pmaBytes_getD _ _ _ _ (sentBytes_length n s ▸ h)

/-- The state a transmission leaves, R275. -/
def transmitted (n : Nat) (s : State) : State :=
  { s with out := s.out ++ [.wire n (dtogTx (s.eprAt n)) (sentBytes n s)], epr := s.epr.set n (afterIn (s.eprAt n)) }

theorem transmitted_eprAt {n : Nat} {s : State} (h : n < s.epr.length) : (transmitted n s).eprAt n = afterIn (s.eprAt n) := by
  have hset : (transmitted n s).eprAt n = (s.setEpr n (afterIn (s.eprAt n))).eprAt n := rfl
  rw [hset, State.eprAt_setEpr, if_pos ⟨rfl, h⟩]

section
variable {s : State} {n : Nat} {addr : BitVec 7} (hacc : transferAccepted n addr s = true)
include hacc

theorem busIn_of_valid (hvalid : statTx (s.eprAt n) = statCode .valid)
    (hfit : (s.bt n .addrTx).toNat + (countField (s.bt n .countTx)).toNat ≤ s.cfg.pmaSize) :
    busIn n addr s = .next (transmitted n s) := by
  rw [busIn_eq, if_pos hacc, if_pos hvalid, if_pos ((bytesExist_iff _ _ _).mpr (.inr hfit))]
  rfl

theorem busIn_of_stall (hstall : statTx (s.eprAt n) = statCode .stall) :
    busIn n addr s = .next { s with out := s.out ++ [.wireStall n] } := by
  rw [busIn_eq, if_pos hacc, hstall, if_neg (by decide), if_pos rfl]

theorem busIn_of_nak_or_disabled (h : statTx (s.eprAt n) = statCode .nak ∨ statTx (s.eprAt n) = statCode .disabled) :
    busIn n addr s = .next s := by
  rw [busIn_eq, if_pos hacc]
  rcases h with h | h
  · rw [h, if_neg (by decide), if_neg (by decide)]
  · rw [h, if_neg (by decide), if_neg (by decide)]

end

/-- Settles O46: the branches by `STAT_TX`, which also gives the handshake. -/
theorem busInTransmitsTheReply : Obligations.BusInTransmitsTheReply := by
  intro s rest n addr hwf hfault hscript hacc htype hfit
  have hstep : step s = settle s (busIn n addr { s with script := rest }) := step_of_move hfault hscript
  have htransfer : transferAccepted n addr s = true := transferAccepted_iff.mpr ⟨hacc, htype⟩
  have hsees : hostSees (.busIn n addr) s = statHandshake .data (statTx (s.eprAt n)) := if_pos htransfer
  rw [hsees]
  refine ⟨fun hvalid => ?_, fun hstall => ?_, fun hnone => ?_, statHandshake_of_stat .data _⟩
  · have hrun := busIn_of_valid (s := { s with script := rest }) htransfer hvalid hfit
    have hepr := transmitted_eprAt (s := { s with script := rest }) (hwf.lt_epr_of_accepts hacc)
    refine ⟨sentBytes n s, _, hstep.trans (congrArg (settle s) hrun), sentBytes_length n s, fun _ hi => sentBytes_getD hi, ?_,
      ?_⟩
    · rw [hepr]
      rfl
    · rw [hepr]
      exact eprBecomes_afterIn (s.eprAt n)
  · exact hstep.trans (congrArg (settle s) (busIn_of_stall (s := { s with script := rest }) htransfer hstall))
  · exact hstep.trans (congrArg (settle s) (busIn_of_nak_or_disabled (s := { s with script := rest }) htransfer hnone))

/-! ### What the bus side never does -/

/-- What a transaction makes of an endpoint register, R273 to R275. -/
inductive TokenEffect (e : Word) : Word → Prop
  | none : TokenEffect e e
  | setup : TokenEffect e (afterSetup e)
  | reception : TokenEffect e (afterOut e)
  | transmission : TokenEffect e (afterIn e)

theorem tokenEffect_setEpr {s : State} {n : Nat} {f : Word} (h : TokenEffect (s.eprAt n) f) (k : Nat) :
    TokenEffect (s.eprAt k) ((s.setEpr n f).eprAt k) := by
  rw [State.eprAt_setEpr]
  split_ifs with hk
  · obtain ⟨rfl, -⟩ := hk
    exact h
  · exact .none

theorem tokenEffect_stored {s : State} {n a : Nat} {b : List Byte} {f : Word} (h : TokenEffect (s.eprAt n) f) (k : Nat) :
    TokenEffect (s.eprAt k) (((stored n a b s).setEpr n f).eprAt k) := by
  rw [← stored_eprAt n a n b s] at h
  rw [← stored_eprAt n a k b s]
  exact tokenEffect_setEpr h k

/-- A token writes neither `DADDR` nor `ISTR.RESET`, and changes each register as its transaction does. -/
theorem token_effects {s t : State} {m : Move} (hm : m.ofBus = true) (hne : m ≠ .busReset) (ht : runMove m s = .next t) :
    t.daddr = s.daddr ∧ t.istrReset = s.istrReset ∧ ∀ k, TokenEffect (s.eprAt k) (t.eprAt k) := by
  cases m with
  | busReset => exact absurd rfl hne
  | busSetup addr p =>
    simp only [runMove, busSetup_eq] at ht
    split_ifs at ht <;> cases ht
    · exact ⟨stored_daddr 0 _ _ s, stored_istrReset 0 _ _ s, tokenEffect_stored .setup⟩
    · exact ⟨rfl, rfl, fun _ => .none⟩
  | busOut n addr pid d =>
    simp only [runMove, busOut_eq] at ht
    split_ifs at ht <;> cases ht
    · exact ⟨stored_daddr n _ _ s, stored_istrReset n _ _ s, tokenEffect_stored .reception⟩
    · exact ⟨rfl, rfl, fun _ => .none⟩
  | busIn n addr =>
    simp only [runMove, busIn_eq] at ht
    split_ifs at ht <;> cases ht
    · exact ⟨rfl, rfl, tokenEffect_setEpr .transmission⟩
    · exact ⟨rfl, rfl, fun _ => .none⟩
    · exact ⟨rfl, rfl, fun _ => .none⟩
    · exact ⟨rfl, rfl, fun _ => .none⟩
  | _ => cases hm

/-- No transaction changes a type, kind or address, clears a completion flag, or brings a `STAT` field to anything but NAK. -/
theorem TokenEffect.keeps {e f : Word} (h : TokenEffect e f) :
    epType f = epType e ∧ epKind f = epKind e ∧ epAddr f = epAddr e ∧ (ctrRx e = true → ctrRx f = true) ∧
    (ctrTx e = true → ctrTx f = true) ∧ (statRx f = statRx e ∨ statRx f = statCode .nak) ∧
    (statTx f = statTx e ∨ statTx f = statCode .nak) := by
  cases h <;> simp

/-- Settles O47: the fields a bus-side move can write, and what its transaction makes of each register. -/
theorem busSideLeavesEngineState : Obligations.BusSideLeavesEngineState := by
  intro s t m hm ht
  refine ⟨?_, fun hne => ?_⟩
  · rw [bus_fields hm ht]
    exact ⟨rfl, rfl, rfl, rfl, rfl, rfl, rfl, rfl, rfl, rfl⟩
  · obtain ⟨hdaddr, hreset, heffect⟩ := token_effects hm hne ht
    exact ⟨hdaddr, hreset, fun k => (heffect k).keeps⟩

/-! ### What the engine never does -/

theorem flagsFall_writeCommit {s t : State} {n : Nat} {b : List Byte} (ht : writeCommit n b s = .next t) : FlagsFall s t := by
  obtain ⟨-, rfl⟩ := writeCommit_eq_next.mp ht
  exact (FlagsFall.of_epr (written_epr n b s)).trans (flagsFall_regWriteEpr _ _ _)

theorem flagsFall_blockingReadStart {s t : State} {n : Nat} (ht : blockingReadStart n s = .next t) : FlagsFall s t := by
  obtain ⟨-, rfl⟩ := blockingReadStart_eq_next.mp ht
  exact (flagsFall_regWriteEpr n (rearmWord (s.recAt n).status) s).trans (.of_epr rfl)

theorem flagsFall_waitFinish {s t : State} (ht : execWaitFinish s = .next t) : FlagsFall s t := by
  obtain ⟨n, b, -, -, hfin⟩ := execWaitFinish_eq_next.mp ht
  obtain ⟨-, -, rfl⟩ := waitFinish_eq_next.mp hfin
  have hwritten : FlagsFall s (written 0 [] (recordTaken n s)) := .of_epr (written_epr 0 [] _)
  exact hwritten.trans (flagsFall_commit _ _ _)

/-- No operation sets a completion flag or changes a `SETUP` bit: the engine writes registers by `RegWrite` only, R8. -/
theorem flagsFall_exec {s t : State} {i : Instr} (ht : exec i s = .next t) : FlagsFall s t := by
  cases exec_form i s with
  | request hf => exact flagsFall_request hf ht
  | setup e => exact flagsFall_setupPath (e ▸ ht)
  | out e => rw [e] at ht; cases ht; exact .of_epr rfl
  | inToken e => exact flagsFall_inPath (e ▸ ht)
  | irqReset e => exact flagsFall_irqReset (e ▸ ht)
  | irqCtr _ e => exact flagsFall_irqCtr (e ▸ ht)
  | configure id ty tx rx hd e =>
    rcases configureEndpoint_eq_next.mp (e ▸ ht) with ⟨-, rfl⟩ | ⟨-, -, rfl⟩
    · exact .of_epr rfl
    · exact flagsFall_configure id ty tx rx hd s
  | write n b _ e =>
    obtain ⟨-, rfl⟩ := epWrite_eq_next.mp (e ▸ ht)
    exact .of_epr (written_epr n b s)
  | writeCommit n b _ e => exact flagsFall_writeCommit (e ▸ ht)
  | read n _ e =>
    obtain ⟨d, -, h⟩ := andThen_eq_next.mp (e ▸ ht)
    cases h
    exact .of_epr rfl
  | blockingRead n _ e => exact flagsFall_blockingReadStart (e ▸ ht)
  | unconfigured e => rw [e] at ht; cases ht
  | waitTick e =>
    obtain ⟨n, b, -, -, -, rfl⟩ := execWaitTick_eq_next.mp (e ▸ ht)
    exact .of_epr rfl
  | waitFinish e => exact flagsFall_waitFinish (e ▸ ht)

/-- Settles O56: every operation lets the flags fall. -/
theorem engineNeverSetsCompletionFlags : Obligations.EngineNeverSetsCompletionFlags :=
  fun _ _ _ n ht => flagsFall_exec ht n

/-! ### Handlers of data endpoints -/

/-- The state in which the handler of endpoint n runs: the completion recorded, no call's value left over, R174. -/
def enteredAt (n : Nat) (s : State) : State := snapshot n { s with handlerRet := .none }

theorem State.Wf.enteredAt {s : State} (hwf : s.Wf) (n : Nat) : (enteredAt n s).Wf :=
  (hwf.of_eq (t := { s with handlerRet := .none }) rfl rfl rfl rfl rfl).snapshot n

/-- The record a data endpoint's handler finds. -/
theorem enteredAt_recAt {n : Nat} {s : State} (hbound : (s.recAt n).handler = .data) :
    (enteredAt n s).recAt n = (s.recAt n).snapshot (s.eprAt n) (s.bt n .countRx) := by
  have hn : n < s.recs.length := lt_recs_of_handler (by rw [hbound]; decide)
  exact snapshot_recAt_self (s := { s with handlerRet := .none }) hn

/-- The default handler of a machine that has it, with exactly one completion flag, R287. -/
theorem dataHandler_of_passthrough {n : Nat} {s u : State} (hbound : (s.recAt n).handler = .data)
    (hcfg : s.cfg.dataHandler = .passthrough) (hflags : ctrRx (s.eprAt n) ≠ ctrTx (s.eprAt n))
    (hu : passthroughHandler n (enteredAt n s) = .next u) : dataHandler n (enteredAt n s) = .next u :=
  dataHandler_eq_next.mpr ⟨by rw [enteredAt_recAt hbound]; exact hflags, .inl ⟨hcfg, hu⟩⟩

section
variable {s : State} {e : BitVec 4} (hwf : s.Wf) (hbound : (s.recAt e.toNat).handler = .data)
include hwf hbound

/-- A dispatch of a data endpoint: its handler, then the end of the dispatch, R173. -/
theorem exec_irqCtr_data :
    exec (.irqCtr e) s = andThen (dataHandler e.toNat (enteredAt e.toNat s)) fun u => .next (finishCtr e.toNat u) := by
  have hsome : (s.recAt e.toNat).handler ≠ .none := by rw [hbound]; decide
  have hconf : s.configured e.toNat = true := State.configured_of (hwf.lt_of_handler hsome) hsome
  have hhandler : ((enteredAt e.toNat s).recAt e.toNat).handler = .data := by rw [enteredAt_recAt hbound]; exact hbound
  have hinvoke : invoke e.toNat (enteredAt e.toNat s) = dataHandler e.toNat (enteredAt e.toNat s) := by rw [invoke, hhandler]
  rw [← hinvoke]
  exact (execIrqCtr_eq e s).trans (if_pos hconf)

/-- Such a dispatch ends with the commit of the word its handler has returned, computed from the served register, R176. -/
theorem exec_irqCtr_data_commits {u : State} {rx tx : Option Stat} {rrx rtx a b : Bool}
    (hrun : dataHandler e.toNat (enteredAt e.toNat s) = .next u) (hepr : u.epr = s.epr)
    (hret : u.handlerRet = .done ⟨mkStatus (s.eprAt e.toNat) rx tx rrx rtx, a, b⟩) :
    ∃ t, exec (.irqCtr e) s = .next t ∧ t = { u with epr := s.epr.set e.toNat (t.eprAt e.toNat), handlerRet := .none } ∧
      EprBecomes (t.eprAt e.toNat) (s.eprAt e.toNat) (statOr (statRx (s.eprAt e.toNat)) rx)
        (statOr (statTx (s.eprAt e.toNat)) tx) (dtogRx (s.eprAt e.toNat) && !(a && rrx))
        (dtogTx (s.eprAt e.toNat) && !(b && rtx)) false false := by
  have hlen : e.toNat < u.epr.length := by
    rw [hepr, hwf.eprLength]
    exact hwf.lt_of_handler (by rw [hbound]; decide)
  refine ⟨finishCtr e.toNat u, ?_, ?_, eprBecomes_finishCtr hret (eprAt_congr hepr _) hlen⟩
  · rw [exec_irqCtr_data hwf hbound, hrun, andThen_next]
  · rw [← hepr]
    exact finishCtr_eq hret hlen

/-- A count of at most 64 lets the handler read. -/
theorem epRead_enteredAt (hcount : (countField (s.bt e.toNat .countRx)).toNat ≤ 64) :
    epRead e.toNat (enteredAt e.toNat s) = .next (received e.toNat (enteredAt e.toNat s)) := by
  refine (hwf.enteredAt e.toNat).epRead ?_
  rw [enteredAt_recAt hbound]
  exact hcount

end

/-- The default handler after a reception it can read, R287. -/
theorem passthroughHandler_of_reception {n : Nat} {s : State} {d : List Byte} (hrx : (s.recAt n).rxPending = true)
    (hread : epRead n s = .next d) :
    passthroughHandler n s = .next { s with
      out := s.out ++ [.dataRx n d]
      handlerRet := .done ⟨mkStatus (s.recAt n).status (some .valid) none false false, false, false⟩ } := by
  rw [passthroughHandler_eq, if_pos hrx, hread, andThen_next]

/-- The default handler after a transmission, R287. -/
theorem passthroughHandler_of_transmission {n : Nat} {s : State} (hrx : (s.recAt n).rxPending = false)
    (htx : (s.recAt n).txPending = true) :
    passthroughHandler n s = .next { s with
      out := s.out ++ [.dataTxDone n]
      handlerRet := .done ⟨mkStatus (s.recAt n).status none none false false, false, false⟩ } := by
  rw [passthroughHandler_eq, if_neg (ne_true_of_eq_false hrx), if_pos htx]

/-- Settles O31: the default handler on a record with one flag; its word is computed from the register just recorded. -/
theorem ctrServesDataEndpoint : Obligations.CtrServesDataEndpoint := by
  intro s e hwf hcfg hbound
  have hrec := enteredAt_recAt hbound
  refine ⟨fun hrx htx hcount => ?_, fun hrx htx => ?_⟩
  · have hrun := dataHandler_of_passthrough hbound hcfg (by simp [hrx, htx])
      (passthroughHandler_of_reception (by rw [hrec]; exact hrx) (epRead_enteredAt hwf hbound hcount))
    obtain ⟨t, hexec, ht, hbecomes⟩ := exec_irqCtr_data_commits hwf hbound hrun rfl (by rw [hrec]; rfl)
    refine ⟨received e.toNat (enteredAt e.toNat s), t, ?_, fun i hi => ?_, hexec, ht, by simpa [statOr] using hbecomes⟩
    · rw [received_length, hrec]
      rfl
    · rw [received_getD hi, hrec]
      rfl
  · have hrun := dataHandler_of_passthrough hbound hcfg (by simp [hrx, htx])
      (passthroughHandler_of_transmission (by rw [hrec]; exact hrx) (by rw [hrec]; exact htx))
    obtain ⟨t, hexec, ht, hbecomes⟩ := exec_irqCtr_data_commits hwf hbound hrun rfl (by rw [hrec]; rfl)
    exact ⟨t, hexec, ht, by simpa [statOr] using hbecomes⟩

/-- Settles O32: a handler within the contract leaves what `HandlerDone` says, and the commit then writes its endpoint's
register. -/
theorem ctrHandlerStaysInsideItsContract : Obligations.CtrHandlerStaysInsideItsContract := by
  intro s e hwf hcfg hbound hflags hcount
  have hrec := enteredAt_recAt hbound
  obtain ⟨heven, -, hfit, -⟩ := (hwf.enteredAt e.toNat).views e.toNat
  obtain ⟨u, hu, es, rx, tx, rrx, rtx, a, b, hframe, hmem⟩ :=
    contractHandler_eq_next ⟨heven, hfit⟩ ⟨_, epRead_enteredAt hwf hbound hcount⟩
  have hrun : dataHandler e.toNat (enteredAt e.toNat s) = .next u :=
    dataHandler_eq_next.mpr ⟨by rw [hrec]; exact hflags, .inr ⟨hcfg, hu⟩⟩
  rw [hrec] at hframe hmem
  obtain ⟨t, hexec, ht, -, -, hdtogRx, hdtogTx, hctrRx, hctrTx, -, htype, hkind, haddr⟩ :=
    exec_irqCtr_data_commits hwf hbound hrun (by rw [hframe]; rfl) (by rw [hframe]; rfl)
  have hpma : t.pma = u.pma := by rw [ht]
  have hdraws : t.draws = u.draws := by rw [ht]
  refine ⟨t, es, hexec, ?_, fun x hview hcountTx => ?_, hctrRx, hctrTx, htype, hkind, haddr, fun h => ?_, fun h => ?_⟩
  · rw [hframe] at ht
    rw [hpma, hdraws]
    exact ht
  · rw [State.pmaByte, hpma]
    exact hmem x hview hcountTx
  · rw [hdtogRx] at h
    exact (Bool.and_eq_true_iff.mp h).1
  · rw [hdtogTx] at h
    exact (Bool.and_eq_true_iff.mp h).1

end Sys2Proof.Machine

/-! PROOFS. The outcomes of a step (spec/60_exceptions.md): a step of the spec is never refused, a move runs where it is enabled,
and a raise ends the run. -/

namespace Sys2Proof.Machine

/-! ### Every step answers -/

/-- A step answers a next state unless what it runs is refused: a raise is recorded, R310. -/
theorem settle_answers (s : State) {o : Host.Outcome State Fault Refusal} (h : NotRefused o) : ∃ t, settle s o = .next t := by
  cases o with
  | next t => exact ⟨t, rfl⟩
  | fault x => exact ⟨s.recordFault x, rfl⟩
  | refused r => exact absurd rfl (h r)

/-- Settles O40: neither the engine's own step nor a move of the spec is refused, and the invariant scripts no other move. -/
theorem everyStepAnswers : Obligations.EveryStepAnswers := by
  intro s hinv hfault
  cases hscript : s.script with
  | nil =>
    rw [step_of_empty hfault hscript]
    exact settle_answers s (engineStep_notRefused s)
  | cons m rest =>
    have hspec : m.ofSpec = true := hinv.scriptOk m (hscript ▸ List.mem_cons_self)
    rw [step_of_move hfault hscript]
    exact settle_answers s (runMove_notRefused _ hspec)

/-! ### Wait steps and application moves -/

/-- A scripted move that runs one operation under a test: where the test holds the step is the operation, elsewhere the move is
dropped (log 8). -/
theorem step_of_guarded_move {s : State} {rest : List Move} {m : Move} {i : Instr} {test : Bool} {enabled : Prop}
    (hfault : s.fault = none) (hscript : s.script = m :: rest) (htest : test = true ↔ enabled)
    (hrun : runMove m { s with script := rest } =
      if test then exec i { s with script := rest } else .next { s with script := rest }) :
    (enabled → step s = settle s (exec i { s with script := rest })) ∧
    (¬ enabled → step s = .next { s with script := rest }) := by
  rw [step_of_move hfault hscript, hrun]
  refine ⟨fun h => ?_, fun h => ?_⟩
  · rw [if_pos (htest.mpr h)]
  · rw [if_neg (mt htest.mp h), settle_next]

/-- Settles O37: each of the five moves is its operation under the test R151, R152 and R281 to R283 give, and taking the move off
the script does not change the test. -/
theorem stepRunsWaitsAndApplicationMoves : Obligations.StepRunsWaitsAndApplicationMoves := by
  intro s rest m i enabled hfault hscript hmove
  rcases hmove with ⟨rfl, rfl, rfl⟩ | ⟨rfl, rfl, rfl⟩ | ⟨id, ty, tx, rx, rfl, rfl, rfl⟩ | ⟨id, b, rfl, rfl, rfl⟩ |
    ⟨id, rfl, rfl, rfl⟩
  · exact step_of_guarded_move hfault hscript (waitTickEnabled_iff (s := { s with script := rest })) rfl
  · exact step_of_guarded_move hfault hscript (waitFinishEnabled_iff (s := { s with script := rest })) rfl
  · exact step_of_guarded_move hfault hscript (appConfigureEnabled_iff (s := { s with script := rest })) rfl
  · exact step_of_guarded_move hfault hscript (appWriteEnabled_iff (s := { s with script := rest })) rfl
  · exact step_of_guarded_move hfault hscript (appReadEnabled_iff (s := { s with script := rest })) rfl

/-! ### A raise -/

/-- A raise with no fault recorded leaves the state before the step with `fault` set, R310. -/
theorem settle_fault_of_none {s : State} (hfault : s.fault = none) (x : Fault) :
    settle s (.fault x) = .next { s with fault := some x } := by
  rw [settle_fault, recordFault_of_none hfault]

/-- Settles O39: a recorded fault is every later step's answer, and a raise, scripted or the engine's own, is recorded. -/
theorem faultEndsTheRun : Obligations.FaultEndsTheRun := by
  refine fun s x => ⟨step_of_fault, fun hfault m rest hscript hrun => ?_, fun hfault hscript hrun => ?_⟩
  · rw [step_of_move hfault hscript, hrun, settle_fault_of_none hfault]
  · rw [step_of_empty hfault hscript, hrun, settle_fault_of_none hfault]

end Sys2Proof.Machine

/-! PROOFS. Resets and hazards (spec/70_reset_and_hazards.md): an endpoint without handler keeps a cleared register, so no step
raises `NoHandler` (R343). -/

namespace Sys2Proof.Machine

/-! ### Parts of a step that touch one endpoint's tables -/

theorem onlyEp_of_tables {s t : State} (n : Nat) (hepr : t.epr = s.epr) (hrecs : t.recs = s.recs) : OnlyEp n s t :=
  ⟨by rw [hepr], by rw [hrecs], fun m _ => ⟨eprAt_congr hepr m, recAt_congr hrecs m⟩⟩

theorem OnlyEp.trans {n : Nat} {s t u : State} (h1 : OnlyEp n s t) (h2 : OnlyEp n t u) : OnlyEp n s u := by
  obtain ⟨hepr1, hrecs1, heq1⟩ := h1
  obtain ⟨hepr2, hrecs2, heq2⟩ := h2
  refine ⟨hepr2.trans hepr1, hrecs2.trans hrecs1, fun m hm => ?_⟩
  obtain ⟨hreg1, hrec1⟩ := heq1 m hm
  obtain ⟨hreg2, hrec2⟩ := heq2 m hm
  exact ⟨hreg2.trans hreg1, hrec2.trans hrec1⟩

theorem onlyEp_setEpr (n : Nat) (e : Word) (s : State) : OnlyEp n s (s.setEpr n e) :=
  ⟨List.length_set, rfl, fun m hm => ⟨by rw [State.eprAt_setEpr, if_neg (fun h => hm h.1.symm)], rfl⟩⟩

theorem onlyEp_setRec (n : Nat) (r : Record) (s : State) : OnlyEp n s (s.setRec n r) :=
  ⟨rfl, List.length_set, fun m hm => ⟨rfl, by rw [State.recAt_setRec, if_neg (fun h => hm h.1.symm)]⟩⟩

theorem onlyEp_configure (id : Nat) (ty : EpType) (tx rx : Word) (hd : Handler) (s : State) :
    OnlyEp id s (s.configure id ty tx rx hd) := by
  rw [State.configure_eq]
  exact (onlyEp_setEpr id _ s).trans ((onlyEp_setRec id _ _).trans (onlyEp_of_tables id rfl rfl))

theorem onlyEp_waiting (n : Nat) (s : State) : OnlyEp n s (waiting n s) :=
  (onlyEp_setRec n _ s).trans ((onlyEp_setEpr n _ _).trans (onlyEp_of_tables n rfl rfl))

theorem onlyEp_waitFinished (s : State) : OnlyEp 0 s (waitFinished 0 s) := by
  have htaken : OnlyEp 0 s (recordTaken 0 s) := (onlyEp_setRec 0 _ s).trans (onlyEp_of_tables 0 rfl rfl)
  have hwritten : OnlyEp 0 s (written 0 [] (recordTaken 0 s)) :=
    htaken.trans (onlyEp_of_tables 0 (written_epr 0 [] _) (written_recs 0 [] _))
  exact hwritten.trans (onlyEp_setEpr 0 _ _)

theorem onlyEp_writeCommit {s t : State} {n : Nat} {b : List Byte} (ht : writeCommit n b s = .next t) : OnlyEp n s t := by
  obtain ⟨-, rfl⟩ := writeCommit_eq_next.mp ht
  exact (onlyEp_of_tables n (written_epr n b s) (written_recs n b s)).trans (onlyEp_setEpr n _ _)

theorem onlyEp_setupPath {s t : State} (ht : setupPath 0 s = .next t) : OnlyEp 0 s t := by
  obtain ⟨-, u, hu, h⟩ := setupPath_eq_next.mp ht
  have hrequest : OnlyEp 0 s u := by
    rcases exec_request_keeps (decodeSetup_format _ _) hu with ⟨-, hrecs, hepr, -⟩ | ⟨-, -, rfl⟩
    · exact onlyEp_of_tables 0 hepr hrecs
    · exact onlyEp_waiting 0 s
  rcases h with ⟨-, rfl⟩ | ⟨-, rfl⟩
  · exact hrequest
  · exact hrequest

theorem onlyEp_inPath {s t : State} {n : Nat} (ht : inPath n s = .next t) : OnlyEp n s t := by
  cases ht
  rw [commitAddress_eq]
  exact onlyEp_of_tables n rfl rfl

theorem onlyEp_dataHandler {s t : State} {n : Nat} (ht : dataHandler n s = .next t) : OnlyEp n s t := by
  obtain ⟨es, rx, tx, rrx, rtx, a, b, e⟩ := dataHandler_fields ht
  rw [e]
  exact onlyEp_of_tables n rfl rfl

theorem onlyEp_finishCtr (n : Nat) (s : State) : OnlyEp n s (finishCtr n s) :=
  have hrecs : (finishCtr n s).recs = s.recs := by rw [finishCtr_fields]
  ⟨finishCtr_epr_length n s, by rw [hrecs], fun m hm => ⟨finishCtr_eprAt_ne hm s, recAt_congr hrecs m⟩⟩

/-- A dispatch touches the served endpoint's register and record only, R173 to R176. -/
theorem onlyEp_irqCtr {s t : State} (hs : s.Wf) {e : BitVec 4} (ht : execIrqCtr e s = .next t) : OnlyEp e.toNat s t := by
  have hsnapshot : OnlyEp e.toNat s (snapshot e.toNat (s.setHandlerRet .none)) := onlyEp_setRec e.toNat _ s
  obtain ⟨-, ⟨v, -, hv, rfl⟩ | ⟨he, -, v, rfl, hpath⟩⟩ := irqCtr_cases hs ht
  · exact hsnapshot.trans ((onlyEp_dataHandler hv).trans (onlyEp_finishCtr _ v))
  · rw [he] at hsnapshot ⊢
    have hv : OnlyEp 0 (snapshot 0 (s.setHandlerRet .none)) v := by
      rcases hpath with ⟨-, -, hv⟩ | ⟨-, -, hv⟩ | ⟨-, -, hv⟩
      · exact onlyEp_setupPath hv
      · cases hv
        exact onlyEp_of_tables 0 rfl rfl
      · exact onlyEp_inPath hv
    exact hsnapshot.trans (hv.trans (onlyEp_finishCtr 0 v))

/-! ### An endpoint without handler keeps a cleared register -/

/-- Only the tables matter. -/
theorem State.Bound.of_tables {s t : State} (h : s.Bound) (hepr : t.epr = s.epr) (hrecs : t.recs = s.recs) : t.Bound := by
  intro n hn
  rw [recAt_congr hrecs] at hn
  rw [eprAt_congr hepr]
  exact h n hn

/-- A part of a step that touches only an endpoint it leaves bound. -/
theorem State.Bound.onlyEp {s t : State} (h : s.Bound) {n : Nat} (hep : OnlyEp n s t) (hn : (t.recAt n).handler ≠ .none) :
    t.Bound := by
  intro m hm
  have hne : m ≠ n := by
    rintro rfl
    exact hn hm
  obtain ⟨-, -, heq⟩ := hep
  obtain ⟨hreg, hrec⟩ := heq m hne
  rw [hreg]
  exact h m (hrec ▸ hm)

/-- Only an endpoint with a handler has a register that is not cleared. -/
theorem State.Bound.handler_ne_none {s : State} (h : s.Bound) {n : Nat} (hne : s.eprAt n ≠ 0) : (s.recAt n).handler ≠ .none :=
  mt (h n) hne

theorem configure_handler {s : State} {id : Nat} (hid : id < s.recs.length) (ty : EpType) (tx rx : Word) (hd : Handler) :
    ((s.configure id ty tx rx hd).recAt id).handler = hd := by
  rw [State.configure_eq]
  simp [State.recAt, hid]

theorem State.Bound.configureEndpoint {s t : State} (h : s.Bound) (hwf : s.Wf) {id : Nat} {ty : EpType} {tx rx : Word}
    {hd : Handler} (hhd : hd ≠ .none) (ht : configureEndpoint id ty tx rx hd s = .next t) : t.Bound := by
  rcases configureEndpoint_eq_next.mp ht with ⟨-, rfl⟩ | ⟨hid, -, rfl⟩
  · exact h
  · refine h.onlyEp (onlyEp_configure id ty tx rx hd s) ?_
    rwa [configure_handler (hwf.recsLength ▸ hid)]

theorem State.Bound.irqReset {s t : State} (h : s.Bound) (hwf : s.Wf) (ht : execIrqReset s = .next t) : t.Bound := by
  obtain ⟨u, hu, ht⟩ := andThen_eq_next.mp ht
  cases ht
  exact (h.configureEndpoint hwf (by decide) hu).of_tables rfl rfl

theorem irqCtr_configured {s t : State} {e : BitVec 4} (ht : execIrqCtr e s = .next t) : s.configured e.toNat = true := by
  by_contra hno
  rw [execIrqCtr_of_not_configured hno] at ht
  cases ht

theorem State.Bound.irqCtr {s t : State} (h : s.Bound) (hwf : s.Wf) {e : BitVec 4} (ht : execIrqCtr e s = .next t) :
    t.Bound := by
  obtain ⟨hviews, -⟩ := sameViews_irqCtr hwf ht
  obtain ⟨-, -, hkept⟩ := hviews e.toNat
  obtain ⟨-, hbound⟩ := State.configured_eq_true.mp (irqCtr_configured ht)
  exact h.onlyEp (onlyEp_irqCtr hwf ht) (by rwa [hkept])

theorem State.Bound.waitFinish {s t : State} (h : s.Bound) (hinv : s.Inv) (ht : execWaitFinish s = .next t) : t.Bound := by
  obtain ⟨n, b, hseq, -, hfin⟩ := execWaitFinish_eq_next.mp ht
  obtain ⟨-, -, rfl⟩ := waitFinish_eq_next.mp hfin
  obtain ⟨rfl, -, hcontrol⟩ := hinv.waitOk n b hseq
  have hrecs : 0 < s.recs.length := hinv.wf.recsLength ▸ hinv.wf.cfgOk.1
  have hkept : ((waitFinished 0 s).recAt 0).handler = (s.recAt 0).handler := by
    have hrec : (waitFinished 0 s).recAt 0 = (recordTaken 0 s).recAt 0 := written_recAt 0 [] _ 0
    rw [hrec, recordTaken_recAt hrecs]
  refine h.onlyEp (onlyEp_waitFinished s) ?_
  rw [hkept, hcontrol]
  decide

theorem State.Bound.writeCommit {s t : State} (h : s.Bound) {n : Nat} {b : List Byte} (hn : (s.recAt n).handler ≠ .none)
    (ht : writeCommit n b s = .next t) : t.Bound := by
  have hep := onlyEp_writeCommit ht
  obtain ⟨-, rfl⟩ := writeCommit_eq_next.mp ht
  refine h.onlyEp hep ?_
  rwa [State.regWriteEpr_recAt, written_recAt]

/-! ### The bus side -/

/-- A cleared register accepts no SETUP: its type is not control, R273. -/
theorem eprAt_ne_zero_of_setupAccepted {s : State} {addr : BitVec 7} (h : setupAccepted addr s = true) : s.eprAt 0 ≠ 0 := by
  obtain ⟨-, htype, -⟩ := setupAccepted_iff.mp h
  intro hzero
  rw [hzero] at htype
  exact absurd htype (by decide)

/-- A cleared register stores no OUT packet: its `STAT_RX` is not VALID, R274. -/
theorem eprAt_ne_zero_of_outStores {s : State} {n : Nat} {addr : BitVec 7} {pid : Bool} {d : List Byte}
    (h : outStores n addr pid d s = true) : s.eprAt n ≠ 0 := by
  obtain ⟨-, -, hvalid, -⟩ := outStores_iff.mp h
  intro hzero
  rw [hzero] at hvalid
  exact absurd hvalid (by decide)

/-- A cleared register transmits nothing: its `STAT_TX` is not VALID, R275. -/
theorem eprAt_ne_zero_of_statTx_valid {s : State} {n : Nat} (h : statTx (s.eprAt n) = statCode .valid) : s.eprAt n ≠ 0 := by
  intro hzero
  rw [hzero] at h
  exact absurd h (by decide)

/-- A register that is not cleared may change. -/
theorem State.Bound.setEpr {s : State} (h : s.Bound) {n : Nat} (hne : s.eprAt n ≠ 0) (e : Word) : (s.setEpr n e).Bound :=
  h.onlyEp (onlyEp_setEpr n e s) (h.handler_ne_none hne)

theorem State.Bound.stored {s : State} (h : s.Bound) {n : Nat} (hne : s.eprAt n ≠ 0) (a : Nat) (b : List Byte) (e : Word) :
    ((stored n a b s).setEpr n e).Bound :=
  (h.of_tables (stored_epr n a b s) (stored_recs n a b s)).setEpr (by rwa [stored_eprAt]) e

/-- A transaction changes only a register that is not cleared; a bus reset clears them all, R271. -/
theorem State.Bound.bus {s t : State} (h : s.Bound) {m : Move} (hm : m.ofBus = true) (ht : runMove m s = .next t) :
    t.Bound := by
  cases m with
  | busReset =>
    cases ht
    exact fun n _ => State.eprAt_clearEprs s n
  | busSetup addr p =>
    simp only [runMove, busSetup_eq] at ht
    split_ifs at ht with hacc <;> cases ht
    · exact h.stored (eprAt_ne_zero_of_setupAccepted hacc) _ _ _
    · exact h
  | busOut n addr pid d =>
    simp only [runMove, busOut_eq] at ht
    split_ifs at ht with hstores <;> cases ht
    · exact h.stored (eprAt_ne_zero_of_outStores hstores) _ _ _
    · exact h
  | busIn n addr =>
    simp only [runMove, busIn_eq] at ht
    split_ifs at ht with hacc hvalid <;> cases ht
    · exact (h.setEpr (eprAt_ne_zero_of_statTx_valid hvalid) _).of_tables rfl rfl
    · exact h.of_tables rfl rfl
    · exact h
    · exact h
  | _ => cases hm

/-- Whatever runs in a step keeps the register of an endpoint without handler cleared. -/
theorem State.Bound.stepBody {s u t : State} (h : s.Bound) (hs : s.Inv) (hu : Unscripted s u) (hb : StepBody s u t) :
    t.Bound := by
  have hinv := hs.unscripted hu
  obtain ⟨⟨script, draws, rfl⟩, -⟩ := hu
  have hbound := h.of_tables (t := { s with script := script, draws := draws }) rfl rfl
  have drawn {v : State} (hv : v.Bound) : v.bumpDraws.Bound := hv.of_tables rfl rfl
  cases hb with
  | idle e => exact e ▸ hbound
  | bus m hm _ hr => exact hbound.bus hm hr
  | reset _ hr _ => exact hbound.irqReset hinv.wf hr
  | resetCtr v _ hv _ hr => exact (drawn (hbound.irqReset hinv.wf hv)).irqCtr (hinv.irqReset hv).bumpDraws.wf hr
  | ctr _ _ hr => exact (drawn hbound).irqCtr hinv.bumpDraws.wf hr
  | waitTick hr =>
    obtain ⟨n, b, -, -, -, rfl⟩ := execWaitTick_eq_next.mp hr
    exact hbound.of_tables rfl rfl
  | waitFinish hr => exact hbound.waitFinish hinv hr
  | appConfigure id ty tx rx _ _ hr => exact hbound.configureEndpoint hinv.wf (by decide) hr
  | appWrite id b _ _ _ hdata hr =>
    have hhandler : (s.recAt id).handler ≠ .none := by
      rw [hdata]
      decide
    exact hbound.writeCommit hhandler hr
  | appRead id _ d _ e =>
    subst e
    exact hbound.of_tables rfl rfl
  | bench code more i hhead _ _ => exact absurd (hs.scriptOk _ (List.mem_of_mem_head? hhead)) (by simp [Move.ofSpec])

/-! ### `NoHandler` -/

/-- The endpoint `EP_ID` reports is pending, so its register is not cleared and it has a handler, R34. -/
theorem State.Bound.configured_epIdField {s : State} (h : s.Bound) (hwf : s.Wf) (hctr : s.istrCtr = true) :
    s.configured s.epIdField.toNat = true := by
  obtain ⟨-, hep, -⟩ := hwf.cfgOk
  obtain ⟨-, hpending⟩ := epIdField_pending (by rw [hwf.eprLength]; omega) hctr
  have hhandler : (s.recAt s.epIdField.toNat).handler ≠ .none := by
    refine h.handler_ne_none fun hzero => ?_
    rw [hzero] at hpending
    exact absurd hpending (by decide)
  exact State.configured_of (hwf.lt_of_handler hhandler) hhandler

theorem serveTransfer_notNoHandler {s : State} (hwf : s.Wf) (h : s.Bound) : NotNoHandler (serveTransfer s) := by
  unfold serveTransfer
  split_ifs with hctr
  · exact execIrqCtr_notNoHandler (s := s.bumpDraws) _ (h.configured_epIdField hwf hctr)
  · exact next_notNoHandler s

theorem execIrqReset_notNoHandler (s : State) : NotNoHandler (execIrqReset s) :=
  andThen_notNoHandler (configureEndpoint_notNoHandler _ _ _ _ _ s) fun _ => next_notNoHandler _

/-- The reset path raises nothing of the kind and leaves an endpoint without handler its cleared register, R178. -/
theorem dispatch_notNoHandler {s : State} (hwf : s.Wf) (h : s.Bound) : NotNoHandler (dispatch s) := by
  rw [NotNoHandler, dispatch, Ne, andThen_eq_fault]
  split_ifs with hreset
  · rintro (hfault | ⟨v, hv, hfault⟩)
    · exact execIrqReset_notNoHandler s hfault
    · exact serveTransfer_notNoHandler (hwf.irqReset hv) (h.irqReset hwf hv) hfault
  · rintro (hfault | ⟨v, hv, hfault⟩)
    · cases hfault
    · cases hv
      exact serveTransfer_notNoHandler hwf h hfault

theorem waitStep_notNoHandler (s : State) : NotNoHandler (waitStep s) := by
  unfold waitStep
  split_ifs
  · exact execWaitTick_ne_fault s _
  · exact execWaitFinish_notNoHandler s
  · exact next_notNoHandler s

theorem engineStep_notNoHandler {s : State} (hwf : s.Wf) (h : s.Bound) : NotNoHandler (engineStep s) := by
  unfold engineStep
  split_ifs
  · exact dispatch_notNoHandler hwf h
  · exact dispatch_notNoHandler (hwf.of_eq rfl rfl rfl rfl rfl) (h.of_tables rfl rfl)
  · exact waitStep_notNoHandler _
  · exact waitStep_notNoHandler _

theorem bus_notNoHandler {m : Move} (hm : m.ofBus = true) (s : State) : NotNoHandler (runMove m s) := by
  cases m with
  | busReset => exact next_notNoHandler _
  | busSetup addr p => simp only [runMove, busSetup_eq, NotNoHandler]; split_ifs <;> nofun
  | busOut n addr pid d => simp only [runMove, busOut_eq, NotNoHandler]; split_ifs <;> nofun
  | busIn n addr => simp only [runMove, busIn_eq, NotNoHandler]; split_ifs <;> nofun
  | _ => cases hm

theorem execWriteCommit_notNoHandler (n : Nat) (b : List Byte) (s : State) : NotNoHandler (execWriteCommit n b s) := by
  unfold execWriteCommit
  split_ifs
  · exact andThen_notNoHandler (epWrite_notNoHandler n b s) fun _ => next_notNoHandler _
  · nofun

theorem execRead_notNoHandler (n : Nat) (s : State) : NotNoHandler (execRead n s) := by
  unfold execRead
  split_ifs
  · exact andThen_notNoHandler (epRead_notNoHandler n s) fun _ => next_notNoHandler _
  · nofun

/-- A test before an operation adds no fault. -/
theorem guarded_notNoHandler {s : State} {o : Res State} (test : Bool) (h : NotNoHandler o) :
    NotNoHandler (if test then o else .next s) := by
  cases test with
  | true => exact h
  | false => exact next_notNoHandler s

theorem runMove_notNoHandler {s : State} (hwf : s.Wf) (h : s.Bound) {m : Move} (hm : m.ofSpec = true) :
    NotNoHandler (runMove m s) := by
  cases m with
  | dispatch => exact guarded_notNoHandler _ (dispatch_notNoHandler hwf h)
  | waitTick => exact guarded_notNoHandler _ (execWaitTick_ne_fault s _)
  | waitFinish => exact guarded_notNoHandler _ (execWaitFinish_notNoHandler s)
  | busReset => exact bus_notNoHandler rfl s
  | busSetup addr p => exact bus_notNoHandler rfl s
  | busOut n addr pid d => exact bus_notNoHandler rfl s
  | busIn n addr => exact bus_notNoHandler rfl s
  | appConfigure id ty tx rx => exact guarded_notNoHandler _ (configureEndpoint_notNoHandler id ty tx rx .data s)
  | appWrite id d => exact guarded_notNoHandler _ (execWriteCommit_notNoHandler id d s)
  | appRead id => exact guarded_notNoHandler _ (execRead_notNoHandler id s)
  | bench code => cases hm

/-- Settles O51: whatever runs in a step keeps `Bound` and changes no fault; what a step raises is not `NoHandler`, as `EP_ID`
reports only pending endpoints, which have a handler. -/
theorem noStepLacksAHandler : Obligations.NoStepLacksAHandler := by
  intro s t hinv h hfault ht
  obtain ⟨-, ⟨x, rfl, hraise⟩ | ⟨u, hu, hb⟩⟩ := step_cases ht
  · refine ⟨h.of_tables rfl rfl, ?_⟩
    rintro ⟨⟩
    rcases hraise with ⟨m, rest, hscript, hrun⟩ | ⟨-, hrun⟩
    · have hspec : m.ofSpec = true := hinv.scriptOk m (hscript ▸ List.mem_cons_self)
      have hwf : State.Wf { s with script := rest } := hinv.wf.of_eq rfl rfl rfl rfl rfl
      exact runMove_notNoHandler hwf (h.of_tables rfl rfl) hspec hrun
    · exact engineStep_notNoHandler hinv.wf h hrun
  · refine ⟨h.stepBody hinv hu hb, ?_⟩
    obtain ⟨⟨script, draws, rfl⟩, -⟩ := hu
    rw [hb.extends.fault, hfault]
    nofun

end Sys2Proof.Machine
